-- ==== Sys2Proof/Word.lean ====
section
/-! DEFINITION. The word types of the machine (00_scope.md R8, R9). -/

namespace Sys2Proof

/-- A byte, of memory or of an instruction (10_state.md R36). -/
abbrev Byte := BitVec 8

/-- A 64-bit linear address, general register or MMX register (10_state.md R21, R23, R29). -/
abbrev Quad := BitVec 64

/-- The container of one vector register; the register is its low MAXVL bits (10_state.md R26). -/
abbrev VecWord := BitVec 512

end Sys2Proof
end

