-- ==== Sys2Proof/Config.lean ====
section
/-! DEFINITION. The configuration record `cfg` of 00_scope.md R7 as plain data: what an implementation, an
operating system and a platform fix for a run. It is a field of State, so that a statement about every state
holds for every configuration; no form writes it. -/

namespace Sys2Proof

/-- A vector length, of an instruction (VL) or of the implementation (MAXVL, 00_scope.md R5). -/
inductive VLen where
  | v128 | v256 | v512
  deriving DecidableEq, Repr

/-- The length in bits. -/
def VLen.bits : VLen → Nat
  | .v128 => 128
  | .v256 => 256
  | .v512 => 512

/-- The six CPUID feature flags of 00_scope.md R6 (reporting places: 10_state.md R35). -/
structure Cpuid where
  mmx      : Bool
  sse2     : Bool
  avx      : Bool
  avx2     : Bool
  avx512f  : Bool
  avx512vl : Bool
  deriving DecidableEq, Repr

/-- `cfg.vaBits`: implemented linear-address bits (20_memory.md R58). -/
inductive VaBits where
  | va48 | va57
  deriving DecidableEq, Repr

/-- The number of bits. -/
def VaBits.bits : VaBits → Nat
  | .va48 => 48
  | .va57 => 57

/-- `cfg.kWidth`: width of an opmask register (10_state.md R30). -/
inductive KWidth where
  | k16 | k64
  deriving DecidableEq, Repr

/-- The number of bits. -/
def KWidth.bits : KWidth → Nat
  | .k16 => 16
  | .k64 => 64

/-- The kind of an access asked of `cfg.admit` (20_memory.md R60). -/
inductive AccessKind where
  | read | fetch
  deriving DecidableEq, Repr

/-- What `cfg.admit` answers for one byte (20_memory.md R60), and the device memory that R63 keeps outside
its `ok` set. A page fault brings its whole error code (60_exceptions.md R191; log 8). -/
inductive Admission where
  | ok
  | pageFault (code : BitVec 32)
  | generalProtection
  | stackFault
  | device
  deriving DecidableEq, Repr

/-- One entry of the admission function: the answer for the addresses `lo` to `hi`, both included, and one
kind of access. -/
structure Region where
  lo     : Quad
  hi     : Quad
  kind   : AccessKind
  answer : Admission
  deriving DecidableEq, Repr

/-- What the launch says of the world around the one agent: another writer (20_memory.md R66, R69), an
interrupt source (60_exceptions.md R195, 93_implementation_defined.md U28), armed debug registers
(60_exceptions.md R199). A launch that has one of them is refused. -/
structure Environment where
  otherWriter : Bool
  asyncEvents : Bool
  debugArmed  : Bool
  deriving DecidableEq, Repr

/-- 00_scope.md R7. `cfg.os` and `cfg.alignCheck` are read from the control registers of State
(10_state.md R34, 60_exceptions.md R182); the segment bases and `cfg.x87pending` are fields of State. -/
structure Config where
  maxvl            : VLen
  cpuid            : Cpuid
  vaBits           : VaBits
  kWidth           : KWidth
  faultSuppression : Bool
  regions          : List Region
  codeBase         : Quad
  codeEnd          : Quad
  env              : Environment
  deriving DecidableEq, Repr

/-- The consistency 00_scope.md R6 requires of a configuration. -/
def Config.consistent (c : Config) : Bool :=
  (!(c.cpuid.avx || c.cpuid.avx2) || decide (256 ≤ c.maxvl.bits)) &&
  (!c.cpuid.avx512f || decide (c.maxvl = .v512)) &&
  (!c.cpuid.avx512vl || c.cpuid.avx512f) &&
  (!c.cpuid.avx2 || c.cpuid.avx) &&
  (!c.cpuid.avx || c.cpuid.sse2)

/-- `NV`, the number of vector registers (10_state.md R26). -/
def Config.vecCount (c : Config) : Nat := if c.cpuid.avx512f then 32 else 16

end Sys2Proof
end

