-- ==== Sys2Proof/Syntax.lean ====
section
/-! DEFINITION. The instructions: one constructor per row of opcode_table.json, holding the fields of the
encoding under the names 30_encoding.md gives them (R82 to R116). Fields that are stored inverted are held
un-inverted (R99, R100, R115). Nothing of an encoding is dropped: the bits the architecture ignores (REX.W,
VEX.W, an unused X) are kept and have no effect. -/

namespace Sys2Proof

/-- The segment of a segment-override byte (30_encoding.md R83, group 2). -/
inductive Seg where
  | es | cs | ss | ds | fs | gs
  deriving DecidableEq, Repr

/-- A legacy prefix byte (30_encoding.md R83), or a REX byte that is ignored because a legacy prefix byte or
another REX byte follows it (R88). -/
inductive Prefix where
  | lock
  | repne
  | rep
  | seg (s : Seg)
  | opSize
  | addrSize
  | rexIgnored (wrxb : BitVec 4)
  deriving DecidableEq, Repr

/-- The REX byte immediately before `0F` (30_encoding.md R88). -/
structure Rex where
  w : Bool
  r : Bool
  x : Bool
  b : Bool
  deriving DecidableEq, Repr

/-- A displacement (30_encoding.md R96). -/
inductive Disp where
  | none
  | disp8 (d : BitVec 8)
  | disp32 (d : BitVec 32)
  deriving DecidableEq, Repr

/-- The memory forms of ModRM and SIB (30_encoding.md R94, R95): `base` has no SIB byte, `rip` is
`mod = 00b, rm = 101b`, `sib` has a SIB byte with a base, `sibNoBase` is `mod = 00b, base = 101b`. -/
inductive Mem where
  | base (rm : BitVec 3) (d : Disp)
  | rip (d : BitVec 32)
  | sib (scale : BitVec 2) (index base : BitVec 3) (d : Disp)
  | sibNoBase (scale : BitVec 2) (index : BitVec 3) (d : BitVec 32)
  deriving DecidableEq, Repr

/-- The r/m operand: a register (`mod = 11b`) or a memory operand (30_encoding.md R92). -/
inductive Rm where
  | reg (rm : BitVec 3)
  | mem (m : Mem)
  deriving DecidableEq, Repr

/-- The 2-byte VEX payload that is not fixed by the row (30_encoding.md R99). -/
structure Vex2 where
  r    : Bool
  vvvv : BitVec 4
  deriving DecidableEq, Repr

/-- The 3-byte VEX payload that is not fixed by the row (30_encoding.md R100). -/
structure Vex3 where
  r    : Bool
  x    : Bool
  b    : Bool
  w    : Bool
  vvvv : BitVec 4
  deriving DecidableEq, Repr

/-- The EVEX payload that is not fixed by the row (30_encoding.md R106 to R108): `rHi` is R', `vHi` is V',
`bcast` is EVEX.b. -/
structure Evex where
  r     : Bool
  x     : Bool
  b     : Bool
  rHi   : Bool
  vvvv  : BitVec 4
  z     : Bool
  bcast : Bool
  vHi   : Bool
  aaa   : BitVec 3
  deriving DecidableEq, Repr

/-- The instructions, one constructor per row of opcode_table.json. `pre` is every prefix byte before the
REX, VEX or EVEX byte (or `0F`), in order. -/
inductive Instr where
  | pxorMm (pre : List Prefix) (rex : Option Rex) (reg : BitVec 3) (rm : Rm)
  | pxorXmm (pre : List Prefix) (rex : Option Rex) (reg : BitVec 3) (rm : Rm)
  | vpxorXmmVex2 (pre : List Prefix) (vex : Vex2) (reg : BitVec 3) (rm : Rm)
  | vpxorXmmVex3 (pre : List Prefix) (vex : Vex3) (reg : BitVec 3) (rm : Rm)
  | vpxorYmmVex2 (pre : List Prefix) (vex : Vex2) (reg : BitVec 3) (rm : Rm)
  | vpxorYmmVex3 (pre : List Prefix) (vex : Vex3) (reg : BitVec 3) (rm : Rm)
  | vpxordXmm (pre : List Prefix) (evex : Evex) (reg : BitVec 3) (rm : Rm)
  | vpxordYmm (pre : List Prefix) (evex : Evex) (reg : BitVec 3) (rm : Rm)
  | vpxordZmm (pre : List Prefix) (evex : Evex) (reg : BitVec 3) (rm : Rm)
  | vpxorqXmm (pre : List Prefix) (evex : Evex) (reg : BitVec 3) (rm : Rm)
  | vpxorqYmm (pre : List Prefix) (evex : Evex) (reg : BitVec 3) (rm : Rm)
  | vpxorqZmm (pre : List Prefix) (evex : Evex) (reg : BitVec 3) (rm : Rm)
  deriving DecidableEq, Repr

/-- The ten forms of 00_scope.md R2. -/
inductive Form where
  | f1 | f2 | f3 | f4 | f5 | f6 | f7 | f8 | f9 | f10
  deriving DecidableEq, Repr

/-- The form an instruction is an encoding of (30_encoding.md R120). -/
def Instr.form : Instr → Form
  | .pxorMm _ _ _ _ => .f1
  | .pxorXmm _ _ _ _ => .f2
  | .vpxorXmmVex2 _ _ _ _ => .f3
  | .vpxorXmmVex3 _ _ _ _ => .f3
  | .vpxorYmmVex2 _ _ _ _ => .f4
  | .vpxorYmmVex3 _ _ _ _ => .f4
  | .vpxordXmm _ _ _ _ => .f5
  | .vpxordYmm _ _ _ _ => .f6
  | .vpxordZmm _ _ _ _ => .f7
  | .vpxorqXmm _ _ _ _ => .f8
  | .vpxorqYmm _ _ _ _ => .f9
  | .vpxorqZmm _ _ _ _ => .f10

/-- The prefix bytes of an instruction. -/
def Instr.pre : Instr → List Prefix
  | .pxorMm p _ _ _ => p
  | .pxorXmm p _ _ _ => p
  | .vpxorXmmVex2 p _ _ _ => p
  | .vpxorXmmVex3 p _ _ _ => p
  | .vpxorYmmVex2 p _ _ _ => p
  | .vpxorYmmVex3 p _ _ _ => p
  | .vpxordXmm p _ _ _ => p
  | .vpxordYmm p _ _ _ => p
  | .vpxordZmm p _ _ _ => p
  | .vpxorqXmm p _ _ _ => p
  | .vpxorqYmm p _ _ _ => p
  | .vpxorqZmm p _ _ _ => p

/-- The r/m operand of an instruction. -/
def Instr.rm : Instr → Rm
  | .pxorMm _ _ _ m => m
  | .pxorXmm _ _ _ m => m
  | .vpxorXmmVex2 _ _ _ m => m
  | .vpxorXmmVex3 _ _ _ m => m
  | .vpxorYmmVex2 _ _ _ m => m
  | .vpxorYmmVex3 _ _ _ m => m
  | .vpxordXmm _ _ _ m => m
  | .vpxordYmm _ _ _ m => m
  | .vpxordZmm _ _ _ m => m
  | .vpxorqXmm _ _ _ m => m
  | .vpxorqYmm _ _ _ m => m
  | .vpxorqZmm _ _ _ m => m

/-- The three encodings of 30_encoding.md R80: legacy, VEX, EVEX. -/
inductive Layout where
  | legacy | vex | evex
  deriving DecidableEq, Repr

/-- The encoding a form uses. -/
def Form.layout : Form → Layout
  | .f1 => .legacy
  | .f2 => .legacy
  | .f3 => .vex
  | .f4 => .vex
  | .f5 => .evex
  | .f6 => .evex
  | .f7 => .evex
  | .f8 => .evex
  | .f9 => .evex
  | .f10 => .evex

end Sys2Proof
end

