-- ==== Sys2Proof/Machine/Length.lean ====
section
/-! DEFINITION. The length of an instruction in bytes (30_encoding.md R118). -/

namespace Sys2Proof

/-- `ndisp` of R118. -/
def Disp.bytes : Disp → Nat
  | .none => 0
  | .disp8 _ => 1
  | .disp32 _ => 4

/-- `nsib + ndisp` of R118, by the table of R94. -/
def Rm.tailBytes : Rm → Nat
  | .reg _ => 0
  | .mem (.base _ d) => d.bytes
  | .mem (.rip _) => 4
  | .mem (.sib _ _ _ d) => 1 + d.bytes
  | .mem (.sibNoBase _ _ _) => 5

/-- Length of a legacy form: `nesc` is 1, or 2 with a REX byte. -/
def legacyLen (pre : List Prefix) (rex : Option Rex) (rm : Rm) : Nat :=
  pre.length + (if rex.isSome then 2 else 1) + 1 + 1 + rm.tailBytes

/-- Length of a 2-byte VEX form. -/
def vex2Len (pre : List Prefix) (rm : Rm) : Nat := pre.length + 2 + 1 + 1 + rm.tailBytes

/-- Length of a 3-byte VEX form. -/
def vex3Len (pre : List Prefix) (rm : Rm) : Nat := pre.length + 3 + 1 + 1 + rm.tailBytes

/-- Length of an EVEX form. -/
def evexLen (pre : List Prefix) (rm : Rm) : Nat := pre.length + 4 + 1 + 1 + rm.tailBytes

/-- `ilen` of R118. -/
def Instr.ilen : Instr → Nat
  | .pxorMm pre rex _ rm => legacyLen pre rex rm
  | .pxorXmm pre rex _ rm => legacyLen pre rex rm
  | .vpxorXmmVex2 pre _ _ rm => vex2Len pre rm
  | .vpxorXmmVex3 pre _ _ rm => vex3Len pre rm
  | .vpxorYmmVex2 pre _ _ rm => vex2Len pre rm
  | .vpxorYmmVex3 pre _ _ rm => vex3Len pre rm
  | .vpxordXmm pre _ _ rm => evexLen pre rm
  | .vpxordYmm pre _ _ rm => evexLen pre rm
  | .vpxordZmm pre _ _ rm => evexLen pre rm
  | .vpxorqXmm pre _ _ rm => evexLen pre rm
  | .vpxorqYmm pre _ _ rm => evexLen pre rm
  | .vpxorqZmm pre _ _ rm => evexLen pre rm

end Sys2Proof
end

