-- ==== Sys2Proof/WellFormed.lean ====
section
/-! DEFINITION. The checks an instruction must pass to be an encoding that executes (30_encoding.md R87 to
R121). The decoder answers only instructions that pass them. -/

namespace Sys2Proof

/-- How many segment-override bytes stand among the prefixes. -/
def segCount : List Prefix → Nat
  | [] => 0
  | .seg _ :: t => segCount t + 1
  | _ :: t => segCount t

/-- The prefixes end in a REX byte that was ignored: then the next byte must be another REX byte (R88). -/
def endsInRex : List Prefix → Bool
  | [] => false
  | [.rexIgnored _] => true
  | _ :: t => endsInRex t

/-- No LOCK, REPNE or REP byte (R87). -/
def noLockRep (pre : List Prefix) : Bool :=
  !pre.contains .lock && !pre.contains .repne && !pre.contains .rep

/-- The prefixes of a legacy form, `need66` saying whether 66 must stand among them (R87, R90). -/
def legacyPreOk (need66 : Bool) (pre : List Prefix) (rex : Option Rex) : Bool :=
  noLockRep pre && (pre.contains .opSize == need66) && decide (segCount pre ≤ 1) &&
    (!endsInRex pre || rex.isSome)

/-- The prefixes of a VEX or EVEX form: none of 66, F2, F3, F0, and no REX byte directly before it
(R103, R105). -/
def vexPreOk (pre : List Prefix) : Bool :=
  noLockRep pre && !pre.contains .opSize && decide (segCount pre ≤ 1) && !endsInRex pre

/-- A memory operand that ModRM and SIB can say (R94, R95). -/
def Mem.wf : Mem → Bool
  | .base rm d => rm != 4#3 && !(rm == 5#3 && d == .none)
  | .rip _ => true
  | .sib _ _ b d => !(b == 5#3 && d == .none)
  | .sibNoBase _ _ _ => true

/-- An r/m operand that ModRM and SIB can say. -/
def Rm.wf : Rm → Bool
  | .reg _ => true
  | .mem m => m.wf

/-- `z = 1` needs a writemask (R113) and `b = 1` needs a memory operand (R114). -/
def Evex.wf (e : Evex) (rm : Rm) : Bool :=
  (!e.z || e.aaa != 0#3) &&
    (!e.bcast || (match rm with | .reg _ => false | .mem _ => true))

/-- Every check but the length. -/
def Instr.wfBody : Instr → Bool
  | .pxorMm pre rex _ rm => legacyPreOk false pre rex && rm.wf
  | .pxorXmm pre rex _ rm => legacyPreOk true pre rex && rm.wf
  | .vpxorXmmVex2 pre _ _ rm => vexPreOk pre && rm.wf
  | .vpxorXmmVex3 pre _ _ rm => vexPreOk pre && rm.wf
  | .vpxorYmmVex2 pre _ _ rm => vexPreOk pre && rm.wf
  | .vpxorYmmVex3 pre _ _ rm => vexPreOk pre && rm.wf
  | .vpxordXmm pre e _ rm => vexPreOk pre && rm.wf && e.wf rm
  | .vpxordYmm pre e _ rm => vexPreOk pre && rm.wf && e.wf rm
  | .vpxordZmm pre e _ rm => vexPreOk pre && rm.wf && e.wf rm
  | .vpxorqXmm pre e _ rm => vexPreOk pre && rm.wf && e.wf rm
  | .vpxorqYmm pre e _ rm => vexPreOk pre && rm.wf && e.wf rm
  | .vpxorqZmm pre e _ rm => vexPreOk pre && rm.wf && e.wf rm

/-- Well-formed: every check, and at most 15 bytes (R119). -/
def Instr.wf (i : Instr) : Bool := i.wfBody && decide (i.ilen ≤ 15)

end Sys2Proof
end

