-- ==== Sys2Proof/Decode.lean ====
section
/-! DEFINITION. The decode procedure of 30_encoding.md R126 on a list of bytes, and the encoder. -/

namespace Sys2Proof

/-! ## Prefix scan: step (1) -/

/-- The legacy prefix a byte is (R83). -/
def prefixOf (b : Byte) : Option Prefix :=
  if b = 0xF0#8 then some .lock
  else if b = 0xF2#8 then some .repne
  else if b = 0xF3#8 then some .rep
  else if b = 0x2E#8 then some (.seg .cs)
  else if b = 0x36#8 then some (.seg .ss)
  else if b = 0x3E#8 then some (.seg .ds)
  else if b = 0x26#8 then some (.seg .es)
  else if b = 0x64#8 then some (.seg .fs)
  else if b = 0x65#8 then some (.seg .gs)
  else if b = 0x66#8 then some .opSize
  else if b = 0x67#8 then some .addrSize
  else none

/-- The byte of a prefix (R83, R88). -/
def Prefix.byte : Prefix → Byte
  | .lock => 0xF0#8
  | .repne => 0xF2#8
  | .rep => 0xF3#8
  | .seg .cs => 0x2E#8
  | .seg .ss => 0x36#8
  | .seg .ds => 0x3E#8
  | .seg .es => 0x26#8
  | .seg .fs => 0x64#8
  | .seg .gs => 0x65#8
  | .opSize => 0x66#8
  | .addrSize => 0x67#8
  | .rexIgnored wrxb => 0x4#4 ++ wrxb

/-- A byte 40 to 4F (R88). -/
def isRex (b : Byte) : Bool := b.extractLsb' 4 4 == 0x4#4

/-- Scan the prefixes, an ignored REX byte among them (R83, R88). `none`: the bytes ran out. -/
def scanPrefixes : List Byte → Option (List Prefix × List Byte)
  | [] => none
  | b :: rest =>
    match prefixOf b with
    | some p => (scanPrefixes rest).map fun q => (p :: q.1, q.2)
    | none =>
      if isRex b then
        match rest.head? with
        | none => none
        | some c =>
          if (prefixOf c).isSome || isRex c then
            (scanPrefixes rest).map fun q => (.rexIgnored (b.extractLsb' 0 4) :: q.1, q.2)
          else some ([], b :: rest)
      else some ([], b :: rest)

/-! ## ModRM, SIB, displacement: step (4) -/

/-- Four little-endian bytes (R96, 20_memory.md R52). -/
def takeDisp32 : List Byte → Option (BitVec 32 × List Byte)
  | b0 :: b1 :: b2 :: b3 :: t => some (b3 ++ b2 ++ b1 ++ b0, t)
  | _ => none

/-- The displacement that `mod` calls for when no special case of R94 applies. -/
def takeDisp (mod : BitVec 2) (bs : List Byte) : Option (Disp × List Byte) :=
  if mod = 1#2 then
    match bs with
    | [] => none
    | b :: t => some (.disp8 b, t)
  else if mod = 2#2 then (takeDisp32 bs).map fun q => (.disp32 q.1, q.2)
  else some (.none, bs)

/-- The memory operand of `mod` and `rm`, `mod` not 11b (R94, R95). -/
def takeMem (mod : BitVec 2) (rm : BitVec 3) (bs : List Byte) : Option (Mem × List Byte) :=
  if rm = 4#3 then
    match bs with
    | [] => none
    | sib :: t =>
      if mod = 0#2 ∧ sib.extractLsb' 0 3 = 5#3 then
        (takeDisp32 t).map fun q =>
          (.sibNoBase (sib.extractLsb' 6 2) (sib.extractLsb' 3 3) q.1, q.2)
      else
        (takeDisp mod t).map fun q =>
          (.sib (sib.extractLsb' 6 2) (sib.extractLsb' 3 3) (sib.extractLsb' 0 3) q.1, q.2)
  else if mod = 0#2 ∧ rm = 5#3 then
    (takeDisp32 bs).map fun q => (.rip q.1, q.2)
  else
    (takeDisp mod bs).map fun q => (.base rm q.1, q.2)

/-- ModRM and what follows it: the `reg` field, the r/m operand and the bytes left (R92). -/
def takeRm : List Byte → Option (BitVec 3 × Rm × List Byte)
  | [] => none
  | m :: t =>
    if m.extractLsb' 6 2 = 3#2 then some (m.extractLsb' 3 3, .reg (m.extractLsb' 0 3), t)
    else (takeMem (m.extractLsb' 6 2) (m.extractLsb' 0 3) t).map fun q =>
      (m.extractLsb' 3 3, .mem q.1, q.2)

/-! ## REX, VEX, EVEX and the opcode: steps (2) and (3) -/

/-- What stands after the prefixes, matched against the rows of R120. The EVEX case carries `W`, `L'L` and
whether its reserved bits (P0 bits 3:2, P1 bit 2) are as R109 requires. -/
inductive Body where
  | legacy (rex : Option Rex) (reg : BitVec 3) (rm : Rm)
  | vex2 (l : Bool) (v : Vex2) (reg : BitVec 3) (rm : Rm)
  | vex3 (l : Bool) (v : Vex3) (reg : BitVec 3) (rm : Rm)
  | evex (reservedOk w : Bool) (ll : BitVec 2) (e : Evex) (reg : BitVec 3) (rm : Rm)
  deriving DecidableEq, Repr

/-- Outcome of steps (2) to (4): a body, more bytes needed, or no row and no family pattern (R124). -/
inductive BodyParse where
  | body (b : Body) (rest : List Byte)
  | more
  | other
  deriving DecidableEq, Repr

/-- Step (4) after an opcode byte that matched. -/
def bodyWithRm (k : BitVec 3 → Rm → Body) (bs : List Byte) : BodyParse :=
  match takeRm bs with
  | none => .more
  | some q => .body (k q.1 q.2.1) q.2.2

/-- The fields of a REX byte (R88). -/
def rexOf (b : Byte) : Rex :=
  { w := b.getLsbD 3, r := b.getLsbD 2, x := b.getLsbD 1, b := b.getLsbD 0 }

/-- After `0F`: the opcode byte EF (R82). -/
def parseLegacy (rex : Option Rex) : List Byte → BodyParse
  | [] => .more
  | op :: t => if op = 0xEF#8 then bodyWithRm (.legacy rex) t else .other

/-- The fields of the 2-byte VEX payload (R99). -/
def vex2Of (p0 : Byte) : Vex2 := { r := !p0.getLsbD 7, vvvv := ~~~(p0.extractLsb' 3 4) }

/-- After `C5` (R98, R99, R102). -/
def parseVex2 : List Byte → BodyParse
  | p0 :: op :: t =>
    if op = 0xEF#8 ∧ p0.extractLsb' 0 2 = 1#2 then
      bodyWithRm (.vex2 (p0.getLsbD 2) (vex2Of p0)) t
    else .other
  | _ => .more

/-- The fields of the 3-byte VEX payload (R100). -/
def vex3Of (p0 p1 : Byte) : Vex3 :=
  { r := !p0.getLsbD 7, x := !p0.getLsbD 6, b := !p0.getLsbD 5, w := p1.getLsbD 7,
    vvvv := ~~~(p1.extractLsb' 3 4) }

/-- After `C4` (R98, R100, R102). -/
def parseVex3 : List Byte → BodyParse
  | p0 :: p1 :: op :: t =>
    if op = 0xEF#8 ∧ p0.extractLsb' 0 5 = 1#5 ∧ p1.extractLsb' 0 2 = 1#2 then
      bodyWithRm (.vex3 (p1.getLsbD 2) (vex3Of p0 p1)) t
    else .other
  | _ => .more

/-- The fields of the EVEX payload (R106 to R108). -/
def evexOf (p0 p1 p2 : Byte) : Evex :=
  { r := !p0.getLsbD 7, x := !p0.getLsbD 6, b := !p0.getLsbD 5, rHi := !p0.getLsbD 4,
    vvvv := ~~~(p1.extractLsb' 3 4), z := p2.getLsbD 7, bcast := p2.getLsbD 4,
    vHi := !p2.getLsbD 3, aaa := p2.extractLsb' 0 3 }

/-- The reserved bits are as R109 requires: P0 bits 3:2 are 00b and P1 bit 2 is 1. -/
def evexReservedOk (p0 p1 : Byte) : Bool := p0.extractLsb' 2 2 == 0#2 && p1.getLsbD 2

/-- After `62`: the family pattern of R120 is `mm = 01b`, `pp = 01b`, opcode EF. -/
def parseEvex : List Byte → BodyParse
  | p0 :: p1 :: p2 :: op :: t =>
    if op = 0xEF#8 ∧ p0.extractLsb' 0 2 = 1#2 ∧ p1.extractLsb' 0 2 = 1#2 then
      bodyWithRm (.evex (evexReservedOk p0 p1) (p1.getLsbD 7) (p2.extractLsb' 5 2) (evexOf p0 p1 p2)) t
    else .other
  | _ => .more

/-- After the prefixes and no REX byte: `0F`, `C5`, `C4` or `62` selects the layout (step (2)). -/
def parseVexStart (b : Byte) (t : List Byte) : BodyParse :=
  if b = 0xC5#8 then parseVex2 t
  else if b = 0xC4#8 then parseVex3 t
  else if b = 0x62#8 then parseEvex t
  else .other

/-- Step (2): the answer says, beside the body, whether a REX byte stood directly before a VEX or EVEX
prefix. -/
def parseBody : List Byte → Bool × BodyParse
  | [] => (false, .more)
  | b :: t =>
    if b = 0x0F#8 then (false, parseLegacy none t)
    else if isRex b then
      match t with
      | [] => (false, .more)
      | c :: u =>
        if c = 0x0F#8 then (false, parseLegacy (some (rexOf b)) u)
        else (true, parseVexStart c u)
    else (false, parseVexStart b t)

/-! ## Length and the encoding rows: steps (4) and (5) -/

/-- Length of a body in bytes (R118). -/
def Body.len : Body → Nat
  | .legacy rex _ rm => legacyLen [] rex rm
  | .vex2 _ _ _ rm => vex2Len [] rm
  | .vex3 _ _ _ rm => vex3Len [] rm
  | .evex _ _ _ _ _ rm => evexLen [] rm

/-- Rows 1 to 3 of R121: a prefix that makes the instruction raise #UD. -/
def badPrefix (pre : List Prefix) (rexBefore : Bool) : Body → Bool
  | .legacy _ _ _ => !noLockRep pre
  | _ => !noLockRep pre || pre.contains .opSize || rexBefore

/-- The instruction of a body; `none` where rows 4 to 7 of R121 give #UD. -/
def Body.toInstr (pre : List Prefix) : Body → Option Instr
  | .legacy rex reg rm =>
    if pre.contains .opSize then some (.pxorXmm pre rex reg rm) else some (.pxorMm pre rex reg rm)
  | .vex2 l v reg rm =>
    if l then some (.vpxorYmmVex2 pre v reg rm) else some (.vpxorXmmVex2 pre v reg rm)
  | .vex3 l v reg rm =>
    if l then some (.vpxorYmmVex3 pre v reg rm) else some (.vpxorXmmVex3 pre v reg rm)
  | .evex ok w ll e reg rm =>
    if ok && e.wf rm then
      if ll = 0#2 then some (if w then .vpxorqXmm pre e reg rm else .vpxordXmm pre e reg rm)
      else if ll = 1#2 then some (if w then .vpxorqYmm pre e reg rm else .vpxordYmm pre e reg rm)
      else if ll = 2#2 then some (if w then .vpxorqZmm pre e reg rm else .vpxordZmm pre e reg rm)
      else none
    else none

/-- What the decoder answers. -/
inductive Decoded where
  /-- One of the ten forms with its fields. -/
  | instr (i : Instr)
  /-- Row 10 of R121: more than 15 bytes, #GP(0). -/
  | tooLong
  /-- Rows 1 to 7 of R121: #UD. -/
  | invalid
  /-- R124: none of the ten forms, refused. -/
  | notThisSpec
  /-- Row 12 of R121: two or more segment overrides, refused. -/
  | segOverrides
  /-- The bytes given do not reach the end of the instruction. -/
  | more
  deriving DecidableEq, Repr

/-- The length check, then rows 1 to 7, then row 12 (R126 steps (4) and (5); log 10). DESIGN CHOICE: a REX byte
directly before a VEX or EVEX prefix, for which the sum of R118 has no term, counts toward the 15 bytes (log 16). -/
def finish (pre : List Prefix) (rexBefore : Bool) (b : Body) : Decoded :=
  if 15 < pre.length + (if rexBefore then 1 else 0) + b.len then .tooLong
  else if badPrefix pre rexBefore b then .invalid
  else
    match b.toInstr pre with
    | none => .invalid
    | some i => if 2 ≤ segCount pre then .segOverrides else .instr i

/-- The decoder (R126), total on any bytes (R124). -/
def decode (bs : List Byte) : Decoded :=
  match scanPrefixes bs with
  | none => .more
  | some q =>
    match parseBody q.2 with
    | (_, .more) => .more
    | (_, .other) => .notThisSpec
    | (rexBefore, .body b _) => finish q.1 rexBefore b

/-! ## The encoder -/

/-- One byte from eight bits, the most significant first. -/
def byteOfBits (b7 b6 b5 b4 b3 b2 b1 b0 : Bool) : Byte :=
  BitVec.ofBool b7 ++ BitVec.ofBool b6 ++ BitVec.ofBool b5 ++ BitVec.ofBool b4 ++
    BitVec.ofBool b3 ++ BitVec.ofBool b2 ++ BitVec.ofBool b1 ++ BitVec.ofBool b0

/-- The REX byte `0100WRXB` (R88). -/
def Rex.byte (r : Rex) : Byte := byteOfBits false true false false r.w r.r r.x r.b

/-- The four bytes of a 32-bit displacement, little-endian (R96). -/
def disp32Bytes (d : BitVec 32) : List Byte :=
  [d.extractLsb' 0 8, d.extractLsb' 8 8, d.extractLsb' 16 8, d.extractLsb' 24 8]

/-- The displacement bytes. -/
def Disp.encode : Disp → List Byte
  | .none => []
  | .disp8 d => [d]
  | .disp32 d => disp32Bytes d

/-- The `mod` field that announces a displacement (R94). -/
def Disp.mod : Disp → BitVec 2
  | .none => 0#2
  | .disp8 _ => 1#2
  | .disp32 _ => 2#2

/-- ModRM (R92). -/
def modRmByte (mod : BitVec 2) (reg rm : BitVec 3) : Byte := mod ++ reg ++ rm

/-- SIB (R95). -/
def sibByte (scale : BitVec 2) (index base : BitVec 3) : Byte := scale ++ index ++ base

/-- ModRM, SIB and displacement (R94). -/
def rmBytes (reg : BitVec 3) : Rm → List Byte
  | .reg rm => [modRmByte 3#2 reg rm]
  | .mem (.base rm d) => modRmByte d.mod reg rm :: d.encode
  | .mem (.rip d) => modRmByte 0#2 reg 5#3 :: disp32Bytes d
  | .mem (.sib scale index base d) =>
    modRmByte d.mod reg 4#3 :: sibByte scale index base :: d.encode
  | .mem (.sibNoBase scale index d) =>
    modRmByte 0#2 reg 4#3 :: sibByte scale index 5#3 :: disp32Bytes d

/-- The prefix bytes. -/
def preBytes (pre : List Prefix) : List Byte := pre.map Prefix.byte

/-- The REX byte, if there is one, and `0F EF` (R82). -/
def legacyHead (rex : Option Rex) : List Byte :=
  match rex with
  | none => [0x0F#8, 0xEF#8]
  | some r => [r.byte, 0x0F#8, 0xEF#8]

/-- `C5 P0 EF` with `L` as given and `pp = 01b` (R99, R120). -/
def vex2Head (l : Bool) (v : Vex2) : List Byte :=
  [0xC5#8, BitVec.ofBool (!v.r) ++ ~~~v.vvvv ++ BitVec.ofBool l ++ 1#2, 0xEF#8]

/-- `C4 P0 P1 EF` with `mmmmm = 00001b`, `L` as given and `pp = 01b` (R100, R120). -/
def vex3Head (l : Bool) (v : Vex3) : List Byte :=
  [0xC4#8, BitVec.ofBool (!v.r) ++ BitVec.ofBool (!v.x) ++ BitVec.ofBool (!v.b) ++ 1#5,
    BitVec.ofBool v.w ++ ~~~v.vvvv ++ BitVec.ofBool l ++ 1#2, 0xEF#8]

/-- `62 P0 P1 P2 EF` with `mm = 01b`, `pp = 01b`, the reserved bits as R109 requires, and `W` and `L'L` as
given (R106 to R108, R120). -/
def evexHead (w : Bool) (ll : BitVec 2) (e : Evex) : List Byte :=
  [0x62#8,
    BitVec.ofBool (!e.r) ++ BitVec.ofBool (!e.x) ++ BitVec.ofBool (!e.b) ++ BitVec.ofBool (!e.rHi) ++ 1#4,
    BitVec.ofBool w ++ ~~~e.vvvv ++ 5#3,
    BitVec.ofBool e.z ++ ll ++ BitVec.ofBool e.bcast ++ BitVec.ofBool (!e.vHi) ++ e.aaa,
    0xEF#8]

/-- The bytes of an instruction, in address order. -/
def encode : Instr → List Byte
  | .pxorMm pre rex reg rm => preBytes pre ++ legacyHead rex ++ rmBytes reg rm
  | .pxorXmm pre rex reg rm => preBytes pre ++ legacyHead rex ++ rmBytes reg rm
  | .vpxorXmmVex2 pre v reg rm => preBytes pre ++ vex2Head false v ++ rmBytes reg rm
  | .vpxorXmmVex3 pre v reg rm => preBytes pre ++ vex3Head false v ++ rmBytes reg rm
  | .vpxorYmmVex2 pre v reg rm => preBytes pre ++ vex2Head true v ++ rmBytes reg rm
  | .vpxorYmmVex3 pre v reg rm => preBytes pre ++ vex3Head true v ++ rmBytes reg rm
  | .vpxordXmm pre e reg rm => preBytes pre ++ evexHead false 0#2 e ++ rmBytes reg rm
  | .vpxordYmm pre e reg rm => preBytes pre ++ evexHead false 1#2 e ++ rmBytes reg rm
  | .vpxordZmm pre e reg rm => preBytes pre ++ evexHead false 2#2 e ++ rmBytes reg rm
  | .vpxorqXmm pre e reg rm => preBytes pre ++ evexHead true 0#2 e ++ rmBytes reg rm
  | .vpxorqYmm pre e reg rm => preBytes pre ++ evexHead true 1#2 e ++ rmBytes reg rm
  | .vpxorqZmm pre e reg rm => preBytes pre ++ evexHead true 2#2 e ++ rmBytes reg rm

/-! ## The words of opcode_table.json -/

/-- Longest instruction in bytes (R119). -/
def maxLen : Nat := 15

/-- The `n` low bytes of `w`, the most significant first. -/
def bytesMsb (w : Nat) : Nat → List Byte
  | 0 => []
  | n + 1 => BitVec.ofNat 8 (w >>> (8 * n)) :: bytesMsb w n

/-- The `n` low bytes of `w`, the least significant first. -/
def bytesLsb (w : Nat) : Nat → List Byte
  | 0 => []
  | n + 1 => BitVec.ofNat 8 w :: bytesLsb (w >>> 8) n

/-- Fill up to the longest instruction with zero bytes. -/
def padBytes (bs : List Byte) : List Byte := bs ++ List.replicate (maxLen - bs.length) 0#8

/-- The decoder's instruction, if it answers one. -/
def Decoded.instr? : Decoded → Option Instr
  | .instr i => some i
  | _ => none

/-- The bytes of a table word, in address order. opcode_table.json's `fixed` numbers a row with its first
byte the MOST significant (F1: 0F EF in bits 23 to 8, ModRM in bits 7 to 0), so the word is laid out that
way; only where those bytes are no instruction and the opposite order is one, the opposite order is taken
(log 14). -/
def tableBytes (nbits w : Nat) : List Byte :=
  let hi := padBytes (bytesMsb w (nbits / 8))
  let lo := padBytes (bytesLsb w (nbits / 8))
  if (decode hi).instr?.isNone && (decode lo).instr?.isSome then lo else hi

/-- The instruction the decoder reads from a word of opcode_table.json, `nbits` bits long. -/
def decodeTableWord (nbits w : Nat) : Option Instr := (decode (tableBytes nbits w)).instr?

end Sys2Proof
end

