-- ==== Sys2Proof/Machine/State.lean ====
section
/-! DEFINITION. The state of the machine as plain data (10_state.md), its faults and refusals, and the state
after reset (R40). -/

namespace Sys2Proof.Machine

/-- The faults of 60_exceptions.md R178, each with what R191 says it carries: the pc of the faulting
instruction and, for a memory fault, a linear address. A fault is terminal and changes no state (R190). Each
is the fault the spec names; where the hardware would go on to a handler the model stops (safe). -/
inductive Fault where
  /-- #UD, vector 6: encoding rows 1 to 7 of R121, a feature flag that is false (R172), an enable that is off
  (R173 to R175). Raised by the fetch and by every form. Safe. -/
  | ud (pc : Quad)
  /-- #NM, vector 7: CR0.TS = 1 (R176). Raised by every form. Safe. -/
  | nm (pc : Quad)
  /-- #MF, vector 16: a pending x87 exception (R181). Raised by form F1. Safe. -/
  | mf (pc : Quad)
  /-- #SS(0), vector 12: a non-canonical operand byte of the stack-segment class (R180), or an admission
  answer (20_memory.md R60). Raised by memory operands. Safe. -/
  | ss (addr pc : Quad)
  /-- #GP(0), vector 13: a length over 15 bytes (R119, no address), a non-canonical byte fetched or read
  (R185, R58), a misaligned operand of F2 (R59), or an admission answer. Raised by the fetch and by memory
  operands. Safe. -/
  | gp (addr : Option Quad) (pc : Quad)
  /-- #PF(code), vector 14, with the first inadmissible byte's address (R60, R183). Raised by the fetch and by
  memory operands. Safe. -/
  | pf (code : BitVec 32) (addr pc : Quad)
  /-- #AC(0), vector 17: a misaligned memory operand of F1 under alignment checking (R182). Safe. -/
  | ac (addr pc : Quad)
  deriving DecidableEq, Repr

/-- What the model gives no meaning to. Each is a refusal the spec itself asks for; none answers a step that
the spec completes or faults (safe). -/
inductive Refusal where
  /-- An instruction without a meaning yet; raised by exec's arm only. Safe. -/
  | notModelled (mnemonic : String)
  /-- The bytes are none of the ten forms (30_encoding.md R124). Raised by the fetch. Safe. -/
  | notThisSpec
  /-- Two or more segment-override bytes (30_encoding.md R87). Raised by the fetch. Safe. -/
  | segOverrides
  /-- A mode other than 64-bit mode (00_scope.md R4). Raised by the step. Safe. -/
  | notMode64
  /-- The run is over in a final state, `pc = cfg.codeEnd` (70_reset_and_hazards.md R213). Raised by the step.
  Safe. -/
  | runFinal
  /-- Another agent writes registers or memory (20_memory.md R66, R62, R69). Raised by the step. Safe. -/
  | otherWriter
  /-- An interrupt source (93_implementation_defined.md U28). Raised by the step. Safe. -/
  | asyncEvents
  /-- Debug registers armed (60_exceptions.md R199). Raised by the step. Safe. -/
  | debugArmed
  /-- An operand or code byte in device memory (20_memory.md R63). Safe. -/
  | deviceMemory (addr : Quad)
  /-- The mask hides an inadmissible byte and fault suppression is off (20_memory.md R61). Safe. -/
  | maskedInadmissible
  /-- F3 to F10 under alignment checking with an operand not aligned to its size (60_exceptions.md R182).
  Safe. -/
  | alignCheckOpen
  /-- `pc + ilen` wraps or is not canonical (10_state.md R24). Raised where a step would complete. Safe. -/
  | pcOutOfRange
  deriving DecidableEq, Repr

/-- The operating modes of 60_exceptions.md R198. The model runs in 64-bit mode only. -/
inductive Mode where
  | realAddress | protectedMode | virtual8086 | compatibility | mode64 | systemManagement
  deriving DecidableEq, Repr

/-- The x87 fields of 10_state.md R33, and the pending-exception bit of 60_exceptions.md R181. Bits 63:0 of a
physical register are the MMX register of its number (R29), held once, in `State.mm`. -/
structure X87 where
  top     : BitVec 3
  tag     : Vector (BitVec 2) 8
  hi      : Vector (BitVec 16) 8
  pending : Bool
  deriving DecidableEq, Repr

/-- The segment bases (10_state.md R37). -/
structure SegBases where
  cs : Quad
  ds : Quad
  es : Quad
  ss : Quad
  fs : Quad
  gs : Quad
  deriving DecidableEq, Repr

/-- Memory: the listed bytes of the one linear address space (10_state.md R36), in canonical form: addresses
strictly rising, no entry equal to what an unlisted address reads as. -/
abbrev Memory := List Host.Cell

/-- What an unlisted address reads as. DESIGN CHOICE (unsafe for a statement about the reset state only):
R40 leaves memory unspecified (log 5). -/
def unlistedByte : Byte := 0#8

/-- The state of the machine (10_state.md R20, with the registers R25, R31, R34, R37 and R40 name). -/
structure State where
  /-- General registers, numbered as R21. -/
  gpr    : Vector Quad 16
  /-- RIP (R23). -/
  pc     : Quad
  /-- Vector registers, 512-bit containers of MAXVL bits (R26). -/
  vec    : Vector VecWord 32
  /-- MMX registers (R29). -/
  mm     : Vector Quad 8
  /-- x87 fields (R33). -/
  x87    : X87
  /-- Opmask registers, 64-bit containers of kWidth bits (R30). -/
  k      : Vector Quad 8
  /-- RFLAGS (R25). -/
  rflags : BitVec 64
  /-- MXCSR (R31). -/
  mxcsr  : BitVec 32
  /-- CR0 (R34). -/
  cr0    : BitVec 64
  /-- CR4 (R34). -/
  cr4    : BitVec 64
  /-- XCR0 (R34). -/
  xcr0   : BitVec 64
  /-- Current privilege level (60_exceptions.md R182, R198). -/
  cpl    : BitVec 2
  /-- Operating mode (60_exceptions.md R198). -/
  mode   : Mode
  /-- Segment bases (R37). -/
  segs   : SegBases
  /-- Memory (R36). -/
  mem    : Memory
  /-- The configuration (00_scope.md R7). -/
  cfg    : Config
  deriving DecidableEq, Repr

/-- The configuration of the reset state: every extension, 512-bit registers, one flat admitted space and no
program. DESIGN CHOICE (unsafe for a statement about the reset state only): the spec leaves every parameter
open (log 6, log 7). -/
def configAtReset : Config :=
  { maxvl := .v512
    cpuid := { mmx := true, sse2 := true, avx := true, avx2 := true, avx512f := true, avx512vl := true }
    vaBits := .va48
    kWidth := .k64
    faultSuppression := false
    regions := [{ lo := 0#64, hi := BitVec.allOnes 64, kind := .read, answer := .ok },
      { lo := 0#64, hi := BitVec.allOnes 64, kind := .fetch, answer := .ok }]
    codeBase := 0#64
    codeEnd := 0#64
    env := { otherWriter := false, asyncEvents := false, debugArmed := false } }

/-- The machine after power-up or RESET: the column of 10_state.md R40. The values R40 does not give are named
in log 2 (gpr[2], pending, cpl, the bases but CS) and log 5 to log 7 (memory, configuration). -/
def State.reset : State :=
  { gpr := Vector.replicate 16 0#64
    pc := 0xFFF0#64
    vec := Vector.replicate 32 0#512
    mm := Vector.replicate 8 0#64
    x87 := { top := 0#3, tag := Vector.replicate 8 1#2, hi := Vector.replicate 8 0#16, pending := false }
    k := Vector.replicate 8 0#64
    rflags := 0x2#64
    mxcsr := 0x1F80#32
    cr0 := 0x60000010#64
    cr4 := 0#64
    xcr0 := 1#64
    cpl := 0#2
    mode := .realAddress
    segs := { cs := 0xFFFF0000#64, ds := 0#64, es := 0#64, ss := 0#64, fs := 0#64, gs := 0#64 }
    mem := []
    cfg := configAtReset }

end Sys2Proof.Machine
end

