-- ==== Sys2Proof/Machine/Flags.lean ====
section
/-! DEFINITION. The status and control bits the forms read, by the positions of 10_state.md R34 and R25. No
form computes or writes a flag ("Flags Affected: None.", R25) or an MXCSR bit (R31), so this file holds no
flag computation. -/

namespace Sys2Proof.Machine

/-- CR0.EM (R34). -/
def cr0EM (s : State) : Bool := s.cr0.getLsbD 2

/-- CR0.TS (R34). -/
def cr0TS (s : State) : Bool := s.cr0.getLsbD 3

/-- CR0.AM (R34). -/
def cr0AM (s : State) : Bool := s.cr0.getLsbD 18

/-- CR4.OSFXSR (R34). -/
def cr4OSFXSR (s : State) : Bool := s.cr4.getLsbD 9

/-- CR4.OSXSAVE (R34). -/
def cr4OSXSAVE (s : State) : Bool := s.cr4.getLsbD 18

/-- `XCR0[2:1] = 11b` (R34). -/
def xcr0Avx (s : State) : Bool := s.xcr0.getLsbD 1 && s.xcr0.getLsbD 2

/-- `XCR0[7:5] = 111b` (R34). -/
def xcr0Avx512 (s : State) : Bool := s.xcr0.getLsbD 5 && s.xcr0.getLsbD 6 && s.xcr0.getLsbD 7

/-- RFLAGS.AC (R25). -/
def rflagsAC (s : State) : Bool := s.rflags.getLsbD 18

/-- `cfg.alignCheck` (60_exceptions.md R182). -/
def alignCheck (s : State) : Bool := cr0AM s && rflagsAC s && s.cpl == 3#2

end Sys2Proof.Machine
end

