-- ==== Sys2Proof/Machine/Ops.lean ====
section
/-! DEFINITION. The named operations over registers and memory, the admission function, taking an exception,
and completing a step. -/

namespace Sys2Proof.Machine

/-! ## Registers -/

/-- `gpr[r]` (10_state.md R21). -/
def gprAt (s : State) (r : BitVec 4) : Quad := s.gpr.get r.toFin

/-- `mm[r]` (R29). -/
def mmAt (s : State) (r : BitVec 3) : Quad := s.mm.get r.toFin

/-- `vec[r]` (R26). -/
def vecAt (s : State) (r : BitVec 5) : VecWord := s.vec.get r.toFin

/-- `k[r]` (R30). -/
def kAt (s : State) (r : BitVec 3) : Quad := s.k.get r.toFin

/-- The x87 physical data register `R_r`, 80 bits: `mm[r]` is its bits 63:0 (R29, R32). -/
def x87RegAt (s : State) (r : BitVec 3) : BitVec 80 := s.x87.hi.get r.toFin ++ mmAt s r

/-- Write all of `vec[r]`. -/
def setVec (s : State) (r : BitVec 5) (v : VecWord) : State :=
  { s with vec := s.vec.set r.toFin v }

/-- Write `mm[r]` with the x87 side effects of a completed F1 (R32 (a) to (c)). -/
def setMm (s : State) (r : BitVec 3) (v : Quad) : State :=
  { s with
    mm := s.mm.set r.toFin v
    x87 := { s.x87 with
      top := 0#3
      tag := Vector.replicate 8 0#2
      hi := s.x87.hi.set r.toFin 0xFFFF#16 } }

/-- The low `vl` bits of a vector, zero above. -/
def lowBits (vl : VLen) (v : VecWord) : VecWord := (v.extractLsb' 0 vl.bits).setWidth 512

/-- Bits 127:0 from `new`, the rest from `old` (40_pxor_legacy.md R131). -/
def replaceLow128 (old new : VecWord) : VecWord := old.extractLsb' 128 384 ++ new.extractLsb' 0 128

/-! ## Memory -/

/-- One byte of memory. -/
def Memory.read : Memory → Nat → Byte
  | [], _ => unlistedByte
  | c :: t, a => if a = c.1 then c.2 else Memory.read t a

/-- Write one byte, keeping the canonical form. No form stores (20_memory.md R65): this serves the load of a
program. -/
def Memory.write : Memory → Nat → Byte → Memory
  | [], a, b => if b = unlistedByte then [] else [(a, b)]
  | c :: t, a, b =>
    if a < c.1 then (if b = unlistedByte then c :: t else (a, b) :: c :: t)
    else if a = c.1 then (if b = unlistedByte then t else (a, b) :: t)
    else c :: Memory.write t a b

/-- The canonical form: addresses strictly rising and below 2^64, no entry equal to an unlisted byte. -/
def Memory.wf : Memory → Bool
  | [] => true
  | [c] => decide (c.1 < 2 ^ 64) && c.2 != unlistedByte
  | c :: d :: t => decide (c.1 < d.1) && c.2 != unlistedByte && Memory.wf (d :: t)

/-- The address of byte `i` of a range, modulo 2^64. -/
def byteAddr (la : Quad) (i : Nat) : Quad := la + BitVec.ofNat 64 i

/-- The `n`-byte little-endian value at `la` (20_memory.md R50). -/
def readLE (m : Memory) (la : Quad) : (n : Nat) → BitVec (8 * n)
  | 0 => 0#0
  | n + 1 => readLE m (la + 1#64) n ++ m.read la.toNat

/-- Write bytes at increasing addresses. -/
def Memory.writeAll (m : Memory) (la : Quad) : List Byte → Memory
  | [] => m
  | b :: t => Memory.writeAll (m.write la.toNat b) (la + 1#64) t

/-! ## Admission -/

/-- Bits `63 : vaBits-1` are all equal (20_memory.md R58). -/
def canonical (v : VaBits) (a : Quad) : Bool :=
  let top := a >>> (v.bits - 1)
  top == 0#64 || top == BitVec.allOnes 64 >>> (v.bits - 1)

/-- The legal values of `cfg.codeBase` and `cfg.codeEnd` (00_scope.md R7): canonical, and in this order. -/
def codeRangeLegal (c : Config) : Bool :=
  canonical c.vaBits c.codeBase && canonical c.vaBits c.codeEnd && decide (c.codeBase ≤ c.codeEnd)

/-- What 60_exceptions.md R178 says of a page-fault code: bit 1 (W/R) is 0, for no access writes, and bit 4 (I/D)
is 1 for a fetch. -/
def pfCodeLegal (kind : AccessKind) (code : BitVec 32) : Bool :=
  !code.getLsbD 1 && code.getLsbD 4 == (kind == .fetch)

/-- Every page-fault code that the regions supply is as R178 says. The model asks this of a configuration (`Inv`)
and passes on whatever code a region supplies (log 8). -/
def admissionLegal (c : Config) : Bool :=
  c.regions.all fun r =>
    match r.answer with
    | .pageFault code => pfCodeLegal r.kind code
    | _ => true

/-- The code of a page that is not present: every bit 0 but I/D on a fetch. -/
def notPresentCode : AccessKind → BitVec 32
  | .read => 0#32
  | .fetch => 0x10#32

/-- `cfg.admit` for one byte (20_memory.md R60, R71): the first region that holds the address and the kind of
access answers. An address in no region is not present (log 7). -/
def admissionOf (c : Config) (a : Quad) (kind : AccessKind) : Admission :=
  match c.regions.find? (fun r => r.kind == kind && decide (r.lo ≤ a) && decide (a ≤ r.hi)) with
  | some r => r.answer
  | none => .pageFault (notPresentCode kind)

/-! ## Taking an exception -/

/-- Why a step has no next state. -/
inductive Stop where
  | fault (f : Fault)
  | refuse (r : Refusal)
  deriving DecidableEq, Repr

/-- The outcome of a stop. -/
def Stop.outcome : Stop → Host.Outcome State Fault Refusal
  | .fault f => .fault f
  | .refuse r => .refused r

/-- Take an exception (60_exceptions.md R190, R191): the step ends in the fault, which carries the pc of the
faulting instruction. No state changes, no handler runs, and there is no return (R192). -/
def raise (f : Quad → Fault) (s : State) : Stop := .fault (f s.pc)

/-- The vector number (60_exceptions.md R178). -/
def faultVector : Fault → Nat
  | .ud _ => 6
  | .nm _ => 7
  | .ss _ _ => 12
  | .gp _ _ => 13
  | .pf _ _ _ => 14
  | .mf _ => 16
  | .ac _ _ => 17

/-- The error code, where the exception has one (60_exceptions.md R178). -/
def faultErrorCode : Fault → Option (BitVec 32)
  | .ud _ => none
  | .nm _ => none
  | .ss _ _ => some 0#32
  | .gp _ _ => some 0#32
  | .pf code _ _ => some code
  | .mf _ => none
  | .ac _ _ => some 0#32

/-- The pc a handler would see (60_exceptions.md R178, R191). -/
def faultPc : Fault → Quad
  | .ud pc => pc
  | .nm pc => pc
  | .ss _ pc => pc
  | .gp _ pc => pc
  | .pf _ _ pc => pc
  | .mf pc => pc
  | .ac _ pc => pc

/-- The stop an admission answer asks for at address `a` (20_memory.md R60, R63). #PF carries the code that
`cfg.admit` supplied (60_exceptions.md R191). -/
def admissionStop (s : State) (kind : AccessKind) (a : Quad) : Option Stop :=
  match admissionOf s.cfg a kind with
  | .ok => none
  | .pageFault code => some (raise (.pf code a) s)
  | .generalProtection => some (raise (.gp (some a)) s)
  | .stackFault => some (raise (.ss a) s)
  | .device => some (.refuse (.deviceMemory a))

/-! ## Reading a memory operand -/

/-- Byte `i` of the range at `la` does not wrap past 2^64 and is canonical (20_memory.md R58, R71). -/
def byteCanonical (s : State) (la : Quad) (i : Nat) : Bool :=
  decide (la.toNat + i < 2 ^ 64) && canonical s.cfg.vaBits (byteAddr la i)

/-- Byte `i` of the range at `la` may be read. -/
def byteReadable (s : State) (la : Quad) (i : Nat) : Bool :=
  byteCanonical s la i && admissionOf s.cfg (byteAddr la i) .read == .ok

/-- The first of the bytes `0 .. n-1` with the property `p`. -/
def firstByte (n : Nat) (p : Nat → Bool) : Option Nat := (List.range n).find? p

/-- Item (6) of 60_exceptions.md R185: #SS(0) or #GP(0) for the first accessed byte that is not canonical
(20_memory.md R58). DESIGN CHOICE: a byte past 2^64 is reported by its address modulo 2^64, so the first one
by 0 (log 13). -/
def canonicalStop (s : State) (la : Quad) (n : Nat) (ss : Bool) (active : Nat → Bool) : Option Stop :=
  (firstByte n fun i => active i && !byteCanonical s la i).map fun i =>
    if ss then raise (.ss (byteAddr la i)) s else raise (.gp (some (byteAddr la i))) s

/-- Item (7) of R185: #GP(0) for a misaligned operand of F2 (20_memory.md R59). -/
def misalignedStop (f : Form) (s : State) (la : Quad) : Option Stop :=
  if f = .f2 ∧ la.toNat % 16 ≠ 0 then some (raise (.gp (some la)) s) else none

/-- Item (8) of R185: the answer for the lowest accessed byte that is not admitted (20_memory.md R60). DESIGN
CHOICE: item (8) names #PF; the admission answers #GP(0) and #SS(0) and the refusal of device memory (R63)
stand in the same place, the lowest byte first (log 12). -/
def notAdmittedStop (s : State) (la : Quad) (n : Nat) (active : Nat → Bool) : Option Stop :=
  (firstByte n fun i => active i && (admissionStop s .read (byteAddr la i)).isSome).bind fun i =>
    admissionStop s .read (byteAddr la i)

/-- Without fault suppression a masked-off byte that could not be read refuses the step (20_memory.md R61). -/
def maskedStop (s : State) (la : Quad) (n : Nat) (active : Nat → Bool) : Option Stop :=
  if !s.cfg.faultSuppression && (firstByte n fun i => !active i && !byteReadable s la i).isSome then
    some (.refuse .maskedInadmissible)
  else none

/-- Item (9) of R185: under alignment checking #AC(0) for F1 and the refusal of R182 for F3 to F10. -/
def alignCheckStop (f : Form) (s : State) (la : Quad) (n : Nat) : Option Stop :=
  if alignCheck s then
    match f with
    | .f1 => if la.toNat % 8 ≠ 0 then some (raise (.ac la) s) else none
    | .f2 => none
    | _ => if la.toNat % n ≠ 0 then some (.refuse .alignCheckOpen) else none
  else none

/-- What stops the read of the `n` bytes at `la`, in the order of 60_exceptions.md R185 (6) to (9). `active i`
says that byte `i` belongs to an element that is accessed (20_memory.md R61). DESIGN CHOICE: every admission
answer, and the refusal of device memory, stands at (8), after the misalignment of F2 and before (9) (log 12);
the refusal of R61 stands between (8) and (9) (log 13). -/
def operandStop (f : Form) (s : State) (la : Quad) (n : Nat) (ss : Bool) (active : Nat → Bool) :
    Option Stop :=
  match canonicalStop s la n ss active with
  | some st => some st
  | none =>
    match misalignedStop f s la with
    | some st => some st
    | none =>
      match notAdmittedStop s la n active with
      | some st => some st
      | none =>
        match maskedStop s la n active with
        | some st => some st
        | none => alignCheckStop f s la n

/-- Read a memory operand (20_memory.md R50): the value, zero-extended to a vector, or what stops it. -/
def loadOperand (f : Form) (s : State) (la : Quad) (n : Nat) (ss : Bool) (active : Nat → Bool) :
    Except Stop VecWord :=
  match operandStop f s la n ss active with
  | some st => .error st
  | none => .ok ((readLE s.mem la n).setWidth 512)

/-! ## The checks before the operands -/

/-- The form's CPUID flags (60_exceptions.md R172). -/
def featureOk (f : Form) (c : Cpuid) : Bool :=
  match f with
  | .f1 => c.mmx
  | .f2 => c.sse2
  | .f3 => c.avx
  | .f4 => c.avx2
  | .f5 => c.avx512f && c.avx512vl
  | .f6 => c.avx512f && c.avx512vl
  | .f7 => c.avx512f
  | .f8 => c.avx512f && c.avx512vl
  | .f9 => c.avx512f && c.avx512vl
  | .f10 => c.avx512f

/-- The operating-system enables (60_exceptions.md R173 to R175). -/
def osOk (f : Form) (s : State) : Bool :=
  match f with
  | .f1 => !cr0EM s
  | .f2 => !cr0EM s && cr4OSFXSR s
  | .f3 => cr4OSXSAVE s && xcr0Avx s
  | .f4 => cr4OSXSAVE s && xcr0Avx s
  | _ => cr4OSXSAVE s && xcr0Avx s && xcr0Avx512 s

/-- Items (3) to (5) of 60_exceptions.md R185 after the encoding conditions: feature, enables, #NM, #MF. -/
def formStop (f : Form) (s : State) : Option Stop :=
  if !featureOk f s.cfg.cpuid then some (raise .ud s)
  else if !osOk f s then some (raise .ud s)
  else if cr0TS s then some (raise .nm s)
  else if f == .f1 && s.x87.pending then some (raise .mf s)
  else none

/-! ## Completing a step -/

/-- `pc + len` neither wraps nor leaves the canonical addresses (10_state.md R24). -/
def nextPcOk (s : State) (len : Nat) : Bool :=
  decide (s.pc.toNat + len < 2 ^ 64) && canonical s.cfg.vaBits (byteAddr s.pc len)

/-- Complete a step: the written state `t` with `pc <- pc + len`, or the refusal of 10_state.md R24. -/
def complete (len : Nat) (s t : State) : Host.Outcome State Fault Refusal :=
  if nextPcOk s len then .next { t with pc := byteAddr s.pc len } else .refused .pcOutOfRange

/-- One form on one state: the checks, the read of the second source, the write and the advance of pc, all
of it or nothing (10_state.md R42, 60_exceptions.md R185, R190). -/
def execute (f : Form) (len : Nat) (src : State → Except Stop VecWord) (write : State → VecWord → State)
    (s : State) : Host.Outcome State Fault Refusal :=
  match formStop f s with
  | some st => st.outcome
  | none =>
    match src s with
    | .error st => st.outcome
    | .ok v => complete len s (write s v)

end Sys2Proof.Machine
end

