-- ==== Sys2Proof/Machine/Operands.lean ====
section
/-! DEFINITION. Operand forms: register numbers, effective and linear addresses, and the elements of the EVEX
forms. -/

namespace Sys2Proof.Machine

/-! ## Register numbers -/

/-- `bit ++ field`, a register number 0 to 15 (30_encoding.md R91, R103, R115). -/
def regNum4 (hi : Bool) (r : BitVec 3) : BitVec 4 := BitVec.ofBool hi ++ r

/-- The number of a register 0 to 15 in the vector file. -/
def lowVec (r : BitVec 4) : BitVec 5 := 0#1 ++ r

/-- `bit ++ bit ++ field`, a register number 0 to 31 (30_encoding.md R115). -/
def regNum5 (hi4 hi3 : Bool) (r : BitVec 3) : BitVec 5 := BitVec.ofBool hi4 ++ BitVec.ofBool hi3 ++ r

/-- REX.R, 0 without a REX byte (30_encoding.md R88). -/
def rexR (rex : Option Rex) : Bool := (rex.map Rex.r).getD false

/-- REX.X, 0 without a REX byte. -/
def rexX (rex : Option Rex) : Bool := (rex.map Rex.x).getD false

/-- REX.B, 0 without a REX byte. -/
def rexB (rex : Option Rex) : Bool := (rex.map Rex.b).getD false

/-- The 2-byte VEX prefix implies X = B = W = 0 (30_encoding.md R99). -/
def vex2As3 (v : Vex2) : Vex3 := { r := v.r, x := false, b := false, w := false, vvvv := v.vvvv }

/-! ## Addresses -/

/-- The address-size override stands among the prefixes (30_encoding.md R87). -/
def addrSize32 (pre : List Prefix) : Bool := pre.contains .addrSize

/-- The instruction's segment override, if it has one (30_encoding.md R87). -/
def segOverride : List Prefix → Option Seg
  | [] => none
  | .seg g :: _ => some g
  | _ :: t => segOverride t

/-- A term of an address: all 64 bits, or its low 32 under an address-size override (20_memory.md R56). -/
def addrTerm (a32 : Bool) (v : Quad) : Quad := if a32 then (v.setWidth 32).setWidth 64 else v

/-- `D` of 20_memory.md R54: the displacement, an 8-bit one multiplied by `n`. -/
def dispTerm (n : Nat) : Disp → Quad
  | .none => 0#64
  | .disp8 d => d.signExtend 64 * BitVec.ofNat 64 n
  | .disp32 d => d.signExtend 64

/-- The index term of R54: none for the 4-bit number 0100b. -/
def indexTerm (s : State) (a32 x : Bool) (scale : BitVec 2) (index : BitVec 3) : Quad :=
  if regNum4 x index = 4#4 then 0#64
  else addrTerm a32 (gprAt s (regNum4 x index)) <<< scale.toNat

/-- The sum of R54 before it is cut to the address size; `next` is `pc + ilen`. -/
def addrSum (s : State) (a32 x b : Bool) (n : Nat) (next : Quad) : Mem → Quad
  | .base rm d => addrTerm a32 (gprAt s (regNum4 b rm)) + dispTerm n d
  | .rip d => addrTerm a32 next + d.signExtend 64
  | .sib scale index bs d =>
    addrTerm a32 (gprAt s (regNum4 b bs)) + indexTerm s a32 x scale index + dispTerm n d
  | .sibNoBase scale index d => indexTerm s a32 x scale index + d.signExtend 64

/-- The effective address (20_memory.md R54, R56). -/
def effAddr (s : State) (a32 x b : Bool) (n : Nat) (next : Quad) (m : Mem) : Quad :=
  addrTerm a32 (addrSum s a32 x b n next m)

/-- The segment base of 20_memory.md R57: only FS and GS count. -/
def segBase (s : State) (pre : List Prefix) : Quad :=
  match segOverride pre with
  | some .fs => s.segs.fs
  | some .gs => s.segs.gs
  | _ => 0#64

/-- The linear address of a memory operand (20_memory.md R57). -/
def linAddr (s : State) (pre : List Prefix) (x b : Bool) (n len : Nat) (m : Mem) : Quad :=
  segBase s pre + effAddr s (addrSize32 pre) x b n (byteAddr s.pc len) m

/-- The number of the base register, where the operand has one (20_memory.md R54). -/
def baseReg (b : Bool) : Mem → Option (BitVec 4)
  | .base rm _ => some (regNum4 b rm)
  | .rip _ => none
  | .sib _ _ bs _ => some (regNum4 b bs)
  | .sibNoBase _ _ _ => none

/-- The stack-segment class of 20_memory.md R57: base RSP or RBP and no FS or GS override. -/
def stackClass (pre : List Prefix) (b : Bool) (m : Mem) : Bool :=
  !(segOverride pre == some .fs || segOverride pre == some .gs) &&
    (baseReg b m == some 4#4 || baseReg b m == some 5#4)

/-! ## Elements -/

/-- The element size of an EVEX form (30_encoding.md R111). -/
inductive ElemSize where
  | dword | qword
  deriving DecidableEq, Repr

/-- `E` of 42_vpxord_vpxorq_evex.md R150, in bits. -/
def ElemSize.bits : ElemSize → Nat
  | .dword => 32
  | .qword => 64

/-- `KL = VL / E` (R150). -/
def elemCount (e : ElemSize) (vl : VLen) : Nat := vl.bits / e.bits

/-- Element `j` is computed: no writemask, or its mask bit is 1 (R150; 30_encoding.md R112). -/
def elemActive (s : State) (aaa : BitVec 3) (j : Nat) : Bool := aaa == 0#3 || (kAt s aaa).getLsbD j

/-- Element `j` of a vector. -/
def elemAt (e : ElemSize) (v : VecWord) (j : Nat) : BitVec e.bits := v.extractLsb' (j * e.bits) e.bits

/-- The vector whose elements `0 .. n-1` are `f 0 .. f (n-1)`, zero above. -/
def buildElems (e : ElemSize) (f : Nat → BitVec e.bits) : Nat → VecWord
  | 0 => 0#512
  | n + 1 => buildElems e f n ||| ((f n).setWidth 512 <<< (n * e.bits))

/-- The element loop of R150 with the second-source elements `e2`. -/
def maskedXor (e : ElemSize) (vl : VLen) (active : Nat → Bool) (z : Bool) (old src1 : VecWord)
    (e2 : Nat → BitVec e.bits) : VecWord :=
  buildElems e
    (fun j => if active j then elemAt e src1 j ^^^ e2 j else if z then 0 else elemAt e old j)
    (elemCount e vl)

/-- Bytes of an EVEX memory operand (20_memory.md R53). -/
def evexBytes (e : ElemSize) (vl : VLen) (bcast : Bool) : Nat :=
  if bcast then e.bits / 8 else vl.bits / 8

/-- `N` of tuple type Full (30_encoding.md R116). -/
def tupleN (e : ElemSize) (vl : VLen) (bcast : Bool) : Nat :=
  if bcast then e.bits / 8 else vl.bits / 8

/-- The bytes of the memory operand that belong to an active element (20_memory.md R61). -/
def byteActive (s : State) (e : ElemSize) (vl : VLen) (ev : Evex) (i : Nat) : Bool :=
  if ev.bcast then (List.range (elemCount e vl)).any (elemActive s ev.aaa)
  else elemActive s ev.aaa (i / (e.bits / 8))

/-- The second-source elements (42_vpxord_vpxorq_evex.md R151), `v` the register or the operand read. -/
def srcElem (e : ElemSize) (ev : Evex) (rm : Rm) (v : VecWord) (j : Nat) : BitVec e.bits :=
  match rm with
  | .reg _ => elemAt e v j
  | .mem _ => elemAt e v (if ev.bcast then 0 else j)

end Sys2Proof.Machine
end

