-- ==== Sys2Proof/Machine/Evex.lean ====
section
/-! DEFINITION. The EVEX forms F5 to F10 (42_vpxord_vpxorq_evex.md). The decoder answers #UD for `b = 1` with a
register and for `z = 1` without a writemask (30_encoding.md R113, R114), so those never reach a meaning. -/

namespace Sys2Proof.Machine

/-- The second source of an EVEX form: a register, or the memory operand read once (R151). -/
def evexSource (f : Form) (e : ElemSize) (vl : VLen) (pre : List Prefix) (ev : Evex) (rm : Rm) (s : State) :
    Except Stop VecWord :=
  match rm with
  | .reg r => .ok (vecAt s (regNum5 ev.x ev.b r))
  | .mem m =>
    loadOperand f s (linAddr s pre ev.x ev.b (tupleN e vl ev.bcast) (evexLen pre rm) m)
      (evexBytes e vl ev.bcast) (stackClass pre ev.b m) (byteActive s e vl ev)

/-- The masked element-wise XOR of R150, the bits above VL zeroed. -/
def evexXor (f : Form) (e : ElemSize) (vl : VLen) (pre : List Prefix) (ev : Evex) (reg : BitVec 3) (rm : Rm)
    (s : State) : Host.Outcome State Fault Refusal :=
  execute f (evexLen pre rm) (evexSource f e vl pre ev rm)
    (fun s v =>
      let d := regNum5 ev.rHi ev.r reg
      let s1 : BitVec 5 := BitVec.ofBool ev.vHi ++ ev.vvvv
      setVec s d
        (maskedXor e vl (elemActive s ev.aaa) ev.z (vecAt s d) (vecAt s s1) (srcElem e ev rm v))) s

/-- F5, `VPXORD xmm` (R152). -/
def execVpxordXmm (pre : List Prefix) (evex : Evex) (reg : BitVec 3) (rm : Rm) (s : State) :
    Host.Outcome State Fault Refusal :=
  evexXor .f5 .dword .v128 pre evex reg rm s

/-- F6, `VPXORD ymm` (R153). -/
def execVpxordYmm (pre : List Prefix) (evex : Evex) (reg : BitVec 3) (rm : Rm) (s : State) :
    Host.Outcome State Fault Refusal :=
  evexXor .f6 .dword .v256 pre evex reg rm s

/-- F7, `VPXORD zmm` (R154). -/
def execVpxordZmm (pre : List Prefix) (evex : Evex) (reg : BitVec 3) (rm : Rm) (s : State) :
    Host.Outcome State Fault Refusal :=
  evexXor .f7 .dword .v512 pre evex reg rm s

/-- F8, `VPXORQ xmm` (R155). -/
def execVpxorqXmm (pre : List Prefix) (evex : Evex) (reg : BitVec 3) (rm : Rm) (s : State) :
    Host.Outcome State Fault Refusal :=
  evexXor .f8 .qword .v128 pre evex reg rm s

/-- F9, `VPXORQ ymm` (R156). -/
def execVpxorqYmm (pre : List Prefix) (evex : Evex) (reg : BitVec 3) (rm : Rm) (s : State) :
    Host.Outcome State Fault Refusal :=
  evexXor .f9 .qword .v256 pre evex reg rm s

/-- F10, `VPXORQ zmm` (R157). -/
def execVpxorqZmm (pre : List Prefix) (evex : Evex) (reg : BitVec 3) (rm : Rm) (s : State) :
    Host.Outcome State Fault Refusal :=
  evexXor .f10 .qword .v512 pre evex reg rm s

end Sys2Proof.Machine
end

