-- ==== Sys2Proof/Machine/Legacy.lean ====
section
/-! DEFINITION. The legacy forms F1 and F2 (40_pxor_legacy.md). -/

namespace Sys2Proof.Machine

/-- The second operand of a legacy form: `regVal` of a register, or the `n` bytes at the linear address of a
memory operand (30_encoding.md R84, R89). -/
def legacySource (f : Form) (n : Nat) (pre : List Prefix) (rex : Option Rex) (rm : Rm)
    (regVal : State → BitVec 3 → VecWord) (s : State) : Except Stop VecWord :=
  match rm with
  | .reg r => .ok (regVal s r)
  | .mem m =>
    loadOperand f s (linAddr s pre (rexX rex) (rexB rex) 1 (legacyLen pre rex rm) m) n
      (stackClass pre (rexB rex) m) (fun _ => true)

/-- F1, `PXOR mm, mm/m64` (R130). REX.R and REX.B do not extend an MMX register number (30_encoding.md R91). -/
def execPxorMm (pre : List Prefix) (rex : Option Rex) (reg : BitVec 3) (rm : Rm) (s : State) :
    Host.Outcome State Fault Refusal :=
  execute .f1 (legacyLen pre rex rm)
    (legacySource .f1 8 pre rex rm fun s r => (mmAt s r).setWidth 512)
    (fun s v => setMm s reg (mmAt s reg ^^^ v.setWidth 64)) s

/-- F2, `PXOR xmm1, xmm2/m128` (R131): bits above 127 of the destination are kept. -/
def execPxorXmm (pre : List Prefix) (rex : Option Rex) (reg : BitVec 3) (rm : Rm) (s : State) :
    Host.Outcome State Fault Refusal :=
  execute .f2 (legacyLen pre rex rm)
    (legacySource .f2 16 pre rex rm fun s r => vecAt s (lowVec (regNum4 (rexB rex) r)))
    (fun s v =>
      let d := lowVec (regNum4 (rexR rex) reg)
      setVec s d (replaceLow128 (vecAt s d) (vecAt s d ^^^ v))) s

end Sys2Proof.Machine
end

