-- ==== Sys2Proof/Machine/Vex.lean ====
section
/-! DEFINITION. The VEX forms F3 and F4 (41_vpxor_vex.md), each with a 2-byte and a 3-byte prefix. -/

namespace Sys2Proof.Machine

/-- The second source of a VEX form (30_encoding.md R85, R103). -/
def vexSource (f : Form) (vl : VLen) (pre : List Prefix) (v : Vex3) (rm : Rm) (len : Nat) (s : State) :
    Except Stop VecWord :=
  match rm with
  | .reg r => .ok (vecAt s (lowVec (regNum4 v.b r)))
  | .mem m =>
    loadOperand f s (linAddr s pre v.x v.b 1 len m) (vl.bits / 8) (stackClass pre v.b m) (fun _ => true)

/-- `vec[d][VL-1:0] <- SRC1 XOR SRC2`, the bits above zeroed (R140, R141). -/
def vexXor (f : Form) (vl : VLen) (pre : List Prefix) (v : Vex3) (reg : BitVec 3) (rm : Rm) (len : Nat)
    (s : State) : Host.Outcome State Fault Refusal :=
  execute f len (vexSource f vl pre v rm len)
    (fun s src2 => setVec s (lowVec (regNum4 v.r reg)) (lowBits vl (vecAt s (lowVec v.vvvv) ^^^ src2))) s

/-- F3 with the 2-byte prefix (R140). -/
def execVpxorXmmVex2 (pre : List Prefix) (vex : Vex2) (reg : BitVec 3) (rm : Rm) (s : State) :
    Host.Outcome State Fault Refusal :=
  vexXor .f3 .v128 pre (vex2As3 vex) reg rm (vex2Len pre rm) s

/-- F3 with the 3-byte prefix (R140). -/
def execVpxorXmmVex3 (pre : List Prefix) (vex : Vex3) (reg : BitVec 3) (rm : Rm) (s : State) :
    Host.Outcome State Fault Refusal :=
  vexXor .f3 .v128 pre vex reg rm (vex3Len pre rm) s

/-- F4 with the 2-byte prefix (R141). -/
def execVpxorYmmVex2 (pre : List Prefix) (vex : Vex2) (reg : BitVec 3) (rm : Rm) (s : State) :
    Host.Outcome State Fault Refusal :=
  vexXor .f4 .v256 pre (vex2As3 vex) reg rm (vex2Len pre rm) s

/-- F4 with the 3-byte prefix (R141). -/
def execVpxorYmmVex3 (pre : List Prefix) (vex : Vex3) (reg : BitVec 3) (rm : Rm) (s : State) :
    Host.Outcome State Fault Refusal :=
  vexXor .f4 .v256 pre vex reg rm (vex3Len pre rm) s

end Sys2Proof.Machine
end

