-- ==== Sys2Proof/Machine/Dispatch.lean ====
section
/-! DEFINITION. One arm per constructor of Instr. -/

namespace Sys2Proof.Machine

-- 40_pxor_legacy.md R130, R131; 41_vpxor_vex.md R140, R141; 42_vpxord_vpxorq_evex.md R152 to R157
def exec (i : Instr) (s : State) : Host.Outcome State Fault Refusal :=
  match i with
  | .pxorMm pre rex reg rm => Sys2Proof.Machine.execPxorMm pre rex reg rm s
  | .pxorXmm pre rex reg rm => Sys2Proof.Machine.execPxorXmm pre rex reg rm s
  | .vpxorXmmVex2 pre vex reg rm => Sys2Proof.Machine.execVpxorXmmVex2 pre vex reg rm s
  | .vpxorXmmVex3 pre vex reg rm => Sys2Proof.Machine.execVpxorXmmVex3 pre vex reg rm s
  | .vpxorYmmVex2 pre vex reg rm => Sys2Proof.Machine.execVpxorYmmVex2 pre vex reg rm s
  | .vpxorYmmVex3 pre vex reg rm => Sys2Proof.Machine.execVpxorYmmVex3 pre vex reg rm s
  | .vpxordXmm pre evex reg rm => Sys2Proof.Machine.execVpxordXmm pre evex reg rm s
  | .vpxordYmm pre evex reg rm => Sys2Proof.Machine.execVpxordYmm pre evex reg rm s
  | .vpxordZmm pre evex reg rm => Sys2Proof.Machine.execVpxordZmm pre evex reg rm s
  | .vpxorqXmm pre evex reg rm => Sys2Proof.Machine.execVpxorqXmm pre evex reg rm s
  | .vpxorqYmm pre evex reg rm => Sys2Proof.Machine.execVpxorqYmm pre evex reg rm s
  | .vpxorqZmm pre evex reg rm => Sys2Proof.Machine.execVpxorqZmm pre evex reg rm s

end Sys2Proof.Machine
end

