-- ==== Sys2Proof/Machine/Fetch.lean ====
section
/-! DEFINITION. Fetching and decoding the instruction at pc, the conditions under which a step happens at all,
and the launch that brings the machine from reset to a program's first instruction. -/

namespace Sys2Proof.Machine

/-- What stops the fetch of byte `i` of the instruction: #GP(0) for a non-canonical address, or the admission
answer (60_exceptions.md R185 (1), 20_memory.md R69). DESIGN CHOICE: R185 (1) names #PF and that #GP(0); the
admission answers #GP(0) and #SS(0) and the refusal of device memory stand in the same place (log 12). DESIGN
CHOICE: that #GP(0) is named for pc itself; a later byte at a non-canonical address raises it too, with that
byte's address, and the admission is not asked (log 17). -/
def fetchStop (s : State) (i : Nat) : Option Stop :=
  if canonical s.cfg.vaBits (byteAddr s.pc i) then admissionStop s .fetch (byteAddr s.pc i)
  else some (raise (.gp (some (byteAddr s.pc i))) s)

/-- How often one more byte may be asked for: as often as there are addresses. It is never used up, because a
byte at a non-canonical address comes before (`fetchFrom_limit`). -/
def fetchLimit : Nat := 2 ^ 64

/-- Fetch and decode (30_encoding.md R126): the bytes `bs` have been fetched; while the decoder asks for more,
fetch the next one. A byte that cannot be fetched stops the step only if the decoder needs it. -/
def fetchFrom (s : State) : (n : Nat) → (bs : List Byte) → Except Stop Instr
  | 0, _ => .error (raise (.gp none) s)
  | n + 1, bs =>
    match decode bs with
    | .instr i => .ok i
    | .tooLong => .error (raise (.gp none) s)
    | .invalid => .error (raise .ud s)
    | .notThisSpec => .error (.refuse .notThisSpec)
    | .segOverrides => .error (.refuse .segOverrides)
    | .more =>
      match fetchStop s bs.length with
      | some st => .error st
      | none => fetchFrom s n (bs ++ [s.mem.read (byteAddr s.pc bs.length).toNat])

/-- Fetch and decode the instruction at pc. -/
def fetchDecode (s : State) : Except Stop Instr := fetchFrom s fetchLimit []

/-- Why no step happens in this state: not 64-bit mode (00_scope.md R4), another agent (20_memory.md R66),
interrupts (93_implementation_defined.md U28), debug (60_exceptions.md R199), or the end of the run
(70_reset_and_hazards.md R213). DESIGN CHOICE: nothing else about `[cfg.codeBase, cfg.codeEnd)` stops a step; at
a pc outside it, or past codeEnd, the model goes on with whatever bytes are admitted (log 15). -/
def notRunning (s : State) : Option Refusal :=
  if s.mode ≠ .mode64 then some .notMode64
  else if s.cfg.env.otherWriter then some .otherWriter
  else if s.cfg.env.asyncEvents then some .asyncEvents
  else if s.cfg.env.debugArmed then some .debugArmed
  else if s.pc = s.cfg.codeEnd then some .runFinal
  else none

/-- What boot software and the operating system do before a program's first instruction
(70_reset_and_hazards.md R212): 64-bit mode, CR0.EM = CR0.TS = 0, CR4.OSFXSR = CR4.OSXSAVE = 1, XCR0 bits 1,
2, 5, 6 and 7 set; with them CR0.AM = 0, no pending x87 exception, and one agent (R211 L1, L3, L4, L5, L9). -/
def launch (s : State) : State :=
  { s with
    mode := .mode64
    cr0 := s.cr0 &&& ~~~(0x4000C#64)
    cr4 := s.cr4 ||| 0x40200#64
    xcr0 := s.xcr0 ||| 0xE6#64
    x87 := { s.x87 with pending := false }
    cfg := { s.cfg with env := { otherWriter := false, asyncEvents := false, debugArmed := false } } }

/-- Load a program at pc: `bs` in memory, of which the first `len` bytes are the program's; `cfg.codeBase` and
`cfg.codeEnd` around those, and their range admitted for fetch (70_reset_and_hazards.md R211 L6, R213). -/
def loadProgram (s : State) (bs : List Byte) (len : Nat) : State :=
  { s with
    mem := s.mem.writeAll s.pc bs
    cfg := { s.cfg with
      codeBase := s.pc
      codeEnd := byteAddr s.pc len
      regions := { lo := s.pc, hi := byteAddr s.pc (len - 1), kind := .fetch, answer := .ok } ::
        s.cfg.regions } }

/-- The length of a program of one instruction that begins `bs`; of all of `bs` where that is no instruction. -/
def programLen (bs : List Byte) : Nat :=
  match decode bs with
  | .instr i => i.ilen
  | _ => bs.length

end Sys2Proof.Machine
end

