-- ==== Sys2Proof/Machine/Step.lean ====
section
/-! DEFINITION. One step, and the placing of one instruction where the step fetches. -/

namespace Sys2Proof.Machine

/-- One step (60_exceptions.md R190): fetch, decode, execute. -/
def step (s : State) : Host.Outcome State Fault Refusal :=
  match notRunning s with
  | some r => .refused r
  | none =>
    match fetchDecode s with
    | .error st => st.outcome
    | .ok i => exec i s

/-- The launch of a program that begins with the given table word (log 1): the launch state of
70_reset_and_hazards.md R211, and the instruction's bytes, zero-filled to 15, at pc. The program is that one
instruction. -/
def State.withFetchWord (s : State) (nbits w : Nat) : State :=
  loadProgram (launch s) (tableBytes nbits w) (programLen (tableBytes nbits w))

end Sys2Proof.Machine
end

