-- ==== Sys2Proof/Safety.lean ====
section
/-! DEFINITION. The terms statements use: the launch premises of 70_reset_and_hazards.md R211, the invariant of
the machine, code and operands in memory, and fault-free runs. -/

namespace Sys2Proof.Machine

/-- A step happens in this state: 64-bit mode, one agent, no interrupt source, no debug registers armed, not
at the end of the run (R211 L1 and L9, R213). -/
def Running (s : State) : Prop :=
  s.mode = .mode64 ∧ s.cfg.env.otherWriter = false ∧ s.cfg.env.asyncEvents = false ∧
    s.cfg.env.debugArmed = false ∧ s.pc ≠ s.cfg.codeEnd

/-- The feature flags a form needs are present (60_exceptions.md R172; R211 L2). -/
def FeaturePresent (f : Form) (c : Cpuid) : Prop :=
  match f with
  | .f1 => c.mmx = true
  | .f2 => c.sse2 = true
  | .f3 => c.avx = true
  | .f4 => c.avx2 = true
  | .f5 => c.avx512f = true ∧ c.avx512vl = true
  | .f6 => c.avx512f = true ∧ c.avx512vl = true
  | .f7 => c.avx512f = true
  | .f8 => c.avx512f = true ∧ c.avx512vl = true
  | .f9 => c.avx512f = true ∧ c.avx512vl = true
  | .f10 => c.avx512f = true

/-- The operating system has enabled a form (60_exceptions.md R173 to R175; R211 L3): the bits by their
positions in the registers (10_state.md R34). -/
def OsEnabled (f : Form) (s : State) : Prop :=
  match f.layout, f with
  | .legacy, .f1 => s.cr0.getLsbD 2 = false
  | .legacy, _ => s.cr0.getLsbD 2 = false ∧ s.cr4.getLsbD 9 = true
  | .vex, _ => s.cr4.getLsbD 18 = true ∧ s.xcr0.getLsbD 1 = true ∧ s.xcr0.getLsbD 2 = true
  | .evex, _ =>
    s.cr4.getLsbD 18 = true ∧ s.xcr0.getLsbD 1 = true ∧ s.xcr0.getLsbD 2 = true ∧
      s.xcr0.getLsbD 5 = true ∧ s.xcr0.getLsbD 6 = true ∧ s.xcr0.getLsbD 7 = true

/-- No #UD, #NM or #MF of 60_exceptions.md R172 to R176 and R181 applies to a form (R211 L2, L3, L5). -/
def Enabled (f : Form) (s : State) : Prop :=
  FeaturePresent f s.cfg.cpuid ∧ OsEnabled f s ∧ s.cr0.getLsbD 3 = false ∧
    (f = .f1 → s.x87.pending = false)

/-- `pc + len` neither wraps nor leaves the canonical addresses (10_state.md R24). -/
def NextPcOk (s : State) (len : Nat) : Prop :=
  s.pc.toNat + len < 2 ^ 64 ∧ canonical s.cfg.vaBits (s.pc + BitVec.ofNat 64 len) = true

/-- The `n` bytes at `la` are canonical, do not wrap and are admitted for data read (20_memory.md R58, R60). -/
def Readable (s : State) (la : Quad) (n : Nat) : Prop := ∀ i, i < n → byteReadable s la i = true

/-- The bytes `bs` stand at pc, canonical and admitted for fetch (20_memory.md R69; R211 L6). -/
def CodeAt (s : State) (bs : List Byte) : Prop :=
  ∀ i, (h : i < bs.length) →
    fetchStop s i = none ∧ s.mem.read (byteAddr s.pc i).toNat = bs[i]

/-- The bytes of a program. -/
def programBytes (prog : List Instr) : List Byte := prog.flatMap encode

/-- The launch state of 70_reset_and_hazards.md R211 for a program: the premises L1 to L6 and L9 by name. L7
names the operand ranges of one claim (`Readable`); L8 needs no field, since a state records no fault. -/
structure Launched (s : State) (prog : List Instr) : Prop where
  /-- L1. -/
  mode64 : s.mode = .mode64
  /-- L2: the flags of every form of the program. -/
  features : ∀ i ∈ prog, FeaturePresent i.form s.cfg.cpuid
  /-- L2: 00_scope.md R6. -/
  consistent : s.cfg.consistent = true
  /-- L3: CR0.EM = CR0.TS = 0, and the enables of every form of the program. -/
  osEnabled : s.cr0.getLsbD 2 = false ∧ s.cr0.getLsbD 3 = false ∧ ∀ i ∈ prog, OsEnabled i.form s
  /-- L4. -/
  noAlignCheck : alignCheck s = false
  /-- L5, needed only for F1. -/
  noX87Pending : (∃ i ∈ prog, i.form = .f1) → s.x87.pending = false
  /-- The legal values of codeBase and codeEnd (00_scope.md R7). -/
  codeLegal : codeRangeLegal s.cfg = true
  /-- L6: the program's bytes are the range from codeBase up to codeEnd. -/
  codeRange : s.cfg.codeEnd.toNat = s.cfg.codeBase.toNat + (programBytes prog).length
  /-- L6: they stand there. -/
  codeBytes : ∀ k, (hk : k < (programBytes prog).length) →
    s.mem.read (s.cfg.codeBase.toNat + k) = (programBytes prog)[k]
  /-- L6: every byte of the range is admitted for fetch, a canonical address among what that takes. -/
  codeAdmitted : ∀ a, s.cfg.codeBase ≤ a → a < s.cfg.codeEnd →
    canonical s.cfg.vaBits a = true ∧ admissionOf s.cfg a .fetch = .ok
  /-- L6. -/
  atCodeBase : s.pc = s.cfg.codeBase
  /-- L9, with no interrupt source and no debug registers armed. -/
  singleAgent : s.cfg.env = { otherWriter := false, asyncEvents := false, debugArmed := false }

/-- Instruction of an EVEX row by element size and vector length: `vpxordXmm`, `vpxordYmm`, `vpxordZmm`,
`vpxorqXmm`, `vpxorqYmm`, `vpxorqZmm`. -/
def evexInstr (e : ElemSize) (vl : VLen) (pre : List Prefix) (ev : Evex) (reg : BitVec 3) (rm : Rm) :
    Instr :=
  match e, vl with
  | .dword, .v128 => .vpxordXmm pre ev reg rm
  | .dword, .v256 => .vpxordYmm pre ev reg rm
  | .dword, .v512 => .vpxordZmm pre ev reg rm
  | .qword, .v128 => .vpxorqXmm pre ev reg rm
  | .qword, .v256 => .vpxorqYmm pre ev reg rm
  | .qword, .v512 => .vpxorqZmm pre ev reg rm

/-- Form of an EVEX row by element size and vector length. -/
def evexForm (e : ElemSize) (vl : VLen) : Form :=
  match e, vl with
  | .dword, .v128 => .f5
  | .dword, .v256 => .f6
  | .dword, .v512 => .f7
  | .qword, .v128 => .f8
  | .qword, .v256 => .f9
  | .qword, .v512 => .f10

/-- VEX row with a 2-byte prefix: `vpxorYmmVex2`, or `vpxorXmmVex2`. -/
def vex2Instr (ymm : Bool) (pre : List Prefix) (v : Vex2) (reg : BitVec 3) (rm : Rm) : Instr :=
  if ymm then .vpxorYmmVex2 pre v reg rm else .vpxorXmmVex2 pre v reg rm

/-- VEX row with a 3-byte prefix: `vpxorYmmVex3`, or `vpxorXmmVex3`. -/
def vex3Instr (ymm : Bool) (pre : List Prefix) (v : Vex3) (reg : BitVec 3) (rm : Rm) : Instr :=
  if ymm then .vpxorYmmVex3 pre v reg rm else .vpxorXmmVex3 pre v reg rm

/-- Form of a VEX row. -/
def vexForm (ymm : Bool) : Form := if ymm then .f4 else .f3

/-- VL of a VEX row. -/
def vexBits (ymm : Bool) : Nat := if ymm then 256 else 128

/-- `nesc` of 30_encoding.md R118: the bytes before the opcode byte EF that are no prefix bytes. -/
def escBytes : Instr → Nat
  | .pxorMm _ rex _ _ => if rex.isSome then 2 else 1
  | .pxorXmm _ rex _ _ => if rex.isSome then 2 else 1
  | .vpxorXmmVex2 _ _ _ _ => 2
  | .vpxorXmmVex3 _ _ _ _ => 3
  | .vpxorYmmVex2 _ _ _ _ => 2
  | .vpxorYmmVex3 _ _ _ _ => 3
  | .vpxordXmm _ _ _ _ => 4
  | .vpxordYmm _ _ _ _ => 4
  | .vpxordZmm _ _ _ _ => 4
  | .vpxorqXmm _ _ _ _ => 4
  | .vpxorqYmm _ _ _ _ => 4
  | .vpxorqZmm _ _ _ _ => 4

/-- `nsib` of R118, by the table of R94. -/
def sibBytes : Rm → Nat
  | .mem (.sib _ _ _ _) => 1
  | .mem (.sibNoBase _ _ _) => 1
  | _ => 0

/-- `ndisp` of R118, by the table of R94. -/
def dispBytes : Rm → Nat
  | .reg _ => 0
  | .mem (.base _ .none) => 0
  | .mem (.base _ (.disp8 _)) => 1
  | .mem (.base _ (.disp32 _)) => 4
  | .mem (.rip _) => 4
  | .mem (.sib _ _ _ .none) => 0
  | .mem (.sib _ _ _ (.disp8 _)) => 1
  | .mem (.sib _ _ _ (.disp32 _)) => 4
  | .mem (.sibNoBase _ _ _) => 4

/-- The bytes `bs` begin with one of the twelve rows of 30_encoding.md R120, or with the EVEX family pattern,
by the masks of its table. -/
def matchesRow : List Byte → Bool
  | 0x0F#8 :: 0xEF#8 :: _ => true
  | 0xC5#8 :: p0 :: 0xEF#8 :: _ => p0 &&& 0x03#8 == 0x01#8
  | 0xC4#8 :: p0 :: p1 :: 0xEF#8 :: _ => p0 &&& 0x1F#8 == 0x01#8 && p1 &&& 0x03#8 == 0x01#8
  | 0x62#8 :: p0 :: p1 :: _ :: 0xEF#8 :: _ => p0 &&& 0x03#8 == 0x01#8 && p1 &&& 0x03#8 == 0x01#8
  | _ => false

/-- The prefix scan of 30_encoding.md R126 step (1) stops before `bs`: its first byte is no prefix byte and no
REX byte that R88 ignores. -/
def scanStopsAt : List Byte → Bool
  | b :: c :: _ => (prefixOf b).isNone && !(isRex b && ((prefixOf c).isSome || isRex c))
  | _ => false

/-- `bs` without the REX byte it may begin with (30_encoding.md R126 step (2)). -/
def dropRex : List Byte → List Byte
  | b :: t => if isRex b then t else b :: t
  | [] => []

/-- The instruction with one more prefix byte before its others. -/
def addPrefix (p : Prefix) : Instr → Instr
  | .pxorMm pre rex reg rm => .pxorMm (p :: pre) rex reg rm
  | .pxorXmm pre rex reg rm => .pxorXmm (p :: pre) rex reg rm
  | .vpxorXmmVex2 pre v reg rm => .vpxorXmmVex2 (p :: pre) v reg rm
  | .vpxorXmmVex3 pre v reg rm => .vpxorXmmVex3 (p :: pre) v reg rm
  | .vpxorYmmVex2 pre v reg rm => .vpxorYmmVex2 (p :: pre) v reg rm
  | .vpxorYmmVex3 pre v reg rm => .vpxorYmmVex3 (p :: pre) v reg rm
  | .vpxordXmm pre e reg rm => .vpxordXmm (p :: pre) e reg rm
  | .vpxordYmm pre e reg rm => .vpxordYmm (p :: pre) e reg rm
  | .vpxordZmm pre e reg rm => .vpxordZmm (p :: pre) e reg rm
  | .vpxorqXmm pre e reg rm => .vpxorqXmm (p :: pre) e reg rm
  | .vpxorqYmm pre e reg rm => .vpxorqYmm (p :: pre) e reg rm
  | .vpxorqZmm pre e reg rm => .vpxorqZmm (p :: pre) e reg rm

/-- The bits X and B of an instruction's prefix (20_memory.md R54). -/
def extX : Instr → Bool
  | .pxorMm _ rex _ _ => rexX rex
  | .pxorXmm _ rex _ _ => rexX rex
  | .vpxorXmmVex2 _ _ _ _ => false
  | .vpxorXmmVex3 _ v _ _ => v.x
  | .vpxorYmmVex2 _ _ _ _ => false
  | .vpxorYmmVex3 _ v _ _ => v.x
  | .vpxordXmm _ e _ _ => e.x
  | .vpxordYmm _ e _ _ => e.x
  | .vpxordZmm _ e _ _ => e.x
  | .vpxorqXmm _ e _ _ => e.x
  | .vpxorqYmm _ e _ _ => e.x
  | .vpxorqZmm _ e _ _ => e.x

/-- The bit B. -/
def extB : Instr → Bool
  | .pxorMm _ rex _ _ => rexB rex
  | .pxorXmm _ rex _ _ => rexB rex
  | .vpxorXmmVex2 _ _ _ _ => false
  | .vpxorXmmVex3 _ v _ _ => v.b
  | .vpxorYmmVex2 _ _ _ _ => false
  | .vpxorYmmVex3 _ v _ _ => v.b
  | .vpxordXmm _ e _ _ => e.b
  | .vpxordYmm _ e _ _ => e.b
  | .vpxordZmm _ e _ _ => e.b
  | .vpxorqXmm _ e _ _ => e.b
  | .vpxorqYmm _ e _ _ => e.b
  | .vpxorqZmm _ e _ _ => e.b

/-- The scale of an 8-bit displacement: 1 but for the EVEX forms (30_encoding.md R116). -/
def dispScale : Instr → Nat
  | .vpxordXmm _ e _ _ => tupleN .dword .v128 e.bcast
  | .vpxordYmm _ e _ _ => tupleN .dword .v256 e.bcast
  | .vpxordZmm _ e _ _ => tupleN .dword .v512 e.bcast
  | .vpxorqXmm _ e _ _ => tupleN .qword .v128 e.bcast
  | .vpxorqYmm _ e _ _ => tupleN .qword .v256 e.bcast
  | .vpxorqZmm _ e _ _ => tupleN .qword .v512 e.bcast
  | _ => 1

/-- Bytes read by a memory operand: the table of 20_memory.md R53. -/
def operandBytes : Instr → Nat
  | .pxorMm _ _ _ _ => 8
  | .pxorXmm _ _ _ _ => 16
  | .vpxorXmmVex2 _ _ _ _ => 16
  | .vpxorXmmVex3 _ _ _ _ => 16
  | .vpxorYmmVex2 _ _ _ _ => 32
  | .vpxorYmmVex3 _ _ _ _ => 32
  | .vpxordXmm _ e _ _ => if e.bcast then 4 else 16
  | .vpxordYmm _ e _ _ => if e.bcast then 4 else 32
  | .vpxordZmm _ e _ _ => if e.bcast then 4 else 64
  | .vpxorqXmm _ e _ _ => if e.bcast then 8 else 16
  | .vpxorqYmm _ e _ _ => if e.bcast then 8 else 32
  | .vpxorqZmm _ e _ _ => if e.bcast then 8 else 64

/-- `N` of 30_encoding.md R116 in numbers: VL / 8 without broadcast, 4 or 8 with it; 1 without EVEX. -/
def dispFactor : Instr → Nat
  | .pxorMm _ _ _ _ => 1
  | .pxorXmm _ _ _ _ => 1
  | .vpxorXmmVex2 _ _ _ _ => 1
  | .vpxorXmmVex3 _ _ _ _ => 1
  | .vpxorYmmVex2 _ _ _ _ => 1
  | .vpxorYmmVex3 _ _ _ _ => 1
  | .vpxordXmm _ e _ _ => if e.bcast then 4 else 16
  | .vpxordYmm _ e _ _ => if e.bcast then 4 else 32
  | .vpxordZmm _ e _ _ => if e.bcast then 4 else 64
  | .vpxorqXmm _ e _ _ => if e.bcast then 8 else 16
  | .vpxorqYmm _ e _ _ => if e.bcast then 8 else 32
  | .vpxorqZmm _ e _ _ => if e.bcast then 8 else 64

/-- Linear address of an instruction's memory operand `m`, by the functions the meanings use. -/
def operandAddr (s : State) (i : Instr) (m : Mem) : Quad :=
  linAddr s i.pre (extX i) (extB i) (dispScale i) i.ilen m

/-- Value of a register in an address sum: all of it, or its low 32 bits (20_memory.md R54, R56). -/
def regInt (a32 : Bool) (v : Quad) : Int := if a32 then v.toNat % 2 ^ 32 else v.toNat

/-- `D` of 20_memory.md R54 as an integer. -/
def dispInt (n : Nat) : Disp → Int
  | .none => 0
  | .disp8 d => d.toInt * n
  | .disp32 d => d.toInt

/-- `index_term` of R54 as an integer. -/
def indexInt (s : State) (a32 x : Bool) (scale : BitVec 2) (index : BitVec 3) : Int :=
  if regNum4 x index = 4#4 then 0 else regInt a32 (gprAt s (regNum4 x index)) * 2 ^ scale.toNat

/-- The sum of R54 as an integer, before any modulus; `b` and `x` are the extension bits, `n` the scale of an
8-bit displacement, `next` the address after the instruction. -/
def sumInt (s : State) (a32 x b : Bool) (n next : Nat) : Mem → Int
  | .base rm d => regInt a32 (gprAt s (regNum4 b rm)) + dispInt n d
  | .rip d => next + d.toInt
  | .sib scale index bs d =>
    regInt a32 (gprAt s (regNum4 b bs)) + indexInt s a32 x scale index + dispInt n d
  | .sibNoBase scale index d => indexInt s a32 x scale index + d.toInt

/-- The base of the segment that an override byte 64 or 65 names (20_memory.md R57). -/
def segInt (s : State) (pre : List Prefix) : Int :=
  if Prefix.seg .fs ∈ pre then s.segs.fs.toNat
  else if Prefix.seg .gs ∈ pre then s.segs.gs.toNat
  else 0

/-- Linear address of a memory operand in integers (20_memory.md R54, R56, R57): the sum modulo 2^64, or 2^32
under the prefix 67, and the segment base added modulo 2^64. -/
def addrInt (s : State) (i : Instr) (m : Mem) : Int :=
  let a32 := i.pre.contains .addrSize
  let ea := sumInt s a32 (extX i) (extB i) (dispFactor i) (s.pc.toNat + i.ilen) m
  (segInt s i.pre + ea % (if a32 then 2 ^ 32 else 2 ^ 64)) % 2 ^ 64

/-- Byte `j` of the operand belongs to an element that is accessed (20_memory.md R61). -/
def operandActive (s : State) : Instr → Nat → Bool
  | .vpxordXmm _ e _ _, j => byteActive s .dword .v128 e j
  | .vpxordYmm _ e _ _, j => byteActive s .dword .v256 e j
  | .vpxordZmm _ e _ _, j => byteActive s .dword .v512 e j
  | .vpxorqXmm _ e _ _, j => byteActive s .qword .v128 e j
  | .vpxorqYmm _ e _ _, j => byteActive s .qword .v256 e j
  | .vpxorqZmm _ e _ _, j => byteActive s .qword .v512 e j
  | _, _ => true

/-- The stack-segment class of an instruction's memory operand `m` (20_memory.md R57). -/
def operandStack (i : Instr) (m : Mem) : Bool := stackClass i.pre (extB i) m

/-- The stack-segment class of 20_memory.md R57, spelled out: no override 64 or 65, and a base term whose register
number, B before the field, is 4 (RSP) or 5 (RBP). -/
def StackSegment (i : Instr) (m : Mem) : Prop :=
  Prefix.seg .fs ∉ i.pre ∧ Prefix.seg .gs ∉ i.pre ∧ extB i = false ∧
    match m with
    | .base rm _ => rm = 4#3 ∨ rm = 5#3
    | .rip _ => False
    | .sib _ _ base _ => base = 4#3 ∨ base = 5#3
    | .sibNoBase _ _ _ => False

/-- Every byte of the memory operand that belongs to an accessed element may be read (20_memory.md R58, R60,
R61). -/
def ActiveReadable (s : State) (i : Instr) (m : Mem) : Prop :=
  ∀ j, j < operandBytes i → operandActive s i j = true → byteReadable s (operandAddr s i m) j = true

/-- Alignment checking leaves the operand alone: not armed, or the operand is aligned to its size
(60_exceptions.md R182). F2 is checked at every time (20_memory.md R59). -/
def AlignOk (s : State) (i : Instr) (m : Mem) : Prop :=
  (alignCheck s = true ∨ i.form = .f2) → (operandAddr s i m).toNat % operandBytes i = 0

/-- The index register, where the operand has one: the 4-bit number 0100b means none (30_encoding.md R95). -/
def indexReg (x : Bool) (index : BitVec 3) : List (BitVec 4) :=
  if regNum4 x index = 4#4 then [] else [regNum4 x index]

/-- The general registers an instruction reads: the base and index of a memory operand (10_state.md R22). -/
def addrRegs (i : Instr) : List (BitVec 4) :=
  match i.rm with
  | .reg _ => []
  | .mem (.base rm _) => [regNum4 (extB i) rm]
  | .mem (.rip _) => []
  | .mem (.sib _ index bs _) => regNum4 (extB i) bs :: indexReg (extX i) index
  | .mem (.sibNoBase _ index _) => indexReg (extX i) index

/-- Apply a function to the next state of an outcome. -/
def mapNext (f : State → State) : Host.Outcome State Fault Refusal → Host.Outcome State Fault Refusal
  | .next t => .next (f t)
  | .fault r => .fault r
  | .refused r => .refused r

/-- The invariant of the machine: the memory keeps its canonical form (10_state.md R36), the configuration is
consistent (00_scope.md R6), its code range legal (R7) and its page-fault codes as 60_exceptions.md R178 says, no
bit at or above MAXVL and no register past NV holds anything (10_state.md R26),
no opmask bit at or above kWidth does (R30), and pc is canonical (R24). -/
def Inv (s : State) : Prop :=
  s.mem.wf = true ∧ s.cfg.consistent = true ∧ codeRangeLegal s.cfg = true ∧ admissionLegal s.cfg = true ∧
    (∀ r : BitVec 5, vecAt s r >>> s.cfg.maxvl.bits = 0#512) ∧
    (∀ r : BitVec 5, s.cfg.vecCount ≤ r.toNat → vecAt s r = 0#512) ∧
    (∀ r : BitVec 3, kAt s r >>> s.cfg.kWidth.bits = 0#64) ∧
    canonical s.cfg.vaBits s.pc = true

/-- No fault and no refusal but the end of the run in the next `n` steps (70_reset_and_hazards.md R213). -/
def runsSafely : Nat → State → Bool
  | 0, _ => true
  | n + 1, s =>
    match step s with
    | .next t => runsSafely n t
    | .refused .runFinal => true
    | _ => false

end Sys2Proof.Machine
end

