-- ==== Sys2Proof/Certificates/Slice0/Obligations.lean ====
section
/-! DEFINITION. The statements for the provers. -/

section Statements

open Sys2Proof Sys2Proof.Machine

/-! ## Encoding and decoding -/

/-- Decoding the bytes of a well-formed instruction, whatever follows them, gives it back. -/
def Obligations.DecodeEncode : Prop :=
  ∀ (i : Instr) (t : List Byte), i.wf = true → decode (encode i ++ t) = .instr i

/-- A decoded instruction is what its first bytes encode. -/
def Obligations.DecodeSound : Prop :=
  ∀ (bs : List Byte) (i : Instr), decode bs = .instr i → ∃ t, bs = encode i ++ t

/-- The decoder answers only well-formed instructions. -/
def Obligations.DecodedWellFormed : Prop :=
  ∀ (bs : List Byte) (i : Instr), decode bs = .instr i → i.wf = true

/-- Once the decoder has an answer, more bytes do not change it. -/
def Obligations.DecodeNeedsNoMore : Prop :=
  ∀ bs t : List Byte, decode bs ≠ .more → decode (bs ++ t) = decode bs

/-- Length of an instruction: the sum of 30_encoding.md R118, how many bytes the decoder walks over, and the
four minimum lengths. -/
def Obligations.LengthOfInstruction : Prop :=
  (∀ i : Instr, i.ilen = i.pre.length + escBytes i + 1 + 1 + sibBytes i.rm + dispBytes i.rm) ∧
  (∀ (bs : List Byte) (i : Instr), decode bs = .instr i → encode i = bs.take i.ilen) ∧
  (∀ i : Instr, i.wf = true →
    (i.form = .f1 → 3 ≤ i.ilen) ∧ (i.form ≠ .f1 → 4 ≤ i.ilen) ∧ (i.form.layout = .evex → 6 ≤ i.ilen)) ∧
  (Instr.pxorMm [] none 0#3 (.reg 1#3)).ilen = 3 ∧
  (Instr.pxorXmm [.opSize] none 0#3 (.reg 1#3)).ilen = 4 ∧
  (Instr.vpxorXmmVex2 [] { r := false, vvvv := 1#4 } 0#3 (.reg 2#3)).ilen = 4 ∧
  (∀ ev : Evex, (Instr.vpxordXmm [] ev 0#3 (.reg 1#3)).ilen = 6)

/-- A few words of the spec decode to the instructions they stand for. -/
def Obligations.WordsDecode : Prop :=
  decode [0x0F#8, 0xEF#8, 0xC1#8] = .instr (.pxorMm [] none 0#3 (.reg 1#3)) ∧
  decode [0x66#8, 0x44#8, 0x0F#8, 0xEF#8, 0xC1#8] =
    .instr (.pxorXmm [.opSize] (some { w := false, r := true, x := false, b := false }) 0#3 (.reg 1#3)) ∧
  decode [0xC5#8, 0xF1#8, 0xEF#8, 0xC2#8] =
    .instr (.vpxorXmmVex2 [] { r := false, vvvv := 1#4 } 0#3 (.reg 2#3)) ∧
  decode [0xC4#8, 0x41#8, 0x35#8, 0xEF#8, 0xC2#8] =
    .instr (.vpxorYmmVex3 [] { r := true, x := false, b := true, w := false, vvvv := 9#4 } 0#3 (.reg 2#3)) ∧
  decode [0x62#8, 0x01#8, 0x8D#8, 0xC3#8, 0xEF#8, 0xFD#8] =
    .instr (.vpxorqZmm []
      { r := true, x := true, b := true, rHi := true, vvvv := 14#4, z := true, bcast := false, vHi := true,
        aaa := 3#3 } 7#3 (.reg 5#3))

/-- An instruction longer than 15 bytes raises #GP(0): one that encodes an instruction, and one whose EVEX payload
`p0 p1 p2` is of the family pattern of R120 and otherwise anything (reserved bits, `L'L`, `z`, `b`). At most one segment
override stands among its prefixes: two are refused (30_encoding.md R87), and the spec does not say which of the two
comes first. A REX byte directly before a VEX or EVEX prefix is `RexBeforeVexCountsTowardLength`'s. -/
def Obligations.TooLongRaisesGp : Prop :=
  (∀ (s : State) (i : Instr), Running s → i.rm.wf = true → segCount i.pre ≤ 1 → 15 < i.ilen →
    (i.form.layout ≠ .legacy → endsInRex i.pre = false) → CodeAt s (encode i) →
    step s = .fault (.gp none s.pc) ∧ faultVector (.gp none s.pc) = 13 ∧
      faultErrorCode (.gp none s.pc) = some 0#32) ∧
  (∀ (s : State) (pre : List Prefix) (p0 p1 p2 : Byte) (reg : BitVec 3) (rm : Rm),
    Running s → rm.wf = true → segCount pre ≤ 1 → 15 < evexLen pre rm →
    endsInRex pre = false → CodeAt s (preBytes pre ++ [0x62#8, p0, p1, p2, 0xEF#8] ++ rmBytes reg rm) →
    p0.extractLsb' 0 2 = 1#2 → p1.extractLsb' 0 2 = 1#2 →
    step s = .fault (.gp none s.pc))

/-- The encoding conditions of 60_exceptions.md R177 raise #UD. First the prefixes: LOCK, F2 or F3 on any form,
and 66 or a directly preceding REX byte on a VEX or EVEX form. Then the EVEX payload `p0 p1 p2` of the family
pattern of R120: a reserved bit, `L'L = 11b`, `z = 1` with `aaa = 000b`, and `b = 1` with a register. At most one
segment override stands among the prefixes (30_encoding.md R87 refuses two). -/
def Obligations.EncodingConditionsRaiseUd : Prop :=
  (∀ (s : State) (i : Instr), Running s → i.rm.wf = true → segCount i.pre ≤ 1 → i.ilen ≤ 15 →
    CodeAt s (encode i) →
    (Prefix.lock ∈ i.pre ∨ Prefix.repne ∈ i.pre ∨ Prefix.rep ∈ i.pre ∨
      (i.form.layout ≠ .legacy ∧ (Prefix.opSize ∈ i.pre ∨ endsInRex i.pre = true))) →
    step s = .fault (.ud s.pc)) ∧
  (∀ (s : State) (pre : List Prefix) (p0 p1 p2 : Byte) (reg : BitVec 3) (rm : Rm),
    Running s → rm.wf = true → segCount pre ≤ 1 → evexLen pre rm ≤ 15 →
    CodeAt s (preBytes pre ++ [0x62#8, p0, p1, p2, 0xEF#8] ++ rmBytes reg rm) →
    p0.extractLsb' 0 2 = 1#2 → p1.extractLsb' 0 2 = 1#2 →
    (p0.extractLsb' 2 2 ≠ 0#2 ∨ p1.getLsbD 2 = false ∨ p2.extractLsb' 5 2 = 3#2 ∨
      (p2.getLsbD 7 = true ∧ p2.extractLsb' 0 3 = 0#3) ∨
      (p2.getLsbD 4 = true ∧ ∃ r, rm = .reg r)) →
    step s = .fault (.ud s.pc))

/-- Six bytes after the prefixes, however many, that match no row of 30_encoding.md R120 and not its EVEX family
pattern are refused, not faulted. -/
def Obligations.UnmatchedBytesRefused : Prop :=
  ∀ (s : State) (pre : List Prefix) (bs : List Byte), Running s → 6 ≤ bs.length →
    CodeAt s (preBytes pre ++ bs) → scanStopsAt bs = true → matchesRow (dropRex bs) = false →
    step s = .refused .notThisSpec

/-- A second segment override before an instruction that has one is refused. That this comes before the checks of
features and enables is the model's choice (log 10). -/
def Obligations.TwoSegmentOverridesRefused : Prop :=
  ∀ (s : State) (i : Instr) (g : Seg), Running s → i.wf = true → segCount i.pre = 1 → i.ilen ≤ 14 →
    CodeAt s ((Prefix.seg g).byte :: encode i) → step s = .refused .segOverrides

/-- The 3-byte VEX prefix with X = B = 0, and any W, has the effect of the 2-byte one, but for the advance of pc,
on every operand that is not relative to pc. -/
def Obligations.Vex3WithoutXBIsVex2 : Prop :=
  ∀ (s : State) (ymm : Bool) (pre : List Prefix) (v : Vex2) (w : Bool) (reg : BitVec 3) (rm : Rm),
    (∀ d, rm ≠ .mem (.rip d)) → NextPcOk s (vex2Len pre rm) → NextPcOk s (vex3Len pre rm) →
    mapNext (fun t => { t with pc := s.pc })
        (exec (vex3Instr ymm pre { r := v.r, x := false, b := false, w := w, vvvv := v.vvvv } reg rm) s) =
      mapNext (fun t => { t with pc := s.pc }) (exec (vex2Instr ymm pre v reg rm) s)

/-! ## The step -/

/-- When the bytes at pc decode to an instruction, the step is that instruction's meaning; nothing is added. -/
def Obligations.StepRunsDecoded : Prop :=
  ∀ (s : State) (bs : List Byte) (i : Instr), Running s → CodeAt s bs → decode bs = .instr i →
    step s = exec i s

/-- When a well-formed instruction's bytes stand at pc, the step runs it. -/
def Obligations.StepRunsEncoded : Prop :=
  ∀ (s : State) (i : Instr), Running s → i.wf = true → CodeAt s (encode i) → step s = exec i s

/-- No step happens outside 64-bit mode, with another agent, with an interrupt source, with debug registers
armed, or at the end of the run: each is refused by its own name. The order, and that the model holds these facts as
state, are its own choice (log 9). -/
def Obligations.NoStepOutsideARun : Prop :=
  ∀ s : State,
    (s.mode ≠ .mode64 → step s = .refused .notMode64) ∧
    (s.mode = .mode64 → s.cfg.env.otherWriter = true → step s = .refused .otherWriter) ∧
    (s.mode = .mode64 → s.cfg.env.otherWriter = false → s.cfg.env.asyncEvents = true →
      step s = .refused .asyncEvents) ∧
    (s.mode = .mode64 → s.cfg.env.otherWriter = false → s.cfg.env.asyncEvents = false →
      s.cfg.env.debugArmed = true → step s = .refused .debugArmed) ∧
    (s.mode = .mode64 → s.cfg.env.otherWriter = false → s.cfg.env.asyncEvents = false →
      s.cfg.env.debugArmed = false → s.pc = s.cfg.codeEnd → step s = .refused .runFinal)

/-- A byte of the instruction that cannot be fetched, and that the decoder needs, ends the step: #GP(0) for an
address that is not canonical, #PF with the code that the admission supplied, or the other admission answers. A code from
regions that keep R178 has bit 1 clear and bit 4 set. The place of those answers (log 12), and #GP(0) for a byte after
a canonical pc (log 17), are the model's choice. -/
def Obligations.FetchFault : Prop :=
  ∀ (s : State) (bs : List Byte), Running s → CodeAt s bs → decode bs = .more →
    let a := byteAddr s.pc bs.length
    (canonical s.cfg.vaBits a = false → step s = .fault (.gp (some a) s.pc)) ∧
    (canonical s.cfg.vaBits a = true →
      (∀ code, admissionOf s.cfg a .fetch = .pageFault code →
        step s = .fault (.pf code a s.pc) ∧
          (admissionLegal s.cfg = true → code.getLsbD 1 = false ∧ code.getLsbD 4 = true)) ∧
      (admissionOf s.cfg a .fetch = .generalProtection → step s = .fault (.gp (some a) s.pc)) ∧
      (admissionOf s.cfg a .fetch = .stackFault → step s = .fault (.ss a s.pc)) ∧
      (admissionOf s.cfg a .fetch = .device → step s = .refused (.deviceMemory a)))

/-- Every step keeps the invariant, whose clauses on bits that do not exist are the model's choice (log 3). -/
def Obligations.StepKeepsInvariant : Prop :=
  ∀ s t : State, Inv s → step s = .next t → Inv t

/-- The invariant holds at reset. It speaks of memory and configuration, whose reset values are the model's
choice (log 5, log 6). -/
def Obligations.InvariantAtReset : Prop := Inv State.reset

/-- The values of the power-up column of 10_state.md R40. RDX (a processor signature without a number) and memory
are not in it. -/
def Obligations.ResetValues : Prop :=
  (∀ r : BitVec 4, r ≠ 2#4 → gprAt State.reset r = 0#64) ∧
  State.reset.pc = 0xFFF0#64 ∧ State.reset.segs.cs = 0xFFFF0000#64 ∧ State.reset.mode = .realAddress ∧
  State.reset.rflags = 2#64 ∧ (∀ r : BitVec 5, vecAt State.reset r = 0#512) ∧
  (∀ r : BitVec 3, kAt State.reset r = 0#64 ∧ x87RegAt State.reset r = 0#80 ∧
    State.reset.x87.tag.get r.toFin = 1#2) ∧
  State.reset.mxcsr = 0x1F80#32 ∧ State.reset.x87.top = 0#3 ∧ State.reset.cr0 = 0x60000010#64 ∧
  State.reset.cr4 = 0#64 ∧ State.reset.xcr0 = 1#64

/-- An instruction that completes moves pc by its length, and the new pc neither wraps nor leaves the canonical
addresses; a register form that would complete where it does is refused (10_state.md R24; where the refusal stands
among the checks: log 11). -/
def Obligations.PcAdvance : Prop :=
  (∀ (i : Instr) (s t : State), exec i s = .next t →
    t.pc.toNat = s.pc.toNat + i.ilen ∧ canonical s.cfg.vaBits t.pc = true) ∧
  (∀ (i : Instr) (s : State) (r : BitVec 3), i.rm = .reg r → Enabled i.form s → ¬ NextPcOk s i.ilen →
    exec i s = .refused .pcOutOfRange)

/-- A step stores nothing: every byte of memory reads as before. -/
def Obligations.StepStoresNothing : Prop :=
  ∀ s t : State, step s = .next t → ∀ a : Nat, t.mem.read a = s.mem.read a

/-- A step leaves the opmask and control registers, the privilege level, the mode, the segment bases, the
configuration and a pending x87 exception as they were. -/
def Obligations.StepLeavesControlState : Prop :=
  ∀ s t : State, step s = .next t →
    t.k = s.k ∧ t.cr0 = s.cr0 ∧ t.cr4 = s.cr4 ∧ t.xcr0 = s.xcr0 ∧ t.cpl = s.cpl ∧ t.mode = s.mode ∧
      t.segs = s.segs ∧ t.cfg = s.cfg ∧ t.x87.pending = s.x87.pending

/-- No form reads or writes MXCSR, and none raises a SIMD floating-point exception (vector 19). -/
def Obligations.MxcsrUntouched : Prop :=
  ∀ (s : State) (m : BitVec 32),
    step { s with mxcsr := m } = mapNext (fun t => { t with mxcsr := m }) (step s) ∧
    (∀ t, step s = .next t → t.mxcsr = s.mxcsr) ∧
    (∀ f, step s = .fault f → faultVector f ≠ 19)

/-- No form reads or writes a bit of RFLAGS, but that RFLAGS.AC is an input of alignment checking: another RFLAGS
with the same AC bit changes nothing, and so does any other RFLAGS while the other two inputs are not set. -/
def Obligations.RflagsUntouched : Prop :=
  ∀ (s : State) (f : BitVec 64),
    (f.getLsbD 18 = s.rflags.getLsbD 18 ∨ s.cr0.getLsbD 18 = false ∨ s.cpl ≠ 3#2) →
    step { s with rflags := f } = mapNext (fun t => { t with rflags := f }) (step s) ∧
    (∀ t, step s = .next t → t.rflags = s.rflags)

/-- No form writes a general register, and a form reads only the base and index registers of its memory operand:
none, with a register operand. -/
def Obligations.GeneralRegistersOnlyAddress : Prop :=
  ∀ (i : Instr) (s : State) (g : Vector Quad 16),
    (∀ t, exec i s = .next t → t.gpr = s.gpr) ∧
    ((∀ r ∈ addrRegs i, g.get r.toFin = gprAt s r) →
      exec i { s with gpr := g } = mapNext (fun t => { t with gpr := g }) (exec i s))

/-- F1, when it completes, sets TOP to 0, every tag to valid and the high bits of the register it writes; the other
forms touch no x87 and no MMX state. -/
def Obligations.X87SideEffects : Prop :=
  ∀ (i : Instr) (s t : State), exec i s = .next t →
    match i with
    | .pxorMm _ _ reg _ =>
      t.x87.top = 0#3 ∧ (∀ r : BitVec 3, t.x87.tag.get r.toFin = 0#2) ∧
        ∀ r : BitVec 3, t.x87.hi.get r.toFin = if r = reg then 0xFFFF#16 else s.x87.hi.get r.toFin
    | _ => t.x87 = s.x87 ∧ t.mm = s.mm

/-- The 80-bit x87 data registers after F1 completes: the destination has all ones above the MMX result, the others
are as before. -/
def Obligations.X87DataRegisters : Prop :=
  ∀ (pre : List Prefix) (rex : Option Rex) (reg : BitVec 3) (rm : Rm) (s t : State),
    exec (.pxorMm pre rex reg rm) s = .next t →
    x87RegAt t reg = 0xFFFF#16 ++ mmAt t reg ∧ ∀ r, r ≠ reg → x87RegAt t r = x87RegAt s r

/-! ## Results -/

/-- F1 with a register source. -/
def Obligations.PxorMmRegister : Prop :=
  ∀ (s : State) (pre : List Prefix) (rex : Option Rex) (d r : BitVec 3),
    let i := Instr.pxorMm pre rex d (.reg r)
    i.wf = true → Enabled .f1 s → NextPcOk s i.ilen →
    exec i s = .next { s with
      mm := s.mm.set d.toFin (mmAt s d ^^^ mmAt s r)
      x87 := { s.x87 with
        top := 0#3, tag := Vector.replicate 8 0#2, hi := s.x87.hi.set d.toFin 0xFFFF#16 }
      pc := s.pc + BitVec.ofNat 64 i.ilen }

/-- F1 with a memory source: 8 bytes at the linear address, at any alignment unless alignment checking is
armed. -/
def Obligations.PxorMmMemory : Prop :=
  ∀ (s : State) (pre : List Prefix) (rex : Option Rex) (d : BitVec 3) (m : Mem),
    let i := Instr.pxorMm pre rex d (.mem m)
    let la := operandAddr s i m
    i.wf = true → Enabled .f1 s → NextPcOk s i.ilen → Readable s la 8 →
    (alignCheck s = true → la.toNat % 8 = 0) →
    exec i s = .next { s with
      mm := s.mm.set d.toFin (mmAt s d ^^^ (readLE s.mem la 8).setWidth 64)
      x87 := { s.x87 with
        top := 0#3, tag := Vector.replicate 8 0#2, hi := s.x87.hi.set d.toFin 0xFFFF#16 }
      pc := s.pc + BitVec.ofNat 64 i.ilen }

/-- F2 with a register source: bits 127:0 are replaced and the bits above are kept. -/
def Obligations.PxorXmmRegister : Prop :=
  ∀ (s : State) (pre : List Prefix) (rex : Option Rex) (reg r : BitVec 3),
    let i := Instr.pxorXmm pre rex reg (.reg r)
    let d := lowVec (regNum4 (rexR rex) reg)
    i.wf = true → Enabled .f2 s → NextPcOk s i.ilen →
    ∃ v : VecWord,
      exec i s = .next { s with vec := s.vec.set d.toFin v, pc := s.pc + BitVec.ofNat 64 i.ilen } ∧
      v.extractLsb' 0 128 =
        (vecAt s d).extractLsb' 0 128 ^^^ (vecAt s (lowVec (regNum4 (rexB rex) r))).extractLsb' 0 128 ∧
      v.extractLsb' 128 384 = (vecAt s d).extractLsb' 128 384

/-- F2 with a memory source: 16 bytes at a linear address that is a multiple of 16. -/
def Obligations.PxorXmmMemory : Prop :=
  ∀ (s : State) (pre : List Prefix) (rex : Option Rex) (reg : BitVec 3) (m : Mem),
    let i := Instr.pxorXmm pre rex reg (.mem m)
    let d := lowVec (regNum4 (rexR rex) reg)
    let la := operandAddr s i m
    i.wf = true → Enabled .f2 s → NextPcOk s i.ilen → Readable s la 16 → la.toNat % 16 = 0 →
    ∃ v : VecWord,
      exec i s = .next { s with vec := s.vec.set d.toFin v, pc := s.pc + BitVec.ofNat 64 i.ilen } ∧
      v.extractLsb' 0 128 = (vecAt s d).extractLsb' 0 128 ^^^ (readLE s.mem la 16).setWidth 128 ∧
      v.extractLsb' 128 384 = (vecAt s d).extractLsb' 128 384

/-- F3 and F4 with a register source, 3-byte and 2-byte prefix: the XOR of the low VL bits, zero above. -/
def Obligations.VpxorRegister : Prop :=
  ∀ (s : State) (ymm : Bool) (pre : List Prefix) (reg r : BitVec 3), Enabled (vexForm ymm) s →
    (∀ v : Vex3,
      let i := vex3Instr ymm pre v reg (.reg r)
      i.wf = true → NextPcOk s i.ilen →
      exec i s = .next { s with
        vec := s.vec.set (lowVec (regNum4 v.r reg)).toFin
          (((vecAt s (lowVec v.vvvv) ^^^ vecAt s (lowVec (regNum4 v.b r))).setWidth (vexBits ymm)).setWidth 512)
        pc := s.pc + BitVec.ofNat 64 i.ilen }) ∧
    (∀ v : Vex2,
      let i := vex2Instr ymm pre v reg (.reg r)
      i.wf = true → NextPcOk s i.ilen →
      exec i s = .next { s with
        vec := s.vec.set (lowVec (regNum4 v.r reg)).toFin
          (((vecAt s (lowVec v.vvvv) ^^^ vecAt s (lowVec (regNum4 false r))).setWidth (vexBits ymm)).setWidth 512)
        pc := s.pc + BitVec.ofNat 64 i.ilen })

/-- F3 and F4 with a memory source, 3-byte and 2-byte prefix: VL / 8 bytes at the linear address, at any alignment
unless alignment checking is armed. -/
def Obligations.VpxorMemory : Prop :=
  ∀ (s : State) (ymm : Bool) (pre : List Prefix) (reg : BitVec 3) (m : Mem), Enabled (vexForm ymm) s →
    (∀ v : Vex3,
      let i := vex3Instr ymm pre v reg (.mem m)
      let n := vexBits ymm / 8
      let la := operandAddr s i m
      i.wf = true → NextPcOk s i.ilen → Readable s la n → (alignCheck s = true → la.toNat % n = 0) →
      exec i s = .next { s with
        vec := s.vec.set (lowVec (regNum4 v.r reg)).toFin
          (((vecAt s (lowVec v.vvvv)).setWidth (vexBits ymm) ^^^
            (readLE s.mem la n).setWidth (vexBits ymm)).setWidth 512)
        pc := s.pc + BitVec.ofNat 64 i.ilen }) ∧
    (∀ v : Vex2,
      let i := vex2Instr ymm pre v reg (.mem m)
      let n := vexBits ymm / 8
      let la := operandAddr s i m
      i.wf = true → NextPcOk s i.ilen → Readable s la n → (alignCheck s = true → la.toNat % n = 0) →
      exec i s = .next { s with
        vec := s.vec.set (lowVec (regNum4 v.r reg)).toFin
          (((vecAt s (lowVec v.vvvv)).setWidth (vexBits ymm) ^^^
            (readLE s.mem la n).setWidth (vexBits ymm)).setWidth 512)
        pc := s.pc + BitVec.ofNat 64 i.ilen })

/-- F5 to F10: the masked element loop of 42_vpxord_vpxorq_evex.md R150, the second-source elements as R151 gives
them, for a register, a full memory operand and a broadcast one. -/
def Obligations.EvexElementLoop : Prop :=
  ∀ (s : State) (e : ElemSize) (vl : VLen) (pre : List Prefix) (ev : Evex) (reg : BitVec 3) (rm : Rm),
    let i := evexInstr e vl pre ev reg rm
    let d := regNum5 ev.rHi ev.r reg
    let s1 : BitVec 5 := BitVec.ofBool ev.vHi ++ ev.vvvv
    let e2 : Nat → BitVec e.bits := fun j =>
      match rm with
      | .reg r => elemAt e (vecAt s (regNum5 ev.x ev.b r)) j
      | .mem m =>
        (readLE s.mem (byteAddr (operandAddr s i m) (if ev.bcast then 0 else j * (e.bits / 8)))
          (e.bits / 8)).setWidth e.bits
    i.wf = true → Enabled (evexForm e vl) s → NextPcOk s i.ilen →
    (∀ m, rm = .mem m →
      Readable s (operandAddr s i m) (operandBytes i) ∧
        (alignCheck s = true → (operandAddr s i m).toNat % operandBytes i = 0)) →
    ∃ v : VecWord,
      exec i s = .next { s with vec := s.vec.set d.toFin v, pc := s.pc + BitVec.ofNat 64 i.ilen } ∧
      (∀ j, j < elemCount e vl →
        elemAt e v j =
          if ev.aaa = 0#3 ∨ (kAt s ev.aaa).getLsbD j = true then elemAt e (vecAt s s1) j ^^^ e2 j
          else if ev.z then 0
          else elemAt e (vecAt s d) j) ∧
      v >>> vl.bits = 0#512

/-- A masked memory operand some of whose masked-off bytes cannot be read (20_memory.md R61). With fault
suppression the step completes as if they could be read: only active elements are read. Without it the step is
refused. In both the bytes of the active elements can be read. -/
def Obligations.MaskedOperand : Prop :=
  ∀ (s : State) (e : ElemSize) (vl : VLen) (pre : List Prefix) (ev : Evex) (reg : BitVec 3) (m : Mem),
    let i := evexInstr e vl pre ev reg (.mem m)
    let d := regNum5 ev.rHi ev.r reg
    let s1 : BitVec 5 := BitVec.ofBool ev.vHi ++ ev.vvvv
    let la := operandAddr s i m
    let active := fun j => ev.aaa = 0#3 ∨ (kAt s ev.aaa).getLsbD j = true
    let touched := fun b =>
      if ev.bcast then ∃ j, j < elemCount e vl ∧ active j else active (b / (e.bits / 8))
    i.wf = true → Enabled (evexForm e vl) s → NextPcOk s i.ilen → alignCheck s = false →
    (∀ b, b < operandBytes i → touched b → byteReadable s la b = true) →
    (s.cfg.faultSuppression = true →
      ∃ v : VecWord,
        exec i s = .next { s with vec := s.vec.set d.toFin v, pc := s.pc + BitVec.ofNat 64 i.ilen } ∧
        (∀ j, j < elemCount e vl → active j →
          elemAt e v j = elemAt e (vecAt s s1) j ^^^
            (readLE s.mem (byteAddr la (if ev.bcast then 0 else j * (e.bits / 8))) (e.bits / 8)).setWidth
              e.bits) ∧
        (∀ j, j < elemCount e vl → ¬ active j →
          elemAt e v j = if ev.z then 0 else elemAt e (vecAt s d) j) ∧
        v >>> vl.bits = 0#512) ∧
    (s.cfg.faultSuppression = false →
      (∃ b, b < operandBytes i ∧ byteReadable s la b = false) →
      exec i s = .refused .maskedInadmissible)

/-- One register as both sources: every computed element is 0, and the rest of the destination is each form's
own rule. -/
def Obligations.SameRegisterGivesZero : Prop :=
  (∀ (s t : State) (pre : List Prefix) (rex : Option Rex) (d : BitVec 3),
    exec (.pxorMm pre rex d (.reg d)) s = .next t → mmAt t d = 0#64) ∧
  (∀ (s t : State) (pre : List Prefix) (rex : Option Rex) (reg r : BitVec 3),
    regNum4 (rexR rex) reg = regNum4 (rexB rex) r → exec (.pxorXmm pre rex reg (.reg r)) s = .next t →
    vecAt t (lowVec (regNum4 (rexR rex) reg)) =
      (vecAt s (lowVec (regNum4 (rexR rex) reg))).extractLsb' 128 384 ++ 0#128) ∧
  (∀ (s t : State) (ymm : Bool) (pre : List Prefix) (v : Vex3) (reg r : BitVec 3),
    v.vvvv = regNum4 v.b r → exec (vex3Instr ymm pre v reg (.reg r)) s = .next t →
    vecAt t (lowVec (regNum4 v.r reg)) = 0#512) ∧
  (∀ (s t : State) (ymm : Bool) (pre : List Prefix) (v : Vex2) (reg r : BitVec 3),
    v.vvvv = regNum4 false r → exec (vex2Instr ymm pre v reg (.reg r)) s = .next t →
    vecAt t (lowVec (regNum4 v.r reg)) = 0#512) ∧
  (∀ (s t : State) (e : ElemSize) (vl : VLen) (pre : List Prefix) (ev : Evex) (reg r : BitVec 3),
    BitVec.ofBool ev.vHi ++ ev.vvvv = regNum5 ev.x ev.b r →
    exec (evexInstr e vl pre ev reg (.reg r)) s = .next t →
    (∀ j, j < elemCount e vl →
      elemAt e (vecAt t (regNum5 ev.rHi ev.r reg)) j =
        if (ev.aaa = 0#3 ∨ (kAt s ev.aaa).getLsbD j = true) ∨ ev.z then 0
        else elemAt e (vecAt s (regNum5 ev.rHi ev.r reg)) j) ∧
    vecAt t (regNum5 ev.rHi ev.r reg) >>> vl.bits = 0#512)

/-- Without a writemask and without broadcast, `VPXORD` and `VPXORQ` of one length do the same on every state. -/
def Obligations.DwordIsQwordUnmasked : Prop :=
  ∀ (s : State) (vl : VLen) (pre : List Prefix) (ev : Evex) (reg : BitVec 3) (rm : Rm),
    ev.aaa = 0#3 → ev.bcast = false →
    exec (evexInstr .dword vl pre ev reg rm) s = exec (evexInstr .qword vl pre ev reg rm) s

/-- A writemask whose bits KL-1:0 are all ones does what no writemask does. -/
def Obligations.AllOnesMaskIsNoMask : Prop :=
  ∀ (s : State) (e : ElemSize) (vl : VLen) (pre : List Prefix) (ev : Evex) (reg : BitVec 3) (rm : Rm),
    (∀ j, j < elemCount e vl → (kAt s ev.aaa).getLsbD j = true) →
    exec (evexInstr e vl pre ev reg rm) s =
      exec (evexInstr e vl pre { ev with aaa := 0#3, z := false } reg rm) s

/-- A writemask whose bits KL-1:0 are all zero: under merging the low VL bits are kept, under zeroing they are 0;
the bits above are 0 in both. -/
def Obligations.AllZeroMask : Prop :=
  ∀ (s t : State) (e : ElemSize) (vl : VLen) (pre : List Prefix) (ev : Evex) (reg : BitVec 3) (rm : Rm),
    ev.aaa ≠ 0#3 → (∀ j, j < elemCount e vl → (kAt s ev.aaa).getLsbD j = false) →
    exec (evexInstr e vl pre ev reg rm) s = .next t →
    vecAt t (regNum5 ev.rHi ev.r reg) =
      if ev.z then 0#512 else ((vecAt s (regNum5 ev.rHi ev.r reg)).setWidth vl.bits).setWidth 512

/-- `PXOR xmm` against `VPXOR xmm` on the same registers with the first source as destination: the same bits 127:0,
the bits above kept by the first and zeroed by the second. On a misaligned memory operand the first raises #GP(0)
and the second completes, alignment checking not being armed. -/
def Obligations.LegacyAgainstVex : Prop :=
  (∀ (s t u : State) (pre : List Prefix) (rex : Option Rex) (pre' : List Prefix) (v : Vex3)
      (reg r reg' r' : BitVec 3),
    regNum4 v.r reg' = regNum4 (rexR rex) reg → v.vvvv = regNum4 (rexR rex) reg →
    regNum4 v.b r' = regNum4 (rexB rex) r →
    exec (.pxorXmm pre rex reg (.reg r)) s = .next t → exec (.vpxorXmmVex3 pre' v reg' (.reg r')) s = .next u →
    let d := lowVec (regNum4 (rexR rex) reg)
    (vecAt t d).extractLsb' 0 128 = (vecAt u d).extractLsb' 0 128 ∧
      (vecAt t d).extractLsb' 128 384 = (vecAt s d).extractLsb' 128 384 ∧
      (vecAt u d).extractLsb' 128 384 = 0#384) ∧
  (∀ (s : State) (pre : List Prefix) (rex : Option Rex) (reg : BitVec 3) (m : Mem),
    let i := Instr.pxorXmm pre rex reg (.mem m)
    Enabled .f2 s → (∀ j, j < 16 → byteCanonical s (operandAddr s i m) j = true) →
    (operandAddr s i m).toNat % 16 ≠ 0 →
    ∃ a, exec i s = .fault (.gp a s.pc)) ∧
  (∀ (s : State) (pre : List Prefix) (v : Vex3) (reg : BitVec 3) (m : Mem),
    let i := Instr.vpxorXmmVex3 pre v reg (.mem m)
    Enabled .f3 s → NextPcOk s i.ilen → alignCheck s = false → Readable s (operandAddr s i m) 16 →
    ∃ t, exec i s = .next t)

/-- Twice the same XOR gives the destination back: `PXOR mm` and the low 128 bits of `PXOR xmm`, with a source
register that is not the destination. -/
def Obligations.XorTwiceRestores : Prop :=
  (∀ (s t u : State) (pre : List Prefix) (rex : Option Rex) (d r : BitVec 3), r ≠ d →
    exec (.pxorMm pre rex d (.reg r)) s = .next t → exec (.pxorMm pre rex d (.reg r)) t = .next u →
    u.mm = s.mm) ∧
  (∀ (s t u : State) (pre : List Prefix) (rex : Option Rex) (reg r : BitVec 3),
    regNum4 (rexB rex) r ≠ regNum4 (rexR rex) reg →
    exec (.pxorXmm pre rex reg (.reg r)) s = .next t → exec (.pxorXmm pre rex reg (.reg r)) t = .next u →
    u.vec = s.vec)

/-- The linear address of a memory operand, computed in integers from the tables of 20_memory.md R54, R56 and
R57 and the scale N of 30_encoding.md R116, for every addressing mode; and no addressing mode changes a general register. -/
def Obligations.OperandAddress : Prop :=
  ∀ (s : State) (i : Instr) (m : Mem), i.wf = true → i.rm = .mem m →
    ((operandAddr s i m).toNat : Int) = addrInt s i m ∧ ∀ t, exec i s = .next t → t.gpr = s.gpr

/-- 67 before an instruction with a register operand, and a CS, DS, ES or SS override (the only override) before an
instruction whose operand is not relative to pc, have no effect but on the length. -/
def Obligations.PrefixesWithoutEffect : Prop :=
  ∀ (s : State) (i : Instr) (p : Prefix),
    ((p = .addrSize ∧ ∃ r, i.rm = .reg r) ∨
      (p ∈ [Prefix.seg .cs, .seg .ds, .seg .es, .seg .ss] ∧ segCount i.pre = 0 ∧
        ∀ d, i.rm ≠ .mem (.rip d))) →
    NextPcOk s i.ilen → NextPcOk s (i.ilen + 1) →
    mapNext (fun t => { t with pc := s.pc }) (exec (addPrefix p i) s) =
        mapNext (fun t => { t with pc := s.pc }) (exec i s) ∧
      (addPrefix p i).ilen = i.ilen + 1

/-! ## Exceptions -/

/-- A form whose CPUID flags are not all present raises #UD. -/
def Obligations.FeatureAbsentRaisesUd : Prop :=
  ∀ (i : Instr) (s : State), ¬ FeaturePresent i.form s.cfg.cpuid → exec i s = .fault (.ud s.pc)

/-- A form the operating system has not enabled raises #UD, and the VEX forms consult neither CR0.EM nor
CR4.OSFXSR. -/
def Obligations.NotEnabledRaisesUd : Prop :=
  (∀ (i : Instr) (s : State), ¬ OsEnabled i.form s → exec i s = .fault (.ud s.pc)) ∧
  (∀ (i : Instr) (s : State) (c0 c4 : BitVec 64), i.form.layout = .vex →
    (∀ b, b ≠ 2 → c0.getLsbD b = s.cr0.getLsbD b) → (∀ b, b ≠ 9 → c4.getLsbD b = s.cr4.getLsbD b) →
    exec i { s with cr0 := c0, cr4 := c4 } =
      mapNext (fun t => { t with cr0 := c0, cr4 := c4 }) (exec i s))

/-- CR0.TS = 1, and no #UD condition, raises #NM in every form. -/
def Obligations.TaskSwitchedRaisesNm : Prop :=
  ∀ (i : Instr) (s : State), FeaturePresent i.form s.cfg.cpuid → OsEnabled i.form s →
    s.cr0.getLsbD 3 = true → exec i s = .fault (.nm s.pc)

/-- A pending x87 exception raises #MF in F1; no other form raises #MF. -/
def Obligations.PendingX87RaisesMf : Prop :=
  (∀ (s : State) (pre : List Prefix) (rex : Option Rex) (reg : BitVec 3) (rm : Rm),
    FeaturePresent .f1 s.cfg.cpuid → OsEnabled .f1 s → s.cr0.getLsbD 3 = false → s.x87.pending = true →
    exec (.pxorMm pre rex reg rm) s = .fault (.mf s.pc)) ∧
  (∀ (i : Instr) (s : State) (p : Quad), exec i s = .fault (.mf p) → i.form = .f1)

/-- Alignment checking: when it is armed; #AC(0) of F1, and of no other form; the refusal of F3 to F10; and that
aligned operands and register operands meet neither. -/
def Obligations.AlignmentChecking : Prop :=
  (∀ s : State, alignCheck s = true ↔
    s.cr0.getLsbD 18 = true ∧ s.rflags.getLsbD 18 = true ∧ s.cpl = 3#2) ∧
  (∀ (s : State) (i : Instr) (m : Mem), i.rm = .mem m → Enabled i.form s → alignCheck s = true →
    Readable s (operandAddr s i m) (operandBytes i) → (operandAddr s i m).toNat % operandBytes i ≠ 0 →
    (i.form = .f1 → ∃ a, exec i s = .fault (.ac a s.pc)) ∧
    (i.form = .f2 → ∃ a, exec i s = .fault (.gp a s.pc)) ∧
    (i.form ≠ .f1 → i.form ≠ .f2 → exec i s = .refused .alignCheckOpen)) ∧
  (∀ (s : State) (i : Instr),
    (∃ a p, exec i s = .fault (.ac a p)) ∨ exec i s = .refused .alignCheckOpen →
    alignCheck s = true ∧ i.form ≠ .f2 ∧
      ∃ m, i.rm = .mem m ∧ (operandAddr s i m).toNat % operandBytes i ≠ 0) ∧
  (∀ (s : State) (i : Instr) (a p : Quad), exec i s = .fault (.ac a p) → i.form = .f1)

/-- A canonical address has bits 63 to vaBits-1 equal. An operand range with an accessed byte whose address is not
canonical, or that wraps past 2^64, ends the step: #SS(0) for the stack-segment class (no FS or GS override, base RSP
or RBP), else #GP(0). -/
def Obligations.NonCanonicalOperand : Prop :=
  (∀ (v : VaBits) (a : Quad), canonical v a = true ↔
    ∀ b, v.bits - 1 ≤ b → b < 64 → a.getLsbD b = a.getLsbD 63) ∧
  (∀ (s : State) (i : Instr) (m : Mem) (j : Nat), i.wf = true → i.rm = .mem m → Enabled i.form s →
    j < operandBytes i → operandActive s i j = true →
    (2 ^ 64 ≤ (operandAddr s i m).toNat + j ∨
      canonical s.cfg.vaBits (byteAddr (operandAddr s i m) j) = false) →
    (StackSegment i m → ∃ a, exec i s = .fault (.ss a s.pc)) ∧
      (¬ StackSegment i m → ∃ a, exec i s = .fault (.gp (some a) s.pc)))

/-- The lowest accessed byte of a canonical operand (16-byte aligned for F2) that is not admitted ends the step with
its admission answer: #PF with its own address and the code that the admission supplied, another fault, or the
refusal of device memory. A code from regions that keep 60_exceptions.md R178 has bits 1 and 4 clear (bit 4: log 8).
The place of the other answers (log 12), and that a lower masked-off byte does not count (log 13), are the model's
choice. -/
def Obligations.NotAdmittedOperand : Prop :=
  ∀ (s : State) (i : Instr) (m : Mem) (j : Nat), i.rm = .mem m → Enabled i.form s →
    (∀ b, b < operandBytes i → operandActive s i b = true →
      byteCanonical s (operandAddr s i m) b = true) →
    (i.form = .f2 → (operandAddr s i m).toNat % 16 = 0) →
    j < operandBytes i → operandActive s i j = true →
    (∀ b, b < j → operandActive s i b = true →
      admissionOf s.cfg (byteAddr (operandAddr s i m) b) .read = .ok) →
    let a := byteAddr (operandAddr s i m) j
    (∀ code, admissionOf s.cfg a .read = .pageFault code →
      exec i s = .fault (.pf code a s.pc) ∧
        (admissionLegal s.cfg = true → code.getLsbD 1 = false ∧ code.getLsbD 4 = false)) ∧
    (admissionOf s.cfg a .read = .generalProtection → exec i s = .fault (.gp (some a) s.pc)) ∧
    (admissionOf s.cfg a .read = .stackFault → exec i s = .fault (.ss a s.pc)) ∧
    (admissionOf s.cfg a .read = .device → exec i s = .refused (.deviceMemory a))

/-- Every fault of a step carries the pc of the instruction, and is one of the seven of 60_exceptions.md R178. -/
def Obligations.FaultCarriesPc : Prop :=
  ∀ (s : State) (f : Fault), step s = .fault f →
    faultPc f = s.pc ∧ faultVector f ∈ [6, 7, 12, 13, 14, 16, 17]

/-- A form with a register operand raises #UD, #NM or #MF and nothing else, and is refused only for pc. -/
def Obligations.RegisterFormFaults : Prop :=
  ∀ (i : Instr) (s : State) (r : BitVec 3), i.rm = .reg r →
    (∀ f, exec i s = .fault f → f = .ud s.pc ∨ f = .nm s.pc ∨ f = .mf s.pc) ∧
    (∀ e, exec i s = .refused e → e = .pcOutOfRange)

/-- Under the launch premises an instruction raises memory faults only, and a register form completes. -/
def Obligations.LaunchedInstructionFaults : Prop :=
  ∀ (i : Instr) (s : State), Enabled i.form s → alignCheck s = false →
    (∀ f, exec i s = .fault f → faultVector f ∈ [12, 13, 14] ∧ ∃ m, i.rm = .mem m) ∧
    (∀ r, i.rm = .reg r → NextPcOk s i.ilen → ∃ t, exec i s = .next t)

/-- The first instruction of a launched program: the step runs it; only memory faults remain, and only of a memory
operand; a register form completes; and a completed one leaves pc past its own bytes, at codeEnd exactly if it was
the last. -/
def Obligations.LaunchedStep : Prop :=
  ∀ (s : State) (i : Instr) (rest : List Instr), Launched s (i :: rest) → i.wf = true →
    step s = exec i s ∧
    (∀ f, step s = .fault f → faultVector f ∈ [12, 13, 14] ∧ ∃ m, i.rm = .mem m) ∧
    (∀ r, i.rm = .reg r → ∃ t, step s = .next t) ∧
    (∀ t, step s = .next t →
      t.pc.toNat = s.cfg.codeBase.toNat + i.ilen ∧ (t.pc = t.cfg.codeEnd ↔ rest = []))

/-- Placing a table word that is an instruction makes a launch state for that one instruction, and keeps the
invariant, if the processor has its features and 15 bytes from pc end at a canonical address. That a load does this is
the model's choice (log 1). -/
def Obligations.PlacedWordIsLaunched : Prop :=
  ∀ (s : State) (nbits w : Nat) (i : Instr), Inv s → nbits ≤ 120 → decodeTableWord nbits w = some i →
    FeaturePresent i.form s.cfg.cpuid → NextPcOk s 15 →
    Launched (s.withFetchWord nbits w) [i] ∧ Inv (s.withFetchWord nbits w)

/-- An instruction is refused only for the reasons the spec gives: device memory, a mask that hides an unreadable
byte, alignment checking, or pc. -/
def Obligations.RefusalsOfInstructions : Prop :=
  ∀ (i : Instr) (s : State) (e : Refusal), exec i s = .refused e →
    (∃ a, e = .deviceMemory a) ∨ e = .maskedInadmissible ∨ e = .alignCheckOpen ∨ e = .pcOutOfRange

/-- A REX byte directly before a VEX or EVEX prefix counts toward the 15 bytes: with more than 15 the step ends in
#GP(0), and not in the #UD of 30_encoding.md R121 row 3. The sum of R118 has no term for that byte; that it counts is
the model's choice (log 16). -/
def Obligations.RexBeforeVexCountsTowardLength : Prop :=
  (∀ (s : State) (i : Instr), Running s → i.rm.wf = true → segCount i.pre ≤ 1 → 15 < i.ilen →
    i.form.layout ≠ .legacy → endsInRex i.pre = true → CodeAt s (encode i) →
    step s = .fault (.gp none s.pc)) ∧
  (∀ (s : State) (pre : List Prefix) (p0 p1 p2 : Byte) (reg : BitVec 3) (rm : Rm),
    Running s → rm.wf = true → segCount pre ≤ 1 → 15 < evexLen pre rm →
    endsInRex pre = true → CodeAt s (preBytes pre ++ [0x62#8, p0, p1, p2, 0xEF#8] ++ rmBytes reg rm) →
    p0.extractLsb' 0 2 = 1#2 → p1.extractLsb' 0 2 = 1#2 →
    step s = .fault (.gp none s.pc))

end Statements
end

