-- ==== Sys2Proof/Laws/Elements.lean ====
section
/-! SUPPORT. The element loop of 42_vpxord_vpxorq_evex.md R150: the elements of a built vector, and nothing
above them. -/

namespace Sys2Proof.Machine

theorem elemBits_pos (e : ElemSize) : 0 < e.bits := by cases e <;> decide

/-- The elements fill the vector length. -/
theorem elemCount_mul (e : ElemSize) (vl : VLen) : elemCount e vl * e.bits = vl.bits := by
  cases e <;> cases vl <;> rfl

/-- Bit `i` of a built vector is bit `i % E` of element `i / E`. -/
theorem buildElems_getLsbD (e : ElemSize) (f : Nat → BitVec e.bits) (n i : Nat) (hn : n * e.bits ≤ 512) :
    (buildElems e f n).getLsbD i =
      (decide (i < n * e.bits) && (f (i / e.bits)).getLsbD (i % e.bits)) := by
  have hp := elemBits_pos e
  induction n with
  | zero => simp [buildElems]
  | succ n ih =>
    have hs : (n + 1) * e.bits = n * e.bits + e.bits := Nat.succ_mul n e.bits
    rw [buildElems, BitVec.getLsbD_or, ih (by omega), BitVec.getLsbD_shiftLeft, BitVec.getLsbD_setWidth]
    by_cases h1 : i < n * e.bits
    · have h2 : i < (n + 1) * e.bits := by omega
      simp [h1, h2]
    · by_cases h2 : i < (n + 1) * e.bits
      · have h3 : i / e.bits = n := by
          rw [Nat.div_eq_iff hp]; omega
        have h4 : i % e.bits = i - n * e.bits := by
          have := Nat.div_add_mod i e.bits
          rw [h3, Nat.mul_comm] at this; omega
        have h5 : i < 512 := by omega
        have h6 : i - n * e.bits < 512 := by omega
        simp [h1, h2, h3, h4, h5, h6]
      · have h3 : e.bits ≤ i - n * e.bits := by omega
        simp [h1, h2, BitVec.getLsbD_of_ge _ _ h3]

/-- Element `j` of a built vector. -/
theorem elemAt_buildElems (e : ElemSize) (f : Nat → BitVec e.bits) (n j : Nat) (hn : n * e.bits ≤ 512)
    (hj : j < n) : elemAt e (buildElems e f n) j = f j := by
  have hp := elemBits_pos e
  apply BitVec.eq_of_getLsbD_eq
  intro k hk
  have h1 : j * e.bits + k < n * e.bits := by
    have : (j + 1) * e.bits ≤ n * e.bits := Nat.mul_le_mul_right _ hj
    rw [Nat.succ_mul] at this; omega
  have h2 : (j * e.bits + k) / e.bits = j := by
    rw [Nat.mul_comm, Nat.mul_add_div hp, Nat.div_eq_of_lt hk, Nat.add_zero]
  have h3 : (j * e.bits + k) % e.bits = k := by
    rw [Nat.mul_comm, Nat.mul_add_mod, Nat.mod_eq_of_lt hk]
  simp [elemAt, buildElems_getLsbD e f n _ hn, h1, h2, h3, hk]

/-- A built vector is zero above its elements. -/
theorem buildElems_shift (e : ElemSize) (f : Nat → BitVec e.bits) (n : Nat) (hn : n * e.bits ≤ 512) :
    buildElems e f n >>> (n * e.bits) = 0#512 := by
  apply BitVec.eq_of_getLsbD_eq
  intro k _
  simp [buildElems_getLsbD e f n _ hn]

/-- A built vector whose elements are those of `v`, over the whole of a length that holds all of `v`. -/
theorem buildElems_congr (e : ElemSize) (f g : Nat → BitVec e.bits) (n : Nat) (h : ∀ j, j < n → f j = g j) :
    buildElems e f n = buildElems e g n := by
  induction n with
  | zero => rfl
  | succ n ih =>
    rw [buildElems, buildElems, ih fun j hj => h j (by omega), h n (by omega)]

/-- Element `j` of the masked XOR (R150). -/
theorem elemAt_maskedXor (e : ElemSize) (vl : VLen) (active : Nat → Bool) (z : Bool) (old src1 : VecWord)
    (e2 : Nat → BitVec e.bits) (j : Nat) (hj : j < elemCount e vl) :
    elemAt e (maskedXor e vl active z old src1 e2) j =
      if active j then elemAt e src1 j ^^^ e2 j else if z then 0 else elemAt e old j :=
  elemAt_buildElems e _ _ j (by rw [elemCount_mul]; cases vl <;> decide) hj

/-- The masked XOR is zero at and above VL (R150). -/
theorem maskedXor_shift (e : ElemSize) (vl : VLen) (active : Nat → Bool) (z : Bool) (old src1 : VecWord)
    (e2 : Nat → BitVec e.bits) : maskedXor e vl active z old src1 e2 >>> vl.bits = 0#512 := by
  have := buildElems_shift e
    (fun j => if active j then elemAt e src1 j ^^^ e2 j else if z then 0 else elemAt e old j)
    (elemCount e vl) (by rw [elemCount_mul]; cases vl <;> decide)
  rwa [elemCount_mul] at this

/-- The masked XOR depends on its second source only through the active elements below KL. -/
theorem maskedXor_congr (e : ElemSize) (vl : VLen) {active active' : Nat → Bool} (z : Bool)
    (old src1 : VecWord) {e2 e2' : Nat → BitVec e.bits}
    (ha : ∀ j, j < elemCount e vl → active j = active' j)
    (h2 : ∀ j, j < elemCount e vl → active j = true → e2 j = e2' j) :
    maskedXor e vl active z old src1 e2 = maskedXor e vl active' z old src1 e2' := by
  refine buildElems_congr e _ _ _ fun j hj => ?_
  rw [← ha j hj]
  split
  · rename_i h; rw [h2 j hj h]
  · rfl

end Sys2Proof.Machine
end

