-- ==== Sys2Proof/Laws/State.lean ====
section
/-! SUPPORT. One lemma per field per update of State, true by rfl, and reading a register after writing one. -/

namespace Sys2Proof.Machine

/-! ## Writing a vector register -/

@[simp] theorem setVec_gpr (s : State) (r : BitVec 5) (v : VecWord) : (setVec s r v).gpr = s.gpr := rfl
@[simp] theorem setVec_pc (s : State) (r : BitVec 5) (v : VecWord) : (setVec s r v).pc = s.pc := rfl
@[simp] theorem setVec_mm (s : State) (r : BitVec 5) (v : VecWord) : (setVec s r v).mm = s.mm := rfl
@[simp] theorem setVec_x87 (s : State) (r : BitVec 5) (v : VecWord) : (setVec s r v).x87 = s.x87 := rfl
@[simp] theorem setVec_k (s : State) (r : BitVec 5) (v : VecWord) : (setVec s r v).k = s.k := rfl
@[simp] theorem setVec_rflags (s : State) (r : BitVec 5) (v : VecWord) : (setVec s r v).rflags = s.rflags := rfl
@[simp] theorem setVec_mxcsr (s : State) (r : BitVec 5) (v : VecWord) : (setVec s r v).mxcsr = s.mxcsr := rfl
@[simp] theorem setVec_cr0 (s : State) (r : BitVec 5) (v : VecWord) : (setVec s r v).cr0 = s.cr0 := rfl
@[simp] theorem setVec_cr4 (s : State) (r : BitVec 5) (v : VecWord) : (setVec s r v).cr4 = s.cr4 := rfl
@[simp] theorem setVec_xcr0 (s : State) (r : BitVec 5) (v : VecWord) : (setVec s r v).xcr0 = s.xcr0 := rfl
@[simp] theorem setVec_cpl (s : State) (r : BitVec 5) (v : VecWord) : (setVec s r v).cpl = s.cpl := rfl
@[simp] theorem setVec_mode (s : State) (r : BitVec 5) (v : VecWord) : (setVec s r v).mode = s.mode := rfl
@[simp] theorem setVec_segs (s : State) (r : BitVec 5) (v : VecWord) : (setVec s r v).segs = s.segs := rfl
@[simp] theorem setVec_mem (s : State) (r : BitVec 5) (v : VecWord) : (setVec s r v).mem = s.mem := rfl
@[simp] theorem setVec_cfg (s : State) (r : BitVec 5) (v : VecWord) : (setVec s r v).cfg = s.cfg := rfl
@[simp] theorem setVec_vec (s : State) (r : BitVec 5) (v : VecWord) :
    (setVec s r v).vec = s.vec.set r.toFin v := rfl

/-! ## Writing an MMX register -/

@[simp] theorem setMm_gpr (s : State) (r : BitVec 3) (v : Quad) : (setMm s r v).gpr = s.gpr := rfl
@[simp] theorem setMm_pc (s : State) (r : BitVec 3) (v : Quad) : (setMm s r v).pc = s.pc := rfl
@[simp] theorem setMm_vec (s : State) (r : BitVec 3) (v : Quad) : (setMm s r v).vec = s.vec := rfl
@[simp] theorem setMm_k (s : State) (r : BitVec 3) (v : Quad) : (setMm s r v).k = s.k := rfl
@[simp] theorem setMm_rflags (s : State) (r : BitVec 3) (v : Quad) : (setMm s r v).rflags = s.rflags := rfl
@[simp] theorem setMm_mxcsr (s : State) (r : BitVec 3) (v : Quad) : (setMm s r v).mxcsr = s.mxcsr := rfl
@[simp] theorem setMm_cr0 (s : State) (r : BitVec 3) (v : Quad) : (setMm s r v).cr0 = s.cr0 := rfl
@[simp] theorem setMm_cr4 (s : State) (r : BitVec 3) (v : Quad) : (setMm s r v).cr4 = s.cr4 := rfl
@[simp] theorem setMm_xcr0 (s : State) (r : BitVec 3) (v : Quad) : (setMm s r v).xcr0 = s.xcr0 := rfl
@[simp] theorem setMm_cpl (s : State) (r : BitVec 3) (v : Quad) : (setMm s r v).cpl = s.cpl := rfl
@[simp] theorem setMm_mode (s : State) (r : BitVec 3) (v : Quad) : (setMm s r v).mode = s.mode := rfl
@[simp] theorem setMm_segs (s : State) (r : BitVec 3) (v : Quad) : (setMm s r v).segs = s.segs := rfl
@[simp] theorem setMm_mem (s : State) (r : BitVec 3) (v : Quad) : (setMm s r v).mem = s.mem := rfl
@[simp] theorem setMm_cfg (s : State) (r : BitVec 3) (v : Quad) : (setMm s r v).cfg = s.cfg := rfl
@[simp] theorem setMm_mm (s : State) (r : BitVec 3) (v : Quad) :
    (setMm s r v).mm = s.mm.set r.toFin v := rfl
@[simp] theorem setMm_top (s : State) (r : BitVec 3) (v : Quad) : (setMm s r v).x87.top = 0#3 := rfl
@[simp] theorem setMm_tag (s : State) (r : BitVec 3) (v : Quad) :
    (setMm s r v).x87.tag = Vector.replicate 8 0#2 := rfl
@[simp] theorem setMm_hi (s : State) (r : BitVec 3) (v : Quad) :
    (setMm s r v).x87.hi = s.x87.hi.set r.toFin 0xFFFF#16 := rfl
@[simp] theorem setMm_pending (s : State) (r : BitVec 3) (v : Quad) :
    (setMm s r v).x87.pending = s.x87.pending := rfl

/-! ## The launch and the load -/

section Launch

variable (s : State) (bs : List Byte) (n : Nat)

@[simp] theorem launch_gpr : (launch s).gpr = s.gpr := rfl
@[simp] theorem launch_pc : (launch s).pc = s.pc := rfl
@[simp] theorem launch_vec : (launch s).vec = s.vec := rfl
@[simp] theorem launch_mm : (launch s).mm = s.mm := rfl
@[simp] theorem launch_k : (launch s).k = s.k := rfl
@[simp] theorem launch_rflags : (launch s).rflags = s.rflags := rfl
@[simp] theorem launch_mxcsr : (launch s).mxcsr = s.mxcsr := rfl
@[simp] theorem launch_cpl : (launch s).cpl = s.cpl := rfl
@[simp] theorem launch_segs : (launch s).segs = s.segs := rfl
@[simp] theorem launch_mem : (launch s).mem = s.mem := rfl
@[simp] theorem launch_mode : (launch s).mode = .mode64 := rfl
@[simp] theorem launch_pending : (launch s).x87.pending = false := rfl
@[simp] theorem launch_cfg_maxvl : (launch s).cfg.maxvl = s.cfg.maxvl := rfl
@[simp] theorem launch_cfg_cpuid : (launch s).cfg.cpuid = s.cfg.cpuid := rfl
@[simp] theorem launch_cfg_vaBits : (launch s).cfg.vaBits = s.cfg.vaBits := rfl
@[simp] theorem launch_cfg_kWidth : (launch s).cfg.kWidth = s.cfg.kWidth := rfl
@[simp] theorem launch_cfg_faultSuppression : (launch s).cfg.faultSuppression = s.cfg.faultSuppression := rfl
@[simp] theorem launch_cfg_regions : (launch s).cfg.regions = s.cfg.regions := rfl
@[simp] theorem launch_cfg_codeBase : (launch s).cfg.codeBase = s.cfg.codeBase := rfl
@[simp] theorem launch_cfg_codeEnd : (launch s).cfg.codeEnd = s.cfg.codeEnd := rfl
@[simp] theorem loadProgram_gpr : (loadProgram s bs n).gpr = s.gpr := rfl
@[simp] theorem loadProgram_pc : (loadProgram s bs n).pc = s.pc := rfl
@[simp] theorem loadProgram_vec : (loadProgram s bs n).vec = s.vec := rfl
@[simp] theorem loadProgram_mm : (loadProgram s bs n).mm = s.mm := rfl
@[simp] theorem loadProgram_x87 : (loadProgram s bs n).x87 = s.x87 := rfl
@[simp] theorem loadProgram_k : (loadProgram s bs n).k = s.k := rfl
@[simp] theorem loadProgram_rflags : (loadProgram s bs n).rflags = s.rflags := rfl
@[simp] theorem loadProgram_mxcsr : (loadProgram s bs n).mxcsr = s.mxcsr := rfl
@[simp] theorem loadProgram_cr0 : (loadProgram s bs n).cr0 = s.cr0 := rfl
@[simp] theorem loadProgram_cr4 : (loadProgram s bs n).cr4 = s.cr4 := rfl
@[simp] theorem loadProgram_xcr0 : (loadProgram s bs n).xcr0 = s.xcr0 := rfl
@[simp] theorem loadProgram_cpl : (loadProgram s bs n).cpl = s.cpl := rfl
@[simp] theorem loadProgram_mode : (loadProgram s bs n).mode = s.mode := rfl
@[simp] theorem loadProgram_segs : (loadProgram s bs n).segs = s.segs := rfl
@[simp] theorem loadProgram_mem : (loadProgram s bs n).mem = s.mem.writeAll s.pc bs := rfl
@[simp] theorem loadProgram_cfg_maxvl : (loadProgram s bs n).cfg.maxvl = s.cfg.maxvl := rfl
@[simp] theorem loadProgram_cfg_cpuid : (loadProgram s bs n).cfg.cpuid = s.cfg.cpuid := rfl
@[simp] theorem loadProgram_cfg_vaBits : (loadProgram s bs n).cfg.vaBits = s.cfg.vaBits := rfl
@[simp] theorem loadProgram_cfg_kWidth : (loadProgram s bs n).cfg.kWidth = s.cfg.kWidth := rfl
@[simp] theorem loadProgram_cfg_faultSuppression : (loadProgram s bs n).cfg.faultSuppression = s.cfg.faultSuppression := rfl
@[simp] theorem loadProgram_cfg_env : (loadProgram s bs n).cfg.env = s.cfg.env := rfl
@[simp] theorem loadProgram_cfg_codeBase : (loadProgram s bs n).cfg.codeBase = s.pc := rfl
@[simp] theorem loadProgram_cfg_codeEnd : (loadProgram s bs n).cfg.codeEnd = byteAddr s.pc n := rfl

end Launch

/-! ## Advancing pc -/

@[simp] theorem vecAt_withPc (s : State) (p : Quad) (r : BitVec 5) : vecAt { s with pc := p } r = vecAt s r := rfl
@[simp] theorem mmAt_withPc (s : State) (p : Quad) (r : BitVec 3) : mmAt { s with pc := p } r = mmAt s r := rfl
@[simp] theorem kAt_withPc (s : State) (p : Quad) (r : BitVec 3) : kAt { s with pc := p } r = kAt s r := rfl
@[simp] theorem gprAt_withPc (s : State) (p : Quad) (r : BitVec 4) : gprAt { s with pc := p } r = gprAt s r := rfl

/-! ## Reading after writing -/

/-- A vector register after one is written. -/
theorem vecAt_setVec (s : State) (d r : BitVec 5) (v : VecWord) :
    vecAt (setVec s d v) r = if r = d then v else vecAt s r := by
  unfold vecAt setVec
  simp only [Vector.get_eq_getElem, Vector.getElem_set]
  by_cases h : r = d
  · subst h; simp
  · have : ¬ (d.toFin.val = r.toFin.val) := fun e => h (BitVec.eq_of_toNat_eq e.symm)
    rw [if_neg h, if_neg this]

@[simp] theorem vecAt_setVec_same (s : State) (d : BitVec 5) (v : VecWord) : vecAt (setVec s d v) d = v := by
  simp [vecAt_setVec]

theorem vecAt_setVec_ne (s : State) {d r : BitVec 5} (v : VecWord) (h : r ≠ d) :
    vecAt (setVec s d v) r = vecAt s r := by simp [vecAt_setVec, h]

/-- An MMX register after one is written. -/
theorem mmAt_setMm (s : State) (d r : BitVec 3) (v : Quad) :
    mmAt (setMm s d v) r = if r = d then v else mmAt s r := by
  unfold mmAt setMm
  simp only [Vector.get_eq_getElem, Vector.getElem_set]
  by_cases h : r = d
  · subst h; simp
  · have : ¬ (d.toFin.val = r.toFin.val) := fun e => h (BitVec.eq_of_toNat_eq e.symm)
    rw [if_neg h, if_neg this]

@[simp] theorem mmAt_setMm_same (s : State) (d : BitVec 3) (v : Quad) : mmAt (setMm s d v) d = v := by
  simp [mmAt_setMm]

@[simp] theorem kAt_setVec (s : State) (d : BitVec 5) (r : BitVec 3) (v : VecWord) :
    kAt (setVec s d v) r = kAt s r := rfl
@[simp] theorem mmAt_setVec (s : State) (d : BitVec 5) (r : BitVec 3) (v : VecWord) :
    mmAt (setVec s d v) r = mmAt s r := rfl
@[simp] theorem gprAt_setVec (s : State) (d : BitVec 5) (r : BitVec 4) (v : VecWord) :
    gprAt (setVec s d v) r = gprAt s r := rfl
@[simp] theorem vecAt_setMm (s : State) (d : BitVec 3) (r : BitVec 5) (v : Quad) :
    vecAt (setMm s d v) r = vecAt s r := rfl
@[simp] theorem kAt_setMm (s : State) (d r : BitVec 3) (v : Quad) : kAt (setMm s d v) r = kAt s r := rfl
@[simp] theorem gprAt_setMm (s : State) (d : BitVec 3) (r : BitVec 4) (v : Quad) :
    gprAt (setMm s d v) r = gprAt s r := rfl

end Sys2Proof.Machine
end

