-- ==== Sys2Proof/Laws/Memory.lean ====
section
/-! SUPPORT. Memory: every operation keeps the canonical form, a read after a write, and the bytes of a
little-endian value. -/

namespace Sys2Proof.Machine

/-! ## The canonical form -/

/-- Every entry of `m` lies above `a`. -/
def Memory.above (a : Nat) (m : Memory) : Prop := ∀ c ∈ m, a < c.1

theorem Memory.wf_cons (c : Host.Cell) (m : Memory) :
    Memory.wf (c :: m) = true ↔
      c.1 < 2 ^ 64 ∧ c.2 ≠ unlistedByte ∧ m.above c.1 ∧ Memory.wf m = true := by
  induction m generalizing c with
  | nil => simp [Memory.wf, Memory.above]
  | cons d t ih =>
    rw [Memory.wf, Bool.and_eq_true, Bool.and_eq_true, decide_eq_true_eq, bne_iff_ne, ih d]
    constructor
    · rintro ⟨⟨h1, h2⟩, h3, h4, h5, h6⟩
      refine ⟨by omega, h2, ?_, h3, h4, h5, h6⟩
      intro e he
      rcases List.mem_cons.mp he with rfl | he
      · exact h1
      · exact lt_trans h1 (h5 e he)
    · rintro ⟨_, h2, h3, h4⟩
      exact ⟨⟨h3 d (List.mem_cons_self ..), h2⟩, h4⟩

theorem Memory.wf_nil : Memory.wf [] = true := rfl

/-- A write leaves what lies below its address and the list's entries below them. -/
theorem Memory.write_above {a b : Nat} {v : Byte} {m : Memory} (hb : b < a) (h : m.above b) :
    (m.write a v).above b := by
  induction m with
  | nil =>
    unfold Memory.write
    split
    · simp [Memory.above]
    · simpa [Memory.above] using hb
  | cons c t ih =>
    have hc : b < c.1 := h c (List.mem_cons_self ..)
    have ht : Memory.above b t := fun e he => h e (List.mem_cons_of_mem _ he)
    unfold Memory.write
    split
    · split
      · exact h
      · intro e he
        rcases List.mem_cons.mp he with rfl | he
        · exact hb
        · exact h e he
    · split
      · split
        · exact ht
        · intro e he
          rcases List.mem_cons.mp he with rfl | he
          · exact hb
          · exact ht e he
      · intro e he
        rcases List.mem_cons.mp he with rfl | he
        · exact hc
        · exact ih ht e he

/-- A write keeps the canonical form. -/
theorem Memory.write_wf {a : Nat} {v : Byte} {m : Memory} (ha : a < 2 ^ 64) (h : m.wf = true) :
    (m.write a v).wf = true := by
  induction m with
  | nil =>
    unfold Memory.write
    split
    · rfl
    · rename_i hv
      simpa [Memory.wf, hv] using ha
  | cons c t ih =>
    obtain ⟨h1, h2, h3, h4⟩ := (Memory.wf_cons c t).mp h
    unfold Memory.write
    split
    · rename_i hlt
      split
      · exact h
      · rename_i hv
        refine (Memory.wf_cons _ _).mpr ⟨ha, hv, ?_, h⟩
        intro e he
        rcases List.mem_cons.mp he with rfl | he
        · exact hlt
        · exact lt_trans hlt (h3 e he)
    · split
      · rename_i heq
        subst heq
        split
        · exact h4
        · rename_i hv
          exact (Memory.wf_cons _ _).mpr ⟨h1, hv, h3, h4⟩
      · exact (Memory.wf_cons _ _).mpr
          ⟨h1, h2, Memory.write_above (by omega) h3, ih h4⟩

/-- Writing bytes in a row keeps the canonical form. -/
theorem Memory.writeAll_wf {m : Memory} (la : Quad) (bs : List Byte) (h : m.wf = true) :
    (m.writeAll la bs).wf = true := by
  induction bs generalizing m la with
  | nil => exact h
  | cons b t ih => exact ih _ (Memory.write_wf la.isLt h)

/-! ## Read after write -/

theorem Memory.read_eq_unlisted {a : Nat} {m : Memory} (h : m.above a) : m.read a = unlistedByte := by
  induction m with
  | nil => rfl
  | cons c t ih =>
    have hc : a < c.1 := h c (List.mem_cons_self ..)
    unfold Memory.read
    rw [if_neg (by omega)]
    exact ih fun e he => h e (List.mem_cons_of_mem _ he)

/-- A write at `a` changes what is read at `a` and nowhere else. -/
theorem Memory.read_write {a : Nat} (b : Nat) (v : Byte) {m : Memory} (h : m.wf = true) :
    (m.write a v).read b = if b = a then v else m.read b := by
  induction m with
  | nil =>
    unfold Memory.write
    by_cases hv : v = unlistedByte
    · subst hv; simp [Memory.read]
    · simp [hv, Memory.read]
  | cons c t ih =>
    obtain ⟨_, _, h3, h4⟩ := (Memory.wf_cons c t).mp h
    unfold Memory.write
    by_cases hlt : a < c.1
    · rw [if_pos hlt]
      by_cases hv : v = unlistedByte
      · rw [if_pos hv]
        by_cases hb : b = a
        · subst hb
          rw [if_pos rfl, hv]
          refine Memory.read_eq_unlisted fun e he => ?_
          rcases List.mem_cons.mp he with rfl | he
          · exact hlt
          · exact lt_trans hlt (h3 e he)
        · rw [if_neg hb]
      · rw [if_neg hv, Memory.read]
    · rw [if_neg hlt]
      by_cases heq : a = c.1
      · rw [if_pos heq]
        by_cases hv : v = unlistedByte
        · rw [if_pos hv, Memory.read]
          by_cases hb : b = a
          · subst hb
            rw [if_pos rfl, hv, Memory.read_eq_unlisted (heq ▸ h3)]
          · rw [if_neg hb, if_neg (heq ▸ hb)]
        · rw [if_neg hv, Memory.read, Memory.read]
          by_cases hb : b = a
          · simp [hb]
          · rw [if_neg hb, if_neg hb, if_neg (heq ▸ hb)]
      · rw [if_neg heq, Memory.read, Memory.read, ih h4]
        by_cases hb : b = c.1
        · rw [if_pos hb, if_pos hb, if_neg (by omega)]
        · rw [if_neg hb, if_neg hb]

/-! ## Little-endian values -/

/-- Byte `i` of the value at `la` is the byte at `la + i` (20_memory.md R50). -/
theorem readLE_getLsbD (m : Memory) (la : Quad) (n i : Nat) :
    (readLE m la n).getLsbD i =
      (decide (i < 8 * n) && (m.read (byteAddr la (i / 8)).toNat).getLsbD (i % 8)) := by
  induction n generalizing la i with
  | zero => simp [readLE]
  | succ n ih =>
    have e : readLE m la (n + 1) = readLE m (la + 1#64) n ++ m.read la.toNat := rfl
    rw [e, BitVec.getLsbD_append]
    by_cases h : i < 8
    · have h0 : i / 8 = 0 := by omega
      have h1 : i % 8 = i := by omega
      have h2 : i < 8 * (n + 1) := by omega
      simp [h, h0, h1, h2, byteAddr]
    · have h0 : i / 8 = (i - 8) / 8 + 1 := by omega
      have h1 : i % 8 = (i - 8) % 8 := by omega
      have h2 : byteAddr (la + 1#64) ((i - 8) / 8) = byteAddr la (i / 8) := by
        rw [h0]; apply BitVec.eq_of_toNat_eq; simp [byteAddr]; omega
      simp only [h, if_false, ih, h2, h1]
      congr 1
      exact decide_eq_decide.mpr (by omega)

/-- The value of a part of a range is the part of the value (20_memory.md R51). -/
theorem readLE_slice (m : Memory) (la : Quad) (n off k : Nat) (h : off + k ≤ n) :
    (readLE m la n).extractLsb' (8 * off) (8 * k) = readLE m (byteAddr la off) k := by
  apply BitVec.eq_of_getLsbD_eq
  intro i hi
  rw [BitVec.getLsbD_extractLsb', readLE_getLsbD, readLE_getLsbD]
  have h1 : (8 * off + i) / 8 = off + i / 8 := by omega
  have h2 : (8 * off + i) % 8 = i % 8 := by omega
  have h3 : byteAddr (byteAddr la off) (i / 8) = byteAddr la (off + i / 8) := by
    apply BitVec.eq_of_toNat_eq; simp [byteAddr]; omega
  have h4 : 8 * off + i < 8 * n := by omega
  simp [h1, h2, h3, h4, hi]

end Sys2Proof.Machine
end

