-- ==== Sys2Proof/Laws/Ops.lean ====
section
/-! SUPPORT. One lemma for each shared operation of Machine/Ops.lean that says all it can do. -/

namespace Sys2Proof.Machine

/-! ## The checks before the operands -/

theorem featureOk_iff (f : Form) (c : Cpuid) : featureOk f c = true ↔ FeaturePresent f c := by
  cases f <;> simp [featureOk, FeaturePresent]

theorem osOk_iff (f : Form) (s : State) : osOk f s = true ↔ OsEnabled f s := by
  cases f <;>
    simp [osOk, OsEnabled, Form.layout, cr0EM, cr4OSFXSR, cr4OSXSAVE, xcr0Avx, xcr0Avx512, and_assoc]

/-- Nothing stops a form before its operands exactly when it is enabled. -/
theorem formStop_eq_none_iff (f : Form) (s : State) : formStop f s = none ↔ Enabled f s := by
  unfold formStop Enabled
  rw [← featureOk_iff, ← osOk_iff]
  cases featureOk f s.cfg.cpuid <;> cases osOk f s <;> cases h : cr0TS s <;> cases hp : s.x87.pending <;>
    simp_all [cr0TS]

/-- What stops a form before its operands is #UD, #NM or #MF with its own pc. -/
theorem formStop_eq_some {f : Form} {s : State} {st : Stop} (h : formStop f s = some st) :
    (st = .fault (.ud s.pc) ∧ (¬ FeaturePresent f s.cfg.cpuid ∨ ¬ OsEnabled f s)) ∨
    (st = .fault (.nm s.pc) ∧ FeaturePresent f s.cfg.cpuid ∧ OsEnabled f s ∧ s.cr0.getLsbD 3 = true) ∨
    (st = .fault (.mf s.pc) ∧ FeaturePresent f s.cfg.cpuid ∧ OsEnabled f s ∧ s.cr0.getLsbD 3 = false ∧
      f = .f1 ∧ s.x87.pending = true) := by
  unfold formStop at h
  rw [← featureOk_iff, ← osOk_iff]
  cases h1 : featureOk f s.cfg.cpuid <;> cases h2 : osOk f s <;> cases h3 : cr0TS s <;>
    cases h4 : s.x87.pending <;> cases f <;> simp_all [cr0TS, raise]

/-! ## Completing a step -/

theorem nextPcOk_iff (s : State) (len : Nat) : nextPcOk s len = true ↔ NextPcOk s len := by
  simp [nextPcOk, NextPcOk, byteAddr]

theorem complete_eq (len : Nat) (s t : State) :
    complete len s t = if nextPcOk s len then .next { t with pc := byteAddr s.pc len }
      else .refused .pcOutOfRange := rfl

/-- The outcome of a stop is no next state. -/
theorem Stop.outcome_ne_next (st : Stop) (t : State) : st.outcome ≠ .next t := by
  cases st <;> simp [Stop.outcome]

/-- All that a form that answers a next state has done. -/
theorem execute_eq_next_iff {f : Form} {len : Nat} {src : State → Except Stop VecWord}
    {w : State → VecWord → State} {s t : State} :
    execute f len src w s = .next t ↔
      Enabled f s ∧ NextPcOk s len ∧ ∃ v, src s = .ok v ∧ t = { w s v with pc := byteAddr s.pc len } := by
  unfold execute
  rw [← formStop_eq_none_iff, ← nextPcOk_iff]
  cases h1 : formStop f s with
  | some st => simp [Stop.outcome_ne_next]
  | none =>
    cases h2 : src s with
    | error st => simp [Stop.outcome_ne_next]
    | ok v =>
      change complete len s (w s v) = .next t ↔ _
      rw [complete_eq]
      cases h3 : nextPcOk s len
      · simp
      · simp [eq_comm (a := t)]

/-- An enabled form whose source is readable completes. -/
theorem execute_eq_next {f : Form} {len : Nat} {src : State → Except Stop VecWord}
    {w : State → VecWord → State} {s : State} {v : VecWord} (he : Enabled f s) (hn : NextPcOk s len)
    (hv : src s = .ok v) :
    execute f len src w s = .next { w s v with pc := byteAddr s.pc len } :=
  execute_eq_next_iff.mpr ⟨he, hn, v, hv, rfl⟩

/-- A form that is not enabled, whatever its operands. -/
theorem execute_of_formStop {f : Form} {len : Nat} {src : State → Except Stop VecWord}
    {w : State → VecWord → State} {s : State} {st : Stop} (h : formStop f s = some st) :
    execute f len src w s = st.outcome := by
  simp only [execute, h]

/-- An enabled form whose source stops. -/
theorem execute_of_error {f : Form} {len : Nat} {src : State → Except Stop VecWord}
    {w : State → VecWord → State} {s : State} {st : Stop} (he : Enabled f s) (h : src s = .error st) :
    execute f len src w s = st.outcome := by
  simp only [execute, (formStop_eq_none_iff f s).mpr he, h]

/-! ## Searching the bytes of a range -/

theorem firstByte_eq_none_iff {n : Nat} {p : Nat → Bool} :
    firstByte n p = none ↔ ∀ i, i < n → p i = false := by
  simp [firstByte]

/-- The byte found has the property and no lower byte has it. -/
theorem firstByte_eq_some_iff {n i : Nat} {p : Nat → Bool} :
    firstByte n p = some i ↔ i < n ∧ p i = true ∧ ∀ j, j < i → p j = false := by
  simp only [firstByte, List.find?_range_eq_some, List.mem_range, Bool.not_eq_eq_eq_not, Bool.not_true]
  tauto

/-! ## Reading a memory operand -/

/-- An admission answer stops nothing only where it is `ok`. -/
theorem admissionStop_eq_none_iff (s : State) (k : AccessKind) (a : Quad) :
    admissionStop s k a = none ↔ admissionOf s.cfg a k = .ok := by
  unfold admissionStop
  cases admissionOf s.cfg a k <;> simp

/-- The code that the admission supplies is as R178 says, where every region's is. -/
theorem admissionOf_pageFault {c : Config} {a : Quad} {k : AccessKind} {code : BitVec 32}
    (h : admissionOf c a k = .pageFault code) (hl : admissionLegal c = true) : pfCodeLegal k code = true := by
  unfold admissionOf at h
  cases hf : c.regions.find? (fun r => r.kind == k && decide (r.lo ≤ a) && decide (a ≤ r.hi)) with
  | none =>
    rw [hf] at h
    cases h
    cases k <;> rfl
  | some r =>
    rw [hf] at h
    have hr := List.all_eq_true.mp hl r (List.mem_of_find?_eq_some hf)
    have hk := List.find?_some hf
    simp only [Bool.and_eq_true, beq_iff_eq] at hk
    dsimp only at h
    rw [h] at hr
    rw [← hk.1.1]
    exact hr

/-- A readable byte is canonical and admitted. -/
theorem byteReadable_iff (s : State) (la : Quad) (i : Nat) :
    byteReadable s la i = true ↔
      byteCanonical s la i = true ∧ admissionStop s .read (byteAddr la i) = none := by
  simp [byteReadable, admissionStop_eq_none_iff]

theorem canonicalStop_eq_none_iff {s : State} {la : Quad} {n : Nat} {ss : Bool} {act : Nat → Bool} :
    canonicalStop s la n ss act = none ↔
      ∀ i, i < n → act i = true → byteCanonical s la i = true := by
  simp only [canonicalStop, Option.map_eq_none_iff, firstByte_eq_none_iff]
  refine forall₂_congr fun i _ => ?_
  cases act i <;> cases byteCanonical s la i <;> simp

/-- The first accessed byte that is not canonical gives #SS(0) or #GP(0). -/
theorem canonicalStop_eq_some {s : State} {la : Quad} {n : Nat} {ss : Bool} {act : Nat → Bool} {st : Stop}
    (h : canonicalStop s la n ss act = some st) :
    ∃ i, i < n ∧ act i = true ∧ byteCanonical s la i = false ∧
      (∀ j, j < i → act j = true → byteCanonical s la j = true) ∧
      st = .fault (if ss then .ss (byteAddr la i) s.pc else .gp (some (byteAddr la i)) s.pc) := by
  simp only [canonicalStop, Option.map_eq_some_iff, firstByte_eq_some_iff] at h
  obtain ⟨i, ⟨hi, hp, hl⟩, rfl⟩ := h
  simp only [Bool.and_eq_true, Bool.not_eq_true'] at hp
  refine ⟨i, hi, hp.1, hp.2, fun j hj ha => ?_, ?_⟩
  · simpa [ha] using hl j hj
  · cases ss <;> rfl

theorem misalignedStop_eq_none_iff {f : Form} {s : State} {la : Quad} :
    misalignedStop f s la = none ↔ (f = .f2 → la.toNat % 16 = 0) := by
  simp [misalignedStop]

theorem misalignedStop_eq_some {f : Form} {s : State} {la : Quad} {st : Stop}
    (h : misalignedStop f s la = some st) :
    f = .f2 ∧ la.toNat % 16 ≠ 0 ∧ st = .fault (.gp (some la) s.pc) := by
  unfold misalignedStop at h
  split at h
  · rename_i hc
    exact ⟨hc.1, hc.2, by simpa [raise, eq_comm] using h⟩
  · cases h

theorem notAdmittedStop_eq_none_iff {s : State} {la : Quad} {n : Nat} {act : Nat → Bool} :
    notAdmittedStop s la n act = none ↔
      ∀ i, i < n → act i = true → admissionStop s .read (byteAddr la i) = none := by
  unfold notAdmittedStop
  cases h : firstByte n fun i => act i && (admissionStop s .read (byteAddr la i)).isSome with
  | none =>
    simp only [Option.bind_none, true_iff]
    intro i hi ha
    simpa [ha] using firstByte_eq_none_iff.mp h i hi
  | some i =>
    obtain ⟨hi, hp, _⟩ := firstByte_eq_some_iff.mp h
    simp only [Bool.and_eq_true] at hp
    simp only [Option.bind_some]
    constructor
    · intro hn; simp [hn] at hp
    · intro hn; exact hn i hi hp.1

/-- The lowest accessed byte that is not admitted gives its admission answer. -/
theorem notAdmittedStop_eq_some {s : State} {la : Quad} {n : Nat} {act : Nat → Bool} {st : Stop}
    (h : notAdmittedStop s la n act = some st) :
    ∃ i, i < n ∧ act i = true ∧ admissionStop s .read (byteAddr la i) = some st ∧
      ∀ j, j < i → act j = true → admissionStop s .read (byteAddr la j) = none := by
  simp only [notAdmittedStop, Option.bind_eq_some_iff, firstByte_eq_some_iff] at h
  obtain ⟨i, ⟨hi, hp, hl⟩, hs⟩ := h
  simp only [Bool.and_eq_true] at hp
  refine ⟨i, hi, hp.1, hs, fun j hj ha => ?_⟩
  simpa [ha] using hl j hj

theorem maskedStop_eq_none_iff {s : State} {la : Quad} {n : Nat} {act : Nat → Bool} :
    maskedStop s la n act = none ↔
      s.cfg.faultSuppression = true ∨ ∀ i, i < n → act i = false → byteReadable s la i = true := by
  unfold maskedStop
  cases hf : s.cfg.faultSuppression with
  | true => simp
  | false =>
    cases h : firstByte n fun i => !act i && !byteReadable s la i with
    | none =>
      simp only [Option.isSome_none, Bool.and_false, Bool.false_eq_true, if_false, true_iff, false_or]
      intro i hi ha
      simpa [ha] using firstByte_eq_none_iff.mp h i hi
    | some i =>
      obtain ⟨hi, hp, _⟩ := firstByte_eq_some_iff.mp h
      simp only [Bool.and_eq_true, Bool.not_eq_true'] at hp
      simp only [Bool.not_false, Option.isSome_some, Bool.and_true, if_true, reduceCtorEq, false_iff,
        Bool.false_eq_true, false_or]
      exact fun hn => by simp [hn i hi hp.1] at hp

theorem maskedStop_eq_some {s : State} {la : Quad} {n : Nat} {act : Nat → Bool} {st : Stop}
    (h : maskedStop s la n act = some st) :
    st = .refuse .maskedInadmissible ∧ s.cfg.faultSuppression = false ∧
      ∃ i, i < n ∧ act i = false ∧ byteReadable s la i = false := by
  unfold maskedStop at h
  split at h
  · rename_i hc
    simp only [Bool.and_eq_true, Bool.not_eq_true', Option.isSome_iff_exists] at hc
    obtain ⟨hf, i, hi⟩ := hc
    obtain ⟨h1, h2, _⟩ := firstByte_eq_some_iff.mp hi
    simp only [Bool.and_eq_true, Bool.not_eq_true'] at h2
    exact ⟨by simpa [eq_comm] using h, hf, i, h1, h2⟩
  · cases h

theorem alignCheckStop_eq_none_iff {f : Form} {s : State} {la : Quad} {n : Nat} :
    alignCheckStop f s la n = none ↔
      (alignCheck s = true → f ≠ .f2 → la.toNat % (if f = .f1 then 8 else n) = 0) := by
  unfold alignCheckStop
  cases alignCheck s <;> cases f <;> simp

theorem alignCheckStop_eq_some {f : Form} {s : State} {la : Quad} {n : Nat} {st : Stop}
    (h : alignCheckStop f s la n = some st) :
    alignCheck s = true ∧
      ((f = .f1 ∧ la.toNat % 8 ≠ 0 ∧ st = .fault (.ac la s.pc)) ∨
       (f ≠ .f1 ∧ f ≠ .f2 ∧ la.toNat % n ≠ 0 ∧ st = .refuse .alignCheckOpen)) := by
  unfold alignCheckStop at h
  cases ha : alignCheck s with
  | false => simp [ha] at h
  | true =>
    rw [if_pos ha] at h
    refine ⟨rfl, ?_⟩
    cases f <;> simp only [reduceCtorEq, ne_eq, Option.ite_none_right_eq_some, Option.some.injEq] at h <;>
      simp [← h.2, h.1, raise]

/-- Nothing stops the read of a memory operand exactly under these conditions. -/
theorem operandStop_eq_none_iff {f : Form} {s : State} {la : Quad} {n : Nat} {ss : Bool} {act : Nat → Bool} :
    operandStop f s la n ss act = none ↔
      (∀ i, i < n → act i = true → byteReadable s la i = true) ∧
      (f = .f2 → la.toNat % 16 = 0) ∧
      (s.cfg.faultSuppression = true ∨ ∀ i, i < n → act i = false → byteReadable s la i = true) ∧
      (alignCheck s = true → f ≠ .f2 → la.toNat % (if f = .f1 then 8 else n) = 0) := by
  have hr : (∀ i, i < n → act i = true → byteReadable s la i = true) ↔
      canonicalStop s la n ss act = none ∧ notAdmittedStop s la n act = none := by
    rw [canonicalStop_eq_none_iff, notAdmittedStop_eq_none_iff]
    simp only [byteReadable_iff]
    exact ⟨fun h => ⟨fun i hi ha => (h i hi ha).1, fun i hi ha => (h i hi ha).2⟩,
      fun h i hi ha => ⟨h.1 i hi ha, h.2 i hi ha⟩⟩
  rw [hr, ← misalignedStop_eq_none_iff (s := s), ← maskedStop_eq_none_iff, ← alignCheckStop_eq_none_iff]
  unfold operandStop
  cases canonicalStop s la n ss act <;> cases misalignedStop f s la <;>
    cases notAdmittedStop s la n act <;> cases maskedStop s la n act <;> simp

/-- A memory operand that is read has the value at its address. -/
theorem loadOperand_eq_ok_iff {f : Form} {s : State} {la : Quad} {n : Nat} {ss : Bool} {act : Nat → Bool}
    {v : VecWord} :
    loadOperand f s la n ss act = .ok v ↔
      operandStop f s la n ss act = none ∧ v = (readLE s.mem la n).setWidth 512 := by
  unfold loadOperand
  cases operandStop f s la n ss act <;> simp [eq_comm]

/-- A memory operand that is not read gives what stopped it. -/
theorem loadOperand_eq_error_iff {f : Form} {s : State} {la : Quad} {n : Nat} {ss : Bool} {act : Nat → Bool}
    {st : Stop} :
    loadOperand f s la n ss act = .error st ↔ operandStop f s la n ss act = some st := by
  unfold loadOperand
  cases operandStop f s la n ss act <;> simp

/-- Every stop carries the pc of the instruction, if it is a fault. -/
theorem admissionStop_pc {s : State} {k : AccessKind} {a : Quad} {fl : Fault}
    (h : admissionStop s k a = some (.fault fl)) : faultPc fl = s.pc := by
  unfold admissionStop at h
  cases ha : admissionOf s.cfg a k <;> simp_all [raise] <;> subst h <;> rfl

end Sys2Proof.Machine
end

