-- ==== Sys2Proof/Laws/Exec.lean ====
section
/-! SUPPORT. Every instruction as one run of `execute`: its second source, its write, and when it answers a next
state. -/

namespace Sys2Proof.Machine

/-- The second source of an instruction, as its meaning reads it. -/
def sourceOf : Instr → State → Except Stop VecWord
  | .pxorMm pre rex _ rm => legacySource .f1 8 pre rex rm fun s r => (mmAt s r).setWidth 512
  | .pxorXmm pre rex _ rm => legacySource .f2 16 pre rex rm fun s r => vecAt s (lowVec (regNum4 (rexB rex) r))
  | .vpxorXmmVex2 pre v _ rm => vexSource .f3 .v128 pre (vex2As3 v) rm (vex2Len pre rm)
  | .vpxorXmmVex3 pre v _ rm => vexSource .f3 .v128 pre v rm (vex3Len pre rm)
  | .vpxorYmmVex2 pre v _ rm => vexSource .f4 .v256 pre (vex2As3 v) rm (vex2Len pre rm)
  | .vpxorYmmVex3 pre v _ rm => vexSource .f4 .v256 pre v rm (vex3Len pre rm)
  | .vpxordXmm pre e _ rm => evexSource .f5 .dword .v128 pre e rm
  | .vpxordYmm pre e _ rm => evexSource .f6 .dword .v256 pre e rm
  | .vpxordZmm pre e _ rm => evexSource .f7 .dword .v512 pre e rm
  | .vpxorqXmm pre e _ rm => evexSource .f8 .qword .v128 pre e rm
  | .vpxorqYmm pre e _ rm => evexSource .f9 .qword .v256 pre e rm
  | .vpxorqZmm pre e _ rm => evexSource .f10 .qword .v512 pre e rm

/-- The write of a VEX form. -/
def vexWrite (vl : VLen) (v : Vex3) (reg : BitVec 3) (s : State) (src2 : VecWord) : State :=
  setVec s (lowVec (regNum4 v.r reg)) (lowBits vl (vecAt s (lowVec v.vvvv) ^^^ src2))

/-- The write of an EVEX form. -/
def evexWrite (e : ElemSize) (vl : VLen) (ev : Evex) (reg : BitVec 3) (rm : Rm) (s : State) (v : VecWord) :
    State :=
  setVec s (regNum5 ev.rHi ev.r reg)
    (maskedXor e vl (elemActive s ev.aaa) ev.z (vecAt s (regNum5 ev.rHi ev.r reg))
      (vecAt s (BitVec.ofBool ev.vHi ++ ev.vvvv)) (srcElem e ev rm v))

/-- The write of an instruction, as its meaning does it. -/
def writeOf : Instr → State → VecWord → State
  | .pxorMm _ _ reg _ => fun s v => setMm s reg (mmAt s reg ^^^ v.setWidth 64)
  | .pxorXmm _ rex reg _ => fun s v =>
    setVec s (lowVec (regNum4 (rexR rex) reg))
      (replaceLow128 (vecAt s (lowVec (regNum4 (rexR rex) reg)))
        (vecAt s (lowVec (regNum4 (rexR rex) reg)) ^^^ v))
  | .vpxorXmmVex2 _ v reg _ => vexWrite .v128 (vex2As3 v) reg
  | .vpxorXmmVex3 _ v reg _ => vexWrite .v128 v reg
  | .vpxorYmmVex2 _ v reg _ => vexWrite .v256 (vex2As3 v) reg
  | .vpxorYmmVex3 _ v reg _ => vexWrite .v256 v reg
  | .vpxordXmm _ e reg rm => evexWrite .dword .v128 e reg rm
  | .vpxordYmm _ e reg rm => evexWrite .dword .v256 e reg rm
  | .vpxordZmm _ e reg rm => evexWrite .dword .v512 e reg rm
  | .vpxorqXmm _ e reg rm => evexWrite .qword .v128 e reg rm
  | .vpxorqYmm _ e reg rm => evexWrite .qword .v256 e reg rm
  | .vpxorqZmm _ e reg rm => evexWrite .qword .v512 e reg rm

/-- Every instruction is one run of `execute`. -/
theorem exec_eq_execute (i : Instr) (s : State) :
    exec i s = execute i.form i.ilen (sourceOf i) (writeOf i) s := by
  cases i <;> rfl

/-- All that an instruction that answers a next state has done. -/
theorem exec_eq_next_iff {i : Instr} {s t : State} :
    exec i s = .next t ↔
      Enabled i.form s ∧ NextPcOk s i.ilen ∧
        ∃ v, sourceOf i s = .ok v ∧ t = { writeOf i s v with pc := byteAddr s.pc i.ilen } := by
  rw [exec_eq_execute, execute_eq_next_iff]

/-- The second source of a register form is read whatever the state. -/
theorem sourceOf_reg {i : Instr} {r : BitVec 3} (h : i.rm = .reg r) (s : State) :
    ∃ v, sourceOf i s = .ok v := by
  cases i <;> (simp only [Instr.rm] at h; subst h; exact ⟨_, rfl⟩)

/-- The second source of a memory form is its operand at its linear address. -/
theorem sourceOf_mem {i : Instr} {m : Mem} (h : i.rm = .mem m) (s : State) :
    sourceOf i s = loadOperand i.form s (operandAddr s i m) (operandBytes i) (operandStack i m)
      (operandActive s i) := by
  cases i
  case pxorMm => simp only [Instr.rm] at h; subst h; rfl
  case pxorXmm => simp only [Instr.rm] at h; subst h; rfl
  case vpxorXmmVex2 => simp only [Instr.rm] at h; subst h; rfl
  case vpxorXmmVex3 => simp only [Instr.rm] at h; subst h; rfl
  case vpxorYmmVex2 => simp only [Instr.rm] at h; subst h; rfl
  case vpxorYmmVex3 => simp only [Instr.rm] at h; subst h; rfl
  all_goals
    rename_i e _ rm
    simp only [Instr.rm] at h
    subst h
    cases hb : e.bcast <;>
      simp only [sourceOf, evexSource, operandAddr, operandBytes, operandStack, extX, extB, dispScale, Instr.pre,
        Instr.ilen, Instr.form, evexBytes, tupleN, ElemSize.bits, VLen.bits, hb] <;> rfl

/-- The operand of a memory form is read exactly under these conditions. -/
theorem sourceOf_mem_eq_ok_iff {i : Instr} {m : Mem} (h : i.rm = .mem m) {s : State} {v : VecWord} :
    sourceOf i s = .ok v ↔
      operandStop i.form s (operandAddr s i m) (operandBytes i) (operandStack i m) (operandActive s i) = none ∧
        v = (readLE s.mem (operandAddr s i m) (operandBytes i)).setWidth 512 := by
  rw [sourceOf_mem h, loadOperand_eq_ok_iff]

/-- A memory operand that is readable throughout, and aligned where that matters, is read. -/
theorem sourceOf_mem_of_readable {i : Instr} {m : Mem} (h : i.rm = .mem m) {s : State}
    (hr : Readable s (operandAddr s i m) (operandBytes i)) (ha : AlignOk s i m) :
    sourceOf i s = .ok ((readLE s.mem (operandAddr s i m) (operandBytes i)).setWidth 512) := by
  refine (sourceOf_mem_eq_ok_iff h).mpr ⟨operandStop_eq_none_iff.mpr ⟨fun j hj _ => hr j hj, fun hf => ?_,
    .inr fun j hj _ => hr j hj, fun hc hf => ?_⟩, rfl⟩
  · have := ha (.inr hf)
    cases i <;> simp_all [Instr.form, operandBytes]
  · have := ha (.inl hc)
    cases i <;> simp_all [Instr.form, operandBytes]

/-- An enabled instruction is its source, its write and the advance of pc. -/
theorem exec_of_enabled {i : Instr} {s : State} (he : Enabled i.form s) :
    exec i s = match sourceOf i s with
      | .error st => st.outcome
      | .ok v => complete i.ilen s (writeOf i s v) := by
  rw [exec_eq_execute, execute, (formStop_eq_none_iff _ _).mpr he] <;> rfl

/-- An enabled memory form whose operand stops. -/
theorem exec_of_operandStop {i : Instr} {m : Mem} {s : State} {st : Stop} (h : i.rm = .mem m)
    (he : Enabled i.form s)
    (ho : operandStop i.form s (operandAddr s i m) (operandBytes i) (operandStack i m) (operandActive s i) =
      some st) :
    exec i s = st.outcome := by
  rw [exec_of_enabled he, sourceOf_mem h, loadOperand_eq_error_iff.mpr ho]

/-- No write touches a general register, memory, an opmask register, a flag, a control register, a segment base,
the mode or the configuration. -/
theorem writeOf_frame (i : Instr) (s : State) (v : VecWord) :
    (writeOf i s v).gpr = s.gpr ∧ (writeOf i s v).mem = s.mem ∧ (writeOf i s v).k = s.k ∧
      (writeOf i s v).rflags = s.rflags ∧ (writeOf i s v).mxcsr = s.mxcsr ∧ (writeOf i s v).cr0 = s.cr0 ∧
      (writeOf i s v).cr4 = s.cr4 ∧ (writeOf i s v).xcr0 = s.xcr0 ∧ (writeOf i s v).cpl = s.cpl ∧
      (writeOf i s v).mode = s.mode ∧ (writeOf i s v).segs = s.segs ∧ (writeOf i s v).cfg = s.cfg ∧
      (writeOf i s v).x87.pending = s.x87.pending := by
  cases i <;> exact ⟨rfl, rfl, rfl, rfl, rfl, rfl, rfl, rfl, rfl, rfl, rfl, rfl, rfl⟩

end Sys2Proof.Machine
end

