-- ==== Sys2Proof/Laws/Fetch.lean ====
section
/-! SUPPORT. The decoder's prefix bytes and the fetch of the bytes at pc. -/

namespace Sys2Proof.Machine

/-- A legacy prefix byte is read as its prefix. -/
theorem prefixOf_byte (p : Prefix) : prefixOf p.byte = match p with
    | .rexIgnored _ => none
    | q => some q := by
  cases p with
  | seg g => cases g <;> rfl
  | rexIgnored w =>
    revert w
    decide
  | lock => rfl
  | repne => rfl
  | rep => rfl
  | opSize => rfl
  | addrSize => rfl

/-- A prefix is the only one of its byte. -/
theorem byte_of_prefixOf {b : Byte} {p : Prefix} (h : prefixOf b = some p) : p.byte = b := by
  unfold prefixOf at h
  repeat' split at h
  all_goals first
    | (cases h; symm; assumption)
    | cases h

/-- While the decoder asks for more, the bytes that stand at pc are fetched one after another. -/
theorem fetchFrom_append {s : State} (bs cs : List Byte) (n : Nat)
    (hf : ∀ k, (hk : k < cs.length) →
      fetchStop s (bs.length + k) = none ∧ s.mem.read (byteAddr s.pc (bs.length + k)).toNat = cs[k])
    (hd : ∀ k, k < cs.length → decode (bs ++ cs.take k) = .more) :
    fetchFrom s (cs.length + n) bs = fetchFrom s n (bs ++ cs) := by
  induction cs generalizing bs with
  | nil => simp
  | cons c t ih =>
    have h0 := hf 0 (by simp)
    have d0 := hd 0 (by simp)
    rw [Nat.add_zero] at h0
    rw [List.take_zero, List.append_nil] at d0
    have hc : s.mem.read (byteAddr s.pc bs.length).toNat = c := h0.2
    have e : (c :: t).length + n = (t.length + n) + 1 := by simp; omega
    rw [e, fetchFrom, d0]
    dsimp only
    rw [h0.1]
    dsimp only
    rw [hc, ih (bs ++ [c]) (fun k hk => ?_) (fun k hk => ?_)]
    · simp
    · have := hf (k + 1) (by simp; omega)
      rw [List.length_append, List.length_singleton, Nat.add_assoc, Nat.add_comm 1 k]
      simpa using this
    · have := hd (k + 1) (by simp; omega)
      rwa [List.append_assoc, List.singleton_append, ← List.take_succ_cons]

/-- The fetch goes through the bytes that stand at pc, if the decoder asks for each of them. -/
theorem fetchDecode_codeAt {s : State} {bs : List Byte} (h : CodeAt s bs) (hl : bs.length ≤ fetchLimit)
    (hd : ∀ k, k < bs.length → decode (bs.take k) = .more) :
    fetchDecode s = fetchFrom s (fetchLimit - bs.length) bs := by
  have e : bs.length + (fetchLimit - bs.length) = fetchLimit := by omega
  have := fetchFrom_append [] bs (fetchLimit - bs.length)
    (fun k hk => by rw [List.length_nil, Nat.zero_add]; exact h k hk) hd
  rw [e, List.nil_append] at this
  exact this

/-- Address 2^62 is canonical at no width. -/
theorem canonical_two_pow_62 (v : VaBits) : canonical v 0x4000000000000000#64 = false := by
  cases v <;> decide +kernel

/-- Some byte of every 2^64 from pc on cannot be fetched: addresses that are not canonical are among them. -/
theorem exists_fetchStop (s : State) : ∃ k, k < fetchLimit ∧ fetchStop s k ≠ none := by
  refine ⟨(0x4000000000000000#64 - s.pc).toNat, (0x4000000000000000#64 - s.pc).isLt, ?_⟩
  have e : byteAddr s.pc (0x4000000000000000#64 - s.pc).toNat = 0x4000000000000000#64 := by
    unfold byteAddr
    rw [BitVec.ofNat_toNat, BitVec.setWidth_eq, BitVec.add_comm, BitVec.sub_add_cancel]
  rw [fetchStop, e, canonical_two_pow_62]
  simp

/-- The limit of the fetch is never used up: more of it gives the same answer. -/
theorem fetchFrom_limit {s : State} (n m : Nat) (bs : List Byte)
    (h : ∀ k, k < bs.length → fetchStop s k = none) (hn : fetchLimit ≤ bs.length + n) :
    fetchFrom s (n + m) bs = fetchFrom s n bs := by
  induction n generalizing bs with
  | zero =>
    obtain ⟨k, hk, hs⟩ := exists_fetchStop s
    exact absurd (h k (by omega)) hs
  | succ n ih =>
    have e : n + 1 + m = (n + m) + 1 := by omega
    rw [e, fetchFrom, fetchFrom]
    cases decode bs with
    | more =>
      dsimp only
      cases hst : fetchStop s bs.length with
      | some st => rfl
      | none =>
        dsimp only
        refine ih _ (fun k hk => ?_) (by simp; omega)
        rw [List.length_append, List.length_singleton] at hk
        rcases Nat.lt_or_eq_of_le (Nat.lt_succ_iff.mp hk) with hk | hk
        · exact h k hk
        · rw [hk]; exact hst
    | _ => rfl

/-- A fault of the fetch carries the pc of the instruction. -/
theorem fetchStop_pc {s : State} {i : Nat} {f : Fault} (h : fetchStop s i = some (.fault f)) :
    faultPc f = s.pc := by
  unfold fetchStop at h
  split at h
  · exact admissionStop_pc h
  · simp only [raise, Option.some.injEq, Stop.fault.injEq] at h
    rw [← h]; rfl

/-- A step happens where the launch premises hold. -/
theorem notRunning_eq_none_iff (s : State) : notRunning s = none ↔ Running s := by
  unfold notRunning Running
  cases s.cfg.env.otherWriter <;> cases s.cfg.env.asyncEvents <;> cases s.cfg.env.debugArmed <;>
    by_cases h1 : s.mode = .mode64 <;> by_cases h2 : s.pc = s.cfg.codeEnd <;> simp [h1, h2]

/-- A step is the fetch and the instruction, once a step happens at all. -/
theorem step_of_running {s : State} (h : Running s) :
    step s = match fetchDecode s with
      | .error st => st.outcome
      | .ok i => exec i s := by
  unfold step
  rw [(notRunning_eq_none_iff s).mpr h] <;> rfl

/-- A step that answers a next state has run an instruction it fetched. -/
theorem step_eq_next {s t : State} (h : step s = .next t) :
    Running s ∧ ∃ i, fetchDecode s = .ok i ∧ exec i s = .next t := by
  unfold step at h
  cases hr : notRunning s with
  | some r => simp [hr] at h
  | none =>
    rw [hr] at h
    refine ⟨(notRunning_eq_none_iff s).mp hr, ?_⟩
    cases hf : fetchDecode s with
    | error st => rw [hf] at h; exact absurd h (Stop.outcome_ne_next st t)
    | ok i => rw [hf] at h; exact ⟨i, rfl, h⟩

end Sys2Proof.Machine
end

