-- ==== Sys2Proof/Laws/PerInstr.lean ====
section
/-! SUPPORT. The family EncodeLength: an instruction's encoding has as many bytes as its length says
(30_encoding.md R118). One lemma for each constructor of Instr. -/

namespace Sys2Proof.Laws.EncodeLength

/-- The encoding of an instruction has `ilen` bytes. -/
def Statement (i : Instr) : Prop := (encode i).length = i.ilen

/-- ModRM, SIB and displacement. -/
theorem rmBytes_length (reg : BitVec 3) (rm : Rm) : (rmBytes reg rm).length = 1 + rm.tailBytes := by
  cases rm with
  | reg r => rfl
  | mem m =>
    cases m with
    | base rm d => cases d <;> rfl
    | rip d => rfl
    | sib a b c d => cases d <;> rfl
    | sibNoBase a b d => rfl

theorem preBytes_length (pre : List Prefix) : (preBytes pre).length = pre.length := List.length_map ..

theorem legacyHead_length (rex : Option Rex) :
    (legacyHead rex).length = (if rex.isSome then 2 else 1) + 1 := by
  cases rex <;> rfl

theorem pxorMm (pre : List Prefix) (rex : Option Rex) (reg : BitVec 3) (rm : Rm) :
    Statement (.pxorMm pre rex reg rm) := by
  simp [Statement, encode, Instr.ilen, legacyLen, preBytes_length, legacyHead_length, rmBytes_length]
  omega

theorem pxorXmm (pre : List Prefix) (rex : Option Rex) (reg : BitVec 3) (rm : Rm) :
    Statement (.pxorXmm pre rex reg rm) := by
  simp [Statement, encode, Instr.ilen, legacyLen, preBytes_length, legacyHead_length, rmBytes_length]
  omega

theorem vpxorXmmVex2 (pre : List Prefix) (v : Vex2) (reg : BitVec 3) (rm : Rm) :
    Statement (.vpxorXmmVex2 pre v reg rm) := by
  simp [Statement, encode, Instr.ilen, vex2Len, preBytes_length, vex2Head, rmBytes_length]
  omega

theorem vpxorXmmVex3 (pre : List Prefix) (v : Vex3) (reg : BitVec 3) (rm : Rm) :
    Statement (.vpxorXmmVex3 pre v reg rm) := by
  simp [Statement, encode, Instr.ilen, vex3Len, preBytes_length, vex3Head, rmBytes_length]
  omega

theorem vpxorYmmVex2 (pre : List Prefix) (v : Vex2) (reg : BitVec 3) (rm : Rm) :
    Statement (.vpxorYmmVex2 pre v reg rm) := by
  simp [Statement, encode, Instr.ilen, vex2Len, preBytes_length, vex2Head, rmBytes_length]
  omega

theorem vpxorYmmVex3 (pre : List Prefix) (v : Vex3) (reg : BitVec 3) (rm : Rm) :
    Statement (.vpxorYmmVex3 pre v reg rm) := by
  simp [Statement, encode, Instr.ilen, vex3Len, preBytes_length, vex3Head, rmBytes_length]
  omega

theorem vpxordXmm (pre : List Prefix) (e : Evex) (reg : BitVec 3) (rm : Rm) :
    Statement (.vpxordXmm pre e reg rm) := by
  simp [Statement, encode, Instr.ilen, evexLen, preBytes_length, evexHead, rmBytes_length]
  omega

theorem vpxordYmm (pre : List Prefix) (e : Evex) (reg : BitVec 3) (rm : Rm) :
    Statement (.vpxordYmm pre e reg rm) := by
  simp [Statement, encode, Instr.ilen, evexLen, preBytes_length, evexHead, rmBytes_length]
  omega

theorem vpxordZmm (pre : List Prefix) (e : Evex) (reg : BitVec 3) (rm : Rm) :
    Statement (.vpxordZmm pre e reg rm) := by
  simp [Statement, encode, Instr.ilen, evexLen, preBytes_length, evexHead, rmBytes_length]
  omega

theorem vpxorqXmm (pre : List Prefix) (e : Evex) (reg : BitVec 3) (rm : Rm) :
    Statement (.vpxorqXmm pre e reg rm) := by
  simp [Statement, encode, Instr.ilen, evexLen, preBytes_length, evexHead, rmBytes_length]
  omega

theorem vpxorqYmm (pre : List Prefix) (e : Evex) (reg : BitVec 3) (rm : Rm) :
    Statement (.vpxorqYmm pre e reg rm) := by
  simp [Statement, encode, Instr.ilen, evexLen, preBytes_length, evexHead, rmBytes_length]
  omega

theorem vpxorqZmm (pre : List Prefix) (e : Evex) (reg : BitVec 3) (rm : Rm) :
    Statement (.vpxorqZmm pre e reg rm) := by
  simp [Statement, encode, Instr.ilen, evexLen, preBytes_length, evexHead, rmBytes_length]
  omega

end Sys2Proof.Laws.EncodeLength
end

