-- ==== Sys2Proof/Tests/Slice0.lean ====
section
/-! SUPPORT. Tests. The words, states and results are those of 95_test_vectors.md (E, V, X, Y rows) and of the
examples of the form rules; then, for every statement with hypotheses, a state and operands that meet them. -/

namespace Sys2Proof.Tests

open Sys2Proof.Machine

set_option maxRecDepth 4000
set_option Elab.async false

/-! ## Helpers -/

/-- The state an outcome goes on in. -/
def nextOf : Host.Outcome State Fault Refusal → Option State
  | .next t => some t
  | _ => none

/-- The fault an outcome stops with. -/
def faultOf : Host.Outcome State Fault Refusal → Option Fault
  | .fault f => some f
  | _ => none

/-- The refusal an outcome stops with. -/
def refusalOf : Host.Outcome State Fault Refusal → Option Refusal
  | .refused r => some r
  | _ => none

theorem next_of {o : Host.Outcome State Fault Refusal} (h : (nextOf o).isSome = true) : ∃ t, o = .next t := by
  cases o with
  | next t => exact ⟨t, rfl⟩
  | fault f => cases h
  | refused r => cases h

theorem fault_of {o : Host.Outcome State Fault Refusal} {f : Fault} (h : faultOf o = some f) : o = .fault f := by
  cases o with
  | next t => cases h
  | fault g => exact congrArg _ (Option.some.inj h)
  | refused r => cases h

theorem refusal_of {o : Host.Outcome State Fault Refusal} {r : Refusal} (h : refusalOf o = some r) :
    o = .refused r := by
  cases o with
  | next t => cases h
  | fault g => cases h
  | refused r => exact congrArg _ (Option.some.inj h)

theorem enabled_of {f : Form} {s : State} (h : formStop f s = none) : Enabled f s :=
  (formStop_eq_none_iff f s).mp h

theorem nextPcOk_of {s : State} {n : Nat} (h : nextPcOk s n = true) : NextPcOk s n := (nextPcOk_iff s n).mp h

theorem running_of {s : State} (h : notRunning s = none) : Running s := (notRunning_eq_none_iff s).mp h

/-- `cond` holds of the next state. -/
def nextIs (o : Host.Outcome State Fault Refusal) (cond : State → Bool) : Bool :=
  match o with
  | .next t => cond t
  | _ => false

/-- The launch state of the vectors: pc = 0x1000, everything enabled, no program yet. -/
def s0 : State :=
  { launch State.reset with
    pc := 0x1000#64
    x87 := { top := 5#3, tag := Vector.replicate 8 3#2, hi := Vector.replicate 8 0x1234#16, pending := false } }

/-- Byte `i` of the 80 bytes at 0x2000 is `i`. -/
def mem80 : Memory := (List.range 79).map fun i => (0x2001 + i, BitVec.ofNat 8 (i + 1))

def withVec (s : State) (r : BitVec 5) (v : VecWord) : State := { s with vec := s.vec.set r.toFin v }
def withMm (s : State) (r : BitVec 3) (v : Quad) : State := { s with mm := s.mm.set r.toFin v }
def withK (s : State) (r : BitVec 3) (v : Quad) : State := { s with k := s.k.set r.toFin v }
def withGpr (s : State) (r : BitVec 4) (v : Quad) : State := { s with gpr := s.gpr.set r.toFin v }
def withMem (s : State) : State := { s with mem := mem80 }

/-- One step on the given bytes at pc. -/
def stepOn (s : State) (bs : List Byte) : Host.Outcome State Fault Refusal := step (loadProgram s bs bs.length)

def xA : VecWord := 0x00112233445566778899AABBCCDDEEFF#512
def xB : VecWord := 0x0F0F0F0F0F0F0F0FF0F0F0F0F0F0F0F0#512
def xAB : VecWord := 0x0F1E2D3C4B5A697878695A4B3C2D1E0F#512
def z1 : VecWord := 0x44332211FFEEDDCCBBAA998877665544332211FFEEDDCCBBAA998877665544332211FFEEDDCCBBAA998877665544332211FFEEDDCCBBAA998877665544332211#512
def z2 : VecWord := 0x3F3E3D3C3B3A393837363534333231302F2E2D2C2B2A292827262524232221201F1E1D1C1B1A191817161514131211100F0E0D0C0B0A09080706050403020100#512
def z3 : VecWord := 0x81838587898B8D8F91939597999B9D9FA1A3A5A7A9ABADAFB1B3B5B7B9BBBDBFC1C3C5C7C9CBCDCFD1D3D5D7D9DBDDDFE1E3E5E7E9EBEDEFF1F3F5F7F9FBFDFF#512

/-- The 384 bits `U1` above the 128 bits of `v`. -/
def underU1 (v : VecWord) : VecWord := replaceLow128 z1 v

/-- vec[1] = Z1, vec[2] = Z2, vec[3] = Z3. -/
def sZ : State := withVec (withVec (withVec s0 1#5 z1) 2#5 z2) 3#5 z3

def mkEvex (d5 : Bool × Bool) (vvvv : BitVec 4) (z bcast : Bool) (aaa : BitVec 3) : Evex :=
  { r := d5.2, x := false, b := false, rHi := d5.1, vvvv := vvvv, z := z, bcast := bcast, vHi := false,
    aaa := aaa }

/-- A plain EVEX payload: destination below 8, first source `v`. -/
def ev (v : BitVec 4) (z bcast : Bool) (aaa : BitVec 3) : Evex := mkEvex (false, false) v z bcast aaa

def rx (w r x b : Bool) : Rex := { w := w, r := r, x := x, b := b }

/-! ## WellFormed: one ill-formed term for each check, refused -/

theorem test_wf_refuses_lock : Instr.wf (.pxorMm [.lock] none 0#3 (.reg 1#3)) = false := by decide
theorem test_wf_refuses_repne : Instr.wf (.pxorMm [.repne] none 0#3 (.reg 1#3)) = false := by decide
theorem test_wf_refuses_rep : Instr.wf (.pxorXmm [.opSize, .rep] none 0#3 (.reg 1#3)) = false := by decide
theorem test_wf_refuses_f1_with_66 : Instr.wf (.pxorMm [.opSize] none 0#3 (.reg 1#3)) = false := by decide
theorem test_wf_refuses_f2_without_66 : Instr.wf (.pxorXmm [] none 0#3 (.reg 1#3)) = false := by decide
theorem test_wf_refuses_two_segments : Instr.wf (.pxorMm [.seg .fs, .seg .gs] none 0#3 (.reg 1#3)) = false := by decide
theorem test_wf_refuses_rex_swallowed : Instr.wf (.pxorMm [.rexIgnored 0#4] none 0#3 (.reg 1#3)) = false := by decide
theorem test_wf_refuses_66_before_vex : Instr.wf (.vpxorXmmVex2 [.opSize] ⟨false, 1#4⟩ 0#3 (.reg 1#3)) = false := by decide
theorem test_wf_refuses_lock_before_vex : Instr.wf (.vpxorYmmVex3 [.lock] ⟨false, false, false, false, 1#4⟩ 0#3 (.reg 1#3)) = false := by decide
theorem test_wf_refuses_rex_before_evex : Instr.wf (.vpxordZmm [.rexIgnored 0#4] (ev 2#4 false false 0#3) 1#3 (.reg 3#3)) = false := by decide
theorem test_wf_refuses_two_segments_before_evex : Instr.wf (.vpxordZmm [.seg .cs, .seg .cs] (ev 2#4 false false 0#3) 1#3 (.reg 3#3)) = false := by decide
theorem test_wf_refuses_base_rm4 : Instr.wf (.pxorMm [] none 0#3 (.mem (.base 4#3 .none))) = false := by decide
theorem test_wf_refuses_base_rm5_none : Instr.wf (.pxorMm [] none 0#3 (.mem (.base 5#3 .none))) = false := by decide
theorem test_wf_refuses_sib_base5_none : Instr.wf (.pxorMm [] none 0#3 (.mem (.sib 0#2 1#3 5#3 .none))) = false := by decide
theorem test_wf_refuses_z_without_mask : Instr.wf (.vpxordZmm [] (ev 2#4 true false 0#3) 1#3 (.reg 3#3)) = false := by decide
theorem test_wf_refuses_b_with_register : Instr.wf (.vpxorqZmm [] (ev 2#4 false true 1#3) 1#3 (.reg 3#3)) = false := by decide
theorem test_wf_refuses_sixteen_bytes : Instr.wf (.pxorXmm (List.replicate 13 .opSize) none 0#3 (.reg 1#3)) = false := by decide
theorem test_wf_accepts_fifteen_bytes :
    Instr.wf (.pxorXmm (List.replicate 12 .opSize) none 0#3 (.reg 1#3)) = true := by decide

/-! ## Decoding: words of the spec -/

theorem test_decode_E1 :
    decode [0x0F#8, 0xEF#8, 0xC1#8] =
      .instr (.pxorMm [] none 0#3 (.reg 1#3)) := by decide +kernel
theorem test_decode_E3 :
    decode [0x0F#8, 0xEF#8, 0x7C#8, 0x8B#8, 0x10#8] =
      .instr (.pxorMm [] none 7#3 (.mem (.sib 2#2 1#3 3#3 (.disp8 0x10#8)))) := by decide +kernel
theorem test_decode_E4 :
    decode [0x44#8, 0x0F#8, 0xEF#8, 0xC1#8] =
      .instr (.pxorMm [] (some (rx false true false false)) 0#3 (.reg 1#3)) := by decide +kernel
theorem test_decode_E8 :
    decode [0x66#8, 0x44#8, 0x0F#8, 0xEF#8, 0xC1#8] =
      .instr (.pxorXmm [.opSize] (some (rx false true false false)) 0#3 (.reg 1#3)) := by decide +kernel
theorem test_decode_E10 :
    decode [0x66#8, 0x45#8, 0x0F#8, 0xEF#8, 0x7D#8, 0x00#8] =
      .instr (.pxorXmm [.opSize] (some (rx false true false true)) 7#3 (.mem (.base 5#3 (.disp8 0#8)))) := by decide +kernel
theorem test_decode_E11 :
    decode [0x66#8, 0x0F#8, 0xEF#8, 0x15#8, 0x00#8, 0x01#8, 0x00#8, 0x00#8] =
      .instr (.pxorXmm [.opSize] none 2#3 (.mem (.rip 0x100#32))) := by decide +kernel
theorem test_decode_E12 :
    decode [0x66#8, 0x0F#8, 0xEF#8, 0x14#8, 0x24#8] =
      .instr (.pxorXmm [.opSize] none 2#3 (.mem (.sib 0#2 4#3 4#3 .none))) := by decide +kernel
theorem test_decode_E13 :
    decode [0x67#8, 0x66#8, 0x0F#8, 0xEF#8, 0x10#8] =
      .instr (.pxorXmm [.addrSize, .opSize] none 2#3 (.mem (.base 0#3 .none))) := by decide +kernel
theorem test_decode_E14 :
    decode [0x64#8, 0x66#8, 0x0F#8, 0xEF#8, 0x10#8] =
      .instr (.pxorXmm [.seg .fs, .opSize] none 2#3 (.mem (.base 0#3 .none))) := by decide +kernel
theorem test_decode_Y1 :
    decode [0x41#8, 0x66#8, 0x0F#8, 0xEF#8, 0xCB#8] =
      .instr (.pxorXmm [.rexIgnored 1#4, .opSize] none 1#3 (.reg 3#3)) := by decide +kernel
theorem test_decode_E15 :
    decode [0xC5#8, 0xF1#8, 0xEF#8, 0xC2#8] =
      .instr (.vpxorXmmVex2 [] ⟨false, 1#4⟩ 0#3 (.reg 2#3)) := by decide +kernel
theorem test_decode_E17 :
    decode [0xC4#8, 0xE1#8, 0x71#8, 0xEF#8, 0xC2#8] =
      .instr (.vpxorXmmVex3 [] ⟨false, false, false, false, 1#4⟩ 0#3 (.reg 2#3)) := by decide +kernel
theorem test_decode_E19 :
    decode [0xC5#8, 0xF5#8, 0xEF#8, 0xC2#8] =
      .instr (.vpxorYmmVex2 [] ⟨false, 1#4⟩ 0#3 (.reg 2#3)) := by decide +kernel
theorem test_decode_E20 :
    decode [0xC4#8, 0x41#8, 0x35#8, 0xEF#8, 0xC2#8] =
      .instr (.vpxorYmmVex3 [] ⟨true, false, true, false, 9#4⟩ 0#3 (.reg 2#3)) := by decide +kernel
theorem test_decode_E21 :
    decode [0xC4#8, 0xA1#8, 0x05#8, 0xEF#8, 0x4C#8, 0xE0#8, 0x80#8] =
      .instr (.vpxorYmmVex3 [] ⟨false, true, false, false, 15#4⟩ 1#3
      (.mem (.sib 3#2 4#3 0#3 (.disp8 0x80#8)))) := by decide +kernel
theorem test_decode_Y7 :
    decode [0x48#8, 0x64#8, 0xC5#8, 0xF1#8, 0xEF#8, 0xC2#8] =
      .instr (.vpxorXmmVex2 [.rexIgnored 8#4, .seg .fs] ⟨false, 1#4⟩ 0#3 (.reg 2#3)) := by decide +kernel
theorem test_decode_E25 :
    decode [0x62#8, 0xA1#8, 0x75#8, 0x00#8, 0xEF#8, 0xC2#8] =
      .instr (.vpxordXmm [] ⟨false, true, false, true, 1#4, false, false, true, 0#3⟩ 0#3 (.reg 2#3)) := by decide +kernel
theorem test_decode_E27 :
    decode [0x62#8, 0x11#8, 0x35#8, 0xA4#8, 0xEF#8, 0x4C#8, 0x51#8, 0x01#8] =
      .instr (.vpxordYmm [] ⟨true, true, true, false, 9#4, true, false, true, 4#3⟩ 1#3
      (.mem (.sib 1#2 2#3 1#3 (.disp8 1#8)))) := by decide +kernel
theorem test_decode_E28 :
    decode [0x62#8, 0xF1#8, 0x65#8, 0x58#8, 0xEF#8, 0x15#8, 0x10#8, 0x00#8, 0x00#8, 0x00#8] =
      .instr (.vpxordZmm [] (ev 3#4 false true 0#3) 2#3 (.mem (.rip 0x10#32))) := by decide +kernel
theorem test_decode_E29 :
    decode [0x62#8, 0xF1#8, 0xE5#8, 0x09#8, 0xEF#8, 0x53#8, 0x01#8] =
      .instr (.vpxorqXmm [] (ev 3#4 false false 1#3) 2#3 (.mem (.base 3#3 (.disp8 1#8)))) := by decide +kernel
theorem test_decode_E30 :
    decode [0x62#8, 0xF1#8, 0xDD#8, 0x3A#8, 0xEF#8, 0x58#8, 0x01#8] =
      .instr (.vpxorqYmm [] (ev 4#4 false true 2#3) 3#3 (.mem (.base 0#3 (.disp8 1#8)))) := by decide +kernel
theorem test_decode_E31 :
    decode [0x62#8, 0x01#8, 0x8D#8, 0xC3#8, 0xEF#8, 0xFD#8] =
      .instr (.vpxorqZmm [] ⟨true, true, true, true, 14#4, true, false, true, 3#3⟩ 7#3 (.reg 5#3)) := by decide +kernel
theorem test_decode_X3_b_with_register :
    decode [0x62#8, 0xF1#8, 0x6D#8, 0x58#8, 0xEF#8, 0xCB#8] = .invalid := by decide +kernel
theorem test_decode_X10_rex_before_vex :
    decode [0x48#8, 0xC5#8, 0xF1#8, 0xEF#8, 0xC2#8] = .invalid := by decide +kernel
theorem test_decode_X22_other_map :
    decode [0xC4#8, 0xE2#8, 0x71#8, 0xEF#8, 0xC2#8] = .notThisSpec := by decide +kernel
theorem test_encode_E27 :
    encode (.vpxordYmm [] ⟨true, true, true, false, 9#4, true, false, true, 4#3⟩ 1#3
      (.mem (.sib 1#2 2#3 1#3 (.disp8 1#8)))) =
      [0x62#8, 0x11#8, 0x35#8, 0xA4#8, 0xEF#8, 0x4C#8, 0x51#8, 0x01#8] := by decide +kernel

/-! ## One step -/

/-- V1. -/
theorem test_pxorMm_V1 :
    nextIs (stepOn (withMm (withMm s0 0#3 0x0123456789ABCDEF#64) 1#3 0xFFFF0000FFFF0000#64)
      [0x0F#8, 0xEF#8, 0xC1#8])
      (fun t => decide (mmAt t 0#3 = 0xFEDC45677654CDEF#64) && decide (t.x87.top = 0#3) &&
        decide (t.x87.hi.get 0 = 0xFFFF#16) && decide (t.x87.hi.get 1 = 0x1234#16) && decide (t.pc = 0x1003#64)) = true := by decide +kernel
/-- V3: an operand that is not 8-byte aligned. -/
theorem test_pxorMm_V3 :
    nextIs (stepOn (withGpr (withMm (withMem s0) 3#3 0xFFFF0000FFFF0000#64) 6#4 0x2009#64)
      [0x0F#8, 0xEF#8, 0x1E#8])
      (fun t => decide (mmAt t 3#3 = 0xEFF00E0DF3F40A09#64)) = true := by decide +kernel
/-- V5: bits 511:128 are kept. -/
theorem test_pxorXmm_V5 :
    nextIs (stepOn (withVec (withVec s0 0#5 (underU1 xA)) 1#5 xB)
      [0x66#8, 0x0F#8, 0xEF#8, 0xC1#8])
      (fun t => decide (vecAt t 0#5 = underU1 xAB) && decide (t.pc = 0x1004#64)) = true := by decide +kernel
/-- V13: 32-bit address size. -/
theorem test_pxorXmm_V13 :
    nextIs (stepOn (withGpr (withVec (withMem s0) 2#5 xA) 0#4 0x0000000100002010#64)
      [0x67#8, 0x66#8, 0x0F#8, 0xEF#8, 0x10#8])
      (fun t => decide (vecAt t 2#5 = 0x1F0F3F2F5F4F7F6F9F8FBFAFDFCFFFEF#512)) = true := by decide +kernel
/-- V14: bits 511:128 are zeroed. -/
theorem test_vpxorXmmVex2_V14 :
    nextIs (stepOn (withVec (withVec (withVec s0 0#5 z1) 1#5 (underU1 xA)) 2#5 (underU1 xB))
      [0xC5#8, 0xF1#8, 0xEF#8, 0xC2#8])
      (fun t => decide (vecAt t 0#5 = xAB) && decide (t.pc = 0x1004#64)) = true := by decide +kernel
/-- V16: a misaligned operand. -/
theorem test_vpxorXmmVex2_V16 :
    nextIs (stepOn (withGpr (withVec (withVec (withMem s0) 0#5 z1) 1#5 xA) 7#4 0x2001#64)
      [0xC5#8, 0xF1#8, 0xEF#8, 0x07#8])
      (fun t => decide (vecAt t 0#5 = 0x101E2C3E485E6C7E809EACBEC8DEECFE#512)) = true := by decide +kernel
/-- V17: VEX.W = 1 is ignored. -/
theorem test_vpxorXmmVex3_V17 :
    nextIs (stepOn (withVec (withVec (withVec s0 0#5 z1) 1#5 xA) 2#5 xB)
      [0xC4#8, 0xE1#8, 0xF1#8, 0xEF#8, 0xC2#8])
      (fun t => decide (vecAt t 0#5 = xAB) && decide (t.pc = 0x1005#64)) = true := by decide +kernel
/-- V19. -/
theorem test_vpxorYmmVex2_V19 :
    nextIs (stepOn (withVec (withVec (withVec s0 0#5 z1) 1#5
        0xFFFFFFFFFFFFFFFF0000000000000000AAAAAAAAAAAAAAAA5555555555555555#512) 2#5
        0x0123456789ABCDEF0123456789ABCDEFFFFFFFFFFFFFFFFFFFFFFFFFFFFFFFFF#512)
      [0xC5#8, 0xF5#8, 0xEF#8, 0xC2#8])
      (fun t => decide (vecAt t 0#5 = 0xFEDCBA98765432100123456789ABCDEF5555555555555555AAAAAAAAAAAAAAAA#512)) = true := by decide +kernel
/-- V21: base, index and an unscaled disp8. -/
theorem test_vpxorYmmVex3_V21 :
    nextIs (stepOn (withGpr (withGpr (withVec (withVec (withMem s0) 1#5 z1) 15#5 (BitVec.allOnes 512)) 0#4 0x2040#64)
        12#4 8#64)
      [0xC4#8, 0xA1#8, 0x05#8, 0xEF#8, 0x4C#8, 0xE0#8, 0x80#8])
      (fun t => decide (vecAt t 1#5 =
        0xE0E1E2E3E4E5E6E7E8E9EAEBECEDEEEFF0F1F2F3F4F5F6F7F8F9FAFBFCFDFEFF#512)) = true := by decide +kernel
/-- V28: merging, and the bits above VL zeroed all the same. -/
theorem test_vpxordXmm_V28 :
    nextIs (stepOn (withK sZ 1#3 0xA5#64)
      [0x62#8, 0xF1#8, 0x6D#8, 0x09#8, 0xEF#8, 0xCB#8])
      (fun t => decide (vecAt t 1#5 = 0x11FFEEDDE2E1E4E788776655FAF9FCFF#512)) = true := by decide +kernel
/-- V35: registers 16 to 18. -/
theorem test_vpxordXmm_V35 :
    nextIs (stepOn (withVec (withVec (withVec s0 16#5 z1) 17#5 xA) 18#5 xB)
      [0x62#8, 0xA1#8, 0x75#8, 0x00#8, 0xEF#8, 0xC2#8])
      (fun t => decide (vecAt t 16#5 = xAB)) = true := by decide +kernel
/-- V29: zeroing. -/
theorem test_vpxordYmm_V29 :
    nextIs (stepOn (withK sZ 1#3 0xA5#64)
      [0x62#8, 0xF1#8, 0x6D#8, 0xA9#8, 0xEF#8, 0xCB#8])
      (fun t => decide (vecAt t 1#5 =
        0xDEDDD8DB00000000C6C5C0C30000000000000000E2E1E4E700000000FAF9FCFF#512)) = true := by decide +kernel
/-- V39 with gpr[9] = 0x1FE0, so that EA = 0x1FE0 + 0x20 + 1*32 = 0x2020: byte i XOR byte 0x20 + i is 0x20. -/
theorem test_vpxordYmm_disp8 :
    nextIs (stepOn (withGpr (withGpr (withK (withVec (withMem s0) 25#5 z2) 4#3 0x81#64) 9#4 0x1FE0#64) 10#4 0x10#64)
      [0x62#8, 0x11#8, 0x35#8, 0xA4#8, 0xEF#8, 0x4C#8, 0x51#8, 0x01#8])
      (fun t => decide (vecAt t 9#5 =
        0x2020202000000000000000000000000000000000000000000000000020202020#512)) = true := by decide +kernel
/-- V24: merging. -/
theorem test_vpxordZmm_V24 :
    nextIs (stepOn (withK sZ 1#3 0xA5#64)
      [0x62#8, 0xF1#8, 0x6D#8, 0x49#8, 0xEF#8, 0xCB#8])
      (fun t => decide (vecAt t 1#5 =
        0x44332211FFEEDDCCBBAA998877665544332211FFEEDDCCBBAA99887766554433DEDDD8DBDDCCBBAAC6C5C0C35544332211FFEEDDE2E1E4E788776655FAF9FCFF#512)) = true := by decide +kernel
/-- V36: broadcast of a doubleword. -/
theorem test_vpxordZmm_V36 :
    nextIs (stepOn (withGpr (withK (withMem sZ) 1#3 5#64) 0#4 0x201F#64)
      [0x62#8, 0xF1#8, 0x6D#8, 0x59#8, 0xEF#8, 0x08#8])
      (fun t => decide (vecAt t 1#5 =
        0x44332211FFEEDDCCBBAA998877665544332211FFEEDDCCBBAA998877665544332211FFEEDDCCBBAA998877665544332211FFEEDD292B2917887766552123211F#512)) = true := by decide +kernel
/-- The example of 42_vpxord_vpxorq_evex.md R155. -/
theorem test_vpxorqXmm_R155 :
    nextIs (stepOn (withVec (withVec (withVec (withK s0 1#3 2#64) 1#5 0x11111111111111112222222222222222#512) 2#5
        0xFFFFFFFF000000000123456789ABCDEF#512) 3#5 0x00000000FFFFFFFFFFFFFFFFFFFFFFFF#512)
      [0x62#8, 0xF1#8, 0xED#8, 0x09#8, 0xEF#8, 0xCB#8])
      (fun t => decide (vecAt t 1#5 = 0xFFFFFFFFFFFFFFFF2222222222222222#512)) = true := by decide +kernel
/-- The example of R156: broadcast at disp8 times 8. -/
theorem test_vpxorqYmm_R156 :
    nextIs (stepOn (withVec (withVec (withK (withGpr { s0 with mem := [(0x2008, 0xFF#8), (0x2009, 0xFF#8), (0x200A, 0xFF#8), (0x200B, 0xFF#8)] }
        0#4 0x2000#64) 2#3 9#64) 4#5 0x0000000400000004000000030000000300000002000000020000000100000001#512) 3#5
        0xEEEEEEEEEEEEEEE3EEEEEEEEEEEEEEE2EEEEEEEEEEEEEEE1EEEEEEEEEEEEEEE0#512)
      [0x62#8, 0xF1#8, 0xDD#8, 0x3A#8, 0xEF#8, 0x58#8, 0x01#8])
      (fun t => decide (vecAt t 3#5 = 0x00000004FFFFFFFBEEEEEEEEEEEEEEE2EEEEEEEEEEEEEEE100000001FFFFFFFE#512)) = true := by decide +kernel
/-- The example of R157: registers 29 to 31. -/
theorem test_vpxorqZmm_R157 :
    nextIs (stepOn (withVec (withVec (withK s0 3#3 0x0F#64) 30#5
        0x00000000000000070000000000000006000000000000000500000000000000040000000000000003000000000000000200000000000000010000000000000000#512)
        29#5 (BitVec.allOnes 512))
      [0x62#8, 0x01#8, 0x8D#8, 0xC3#8, 0xEF#8, 0xFD#8])
      (fun t => decide (vecAt t 31#5 =
        0xFFFFFFFFFFFFFFFCFFFFFFFFFFFFFFFDFFFFFFFFFFFFFFFEFFFFFFFFFFFFFFFF#512)) = true := by decide +kernel
/-- V30: merging. -/
theorem test_vpxorqZmm_V30 :
    nextIs (stepOn (withK sZ 1#3 0xA5#64)
      [0x62#8, 0xF1#8, 0xED#8, 0x49#8, 0xEF#8, 0xCB#8])
      (fun t => decide (vecAt t 1#5 =
        0xBEBDB8BBB2B1B4B7BBAA9988776655448E8D888B82818487AA998877665544332211FFEEDDCCBBAAC6C5C0C3CAC9CCCF11FFEEDDCCBBAA99F6F5F0F3FAF9FCFF#512)) = true := by decide +kernel

/-! ## The first instruction after reset -/

theorem test_withFetchWord_E1 :
    nextIs (step (State.reset.withFetchWord 24 0x0FEFC1)) (fun t => decide (t.pc = 0xFFF3#64)) = true := by
  decide +kernel

theorem test_decodeTableWord_E15 :
    decodeTableWord 32 0xC5F1EFC2 = some (.vpxorXmmVex2 [] ⟨false, 1#4⟩ 0#3 (.reg 2#3)) := by decide +kernel

theorem test_memory_write_keeps_form : Memory.wf ((mem80.write 0x2005 0#8).write 0x1000 7#8) = true := by
  decide +kernel

/-! ## Witnesses: for every statement with hypotheses, operands and a state that meet them -/

/-- A program at pc. -/
def at0 (bs : List Byte) : State := loadProgram s0 bs bs.length

/-- The code is at pc, checked byte by byte. -/
theorem codeAt_of {s : State} {bs : List Byte}
    (h : (List.range bs.length).all (fun i =>
      (fetchStop s i).isNone && s.mem.read (byteAddr s.pc i).toNat == bs.getD i 0#8) = true) : CodeAt s bs := by
  intro i hi
  have := List.all_eq_true.mp h i (List.mem_range.mpr hi)
  simp only [Bool.and_eq_true, Option.isNone_iff_eq_none, beq_iff_eq] at this
  exact ⟨this.1, by rw [this.2]; simp [List.getD, hi]⟩

theorem readable_of {s : State} {la : Quad} {n : Nat}
    (h : (List.range n).all (fun i => byteReadable s la i) = true) : Readable s la n :=
  fun i hi => List.all_eq_true.mp h i (List.mem_range.mpr hi)

def iMm : Instr := .pxorMm [] none 0#3 (.reg 1#3)
def iMmMem : Instr := .pxorMm [] none 3#3 (.mem (.base 6#3 .none))
def iXmm : Instr := .pxorXmm [.opSize] none 0#3 (.reg 1#3)
def iXmmMem : Instr := .pxorXmm [.opSize] none 0#3 (.mem (.base 0#3 .none))
def iVex : Instr := .vpxorXmmVex2 [] ⟨false, 1#4⟩ 0#3 (.reg 2#3)
def iVexMem : Instr := .vpxorXmmVex3 [] ⟨false, false, false, false, 1#4⟩ 0#3 (.mem (.base 0#3 .none))
def iEvex : Instr := .vpxordZmm [] (ev 2#4 false false 1#3) 1#3 (.reg 3#3)
def iEvexMem : Instr := .vpxordZmm [] (ev 2#4 false false 1#3) 1#3 (.mem (.base 0#3 .none))
def iBcast : Instr := .vpxorqYmm [] (ev 4#4 false true 2#3) 3#3 (.mem (.base 0#3 (.disp8 1#8)))

theorem witness_DecodeEncode : iEvexMem.wf = true ∧
    (Instr.pxorXmm (List.replicate 12 .opSize) none 0#3 (.reg 1#3)).wf = true := by decide

theorem witness_DecodeSound_DecodedWellFormed :
    decode [0x0F#8, 0xEF#8, 0xC1#8, 0x90#8] = .instr iMm := by decide +kernel

theorem witness_DecodeNeedsNoMore : decode [0x90#8] ≠ .more := by decide +kernel

theorem witness_LengthOfInstruction :
    decode [0x0F#8, 0xEF#8, 0xC1#8] = .instr iMm ∧ iMm.wf = true ∧ iMm.form = .f1 ∧ iVex.wf = true ∧
      iVex.form ≠ .f1 ∧ iEvex.wf = true ∧ iEvex.form.layout = .evex := by decide +kernel

/-- Sixteen bytes. -/
def iLong : Instr := .pxorXmm (List.replicate 13 .opSize) none 0#3 (.reg 1#3)

theorem witness_TooLongRaisesGp :
    Running (at0 (encode iLong)) ∧ iLong.rm.wf = true ∧ segCount iLong.pre ≤ 1 ∧ 15 < iLong.ilen ∧
      iLong.form.layout = .legacy ∧ CodeAt (at0 (encode iLong)) (encode iLong) :=
  ⟨running_of (by decide +kernel), by decide, by decide, by decide, rfl, codeAt_of (by decide +kernel)⟩

/-- `48 C5 F1 EF C2` behind eleven prefix bytes: 16 bytes with the REX byte, 15 without. -/
def iRexVex : Instr :=
  .vpxorXmmVex2 (List.replicate 11 .addrSize ++ [.rexIgnored 8#4]) ⟨false, 1#4⟩ 0#3 (.reg 2#3)

/-- A REX byte behind nine prefix bytes, to stand before an EVEX payload of six bytes. -/
def preRex : List Prefix := List.replicate 9 .addrSize ++ [.rexIgnored 8#4]

def rexPayload : List Byte :=
  preBytes preRex ++ [0x62#8, 0xF9#8, 0x6D#8, 0x48#8, 0xEF#8] ++ rmBytes 1#3 (.reg 3#3)

theorem witness_RexBeforeVexCountsTowardLength :
    (Running (at0 (encode iRexVex)) ∧ segCount iRexVex.pre ≤ 1 ∧ 15 < iRexVex.ilen ∧
      iRexVex.form.layout ≠ .legacy ∧ endsInRex iRexVex.pre = true ∧
      CodeAt (at0 (encode iRexVex)) (encode iRexVex) ∧
      step (at0 (encode iRexVex)) = .fault (.gp none 0x1000#64)) ∧
    (Running (at0 rexPayload) ∧ segCount preRex ≤ 1 ∧ 15 < evexLen preRex (.reg 3#3) ∧
      endsInRex preRex = true ∧ CodeAt (at0 rexPayload) rexPayload ∧
      step (at0 rexPayload) = .fault (.gp none 0x1000#64)) :=
  ⟨⟨running_of (by decide +kernel), by decide, by decide, by decide, by decide, codeAt_of (by decide +kernel),
      fault_of (by decide +kernel)⟩,
    running_of (by decide +kernel), by decide, by decide, by decide, codeAt_of (by decide +kernel),
    fault_of (by decide +kernel)⟩

/-- `62 F9 6D 48 EF CB`, a reserved bit wrong, behind ten prefix bytes: 16 bytes. -/
def longPayload : List Byte :=
  preBytes (List.replicate 10 .addrSize) ++ [0x62#8, 0xF9#8, 0x6D#8, 0x48#8, 0xEF#8] ++ rmBytes 1#3 (.reg 3#3)

theorem witness_TooLongRaisesGp_payload :
    Running (at0 longPayload) ∧ segCount (List.replicate 10 .addrSize) ≤ 1 ∧
      15 < evexLen (List.replicate 10 .addrSize) (.reg 3#3) ∧
      endsInRex (List.replicate 10 .addrSize) = false ∧ CodeAt (at0 longPayload) longPayload ∧
      (0xF9#8).extractLsb' 0 2 = 1#2 ∧ (0x6D#8).extractLsb' 0 2 = 1#2 ∧
      step (at0 longPayload) = .fault (.gp none 0x1000#64) :=
  ⟨running_of (by decide +kernel), by decide, by decide, by decide, codeAt_of (by decide +kernel), by decide,
    by decide, fault_of (by decide +kernel)⟩

/-- One ill-prefixed instruction for each prefix condition; the first has 15 bytes. -/
def badPrefixed : List Instr :=
  [.pxorXmm (.lock :: List.replicate 11 .opSize) none 0#3 (.reg 1#3),
    .pxorMm [.repne] none 0#3 (.reg 1#3), .vpxorXmmVex2 [.rep] ⟨false, 1#4⟩ 0#3 (.reg 2#3),
    .vpxorXmmVex2 [.opSize] ⟨false, 1#4⟩ 0#3 (.reg 2#3),
    .vpxordZmm [.rexIgnored 0#4] (ev 2#4 false false 1#3) 1#3 (.reg 3#3)]

theorem witness_EncodingConditionsRaiseUd_prefixes : ∀ i ∈ badPrefixed,
    Running (at0 (encode i)) ∧ i.rm.wf = true ∧ segCount i.pre ≤ 1 ∧ i.ilen ≤ 15 ∧
      CodeAt (at0 (encode i)) (encode i) ∧
      (Prefix.lock ∈ i.pre ∨ Prefix.repne ∈ i.pre ∨ Prefix.rep ∈ i.pre ∨
        (i.form.layout ≠ .legacy ∧ (Prefix.opSize ∈ i.pre ∨ endsInRex i.pre = true))) := by
  intro i hi
  refine ⟨running_of ?_, ?_, ?_, ?_, codeAt_of ?_, ?_⟩ <;> revert i <;> decide +kernel

/-- One EVEX payload for each payload condition (X3 to X7), with a register of ModRM CB. -/
def badPayloads : List (Byte × Byte × Byte) :=
  [(0xF9#8, 0x6D#8, 0x48#8), (0xF5#8, 0x6D#8, 0x48#8), (0xF1#8, 0x69#8, 0x48#8), (0xF1#8, 0x6D#8, 0x68#8),
    (0xF1#8, 0x6D#8, 0xC8#8), (0xF1#8, 0x6D#8, 0x58#8)]

def payloadCode (p : Byte × Byte × Byte) : List Byte :=
  preBytes [] ++ [0x62#8, p.1, p.2.1, p.2.2, 0xEF#8] ++ rmBytes 1#3 (.reg 3#3)

theorem witness_EncodingConditionsRaiseUd_payload :
    Running (at0 (payloadCode (0xF1#8, 0x6D#8, 0x58#8))) ∧ (Rm.reg 3#3).wf = true ∧
      segCount [] ≤ 1 ∧ evexLen [] (.reg 3#3) ≤ 15 ∧
      CodeAt (at0 (payloadCode (0xF1#8, 0x6D#8, 0x58#8))) (payloadCode (0xF1#8, 0x6D#8, 0x58#8)) ∧
      (0xF1#8).extractLsb' 0 2 = 1#2 ∧ (0x6D#8).extractLsb' 0 2 = 1#2 ∧ (0x58#8).getLsbD 4 = true ∧
      ∃ r, Rm.reg 3#3 = .reg r :=
  ⟨running_of (by decide +kernel), by decide, by decide, by decide, codeAt_of (by decide +kernel), by decide,
    by decide, by decide, ⟨_, rfl⟩⟩

theorem witness_EncodingConditionsRaiseUd_each : badPayloads.all (fun p =>
    p.1.extractLsb' 0 2 == 1#2 && p.2.1.extractLsb' 0 2 == 1#2 &&
      (p.1.extractLsb' 2 2 != 0#2 || !p.2.1.getLsbD 2 || p.2.2.extractLsb' 5 2 == 3#2 ||
        (p.2.2.getLsbD 7 && p.2.2.extractLsb' 0 3 == 0#3) || p.2.2.getLsbD 4)) = true := by decide +kernel

/-- `C4 E2 71 EF C2` and a following byte (X22), to stand behind 33 prefix bytes. -/
def otherMap : List Byte := [0xC4#8, 0xE2#8, 0x71#8, 0xEF#8, 0xC2#8, 0x90#8]

theorem witness_UnmatchedBytesRefused :
    Running (at0 (preBytes (List.replicate 33 .addrSize) ++ otherMap)) ∧ 6 ≤ otherMap.length ∧
      CodeAt (at0 (preBytes (List.replicate 33 .addrSize) ++ otherMap))
        (preBytes (List.replicate 33 .addrSize) ++ otherMap) ∧
      scanStopsAt otherMap = true ∧ matchesRow (dropRex otherMap) = false :=
  ⟨running_of (by decide +kernel), by decide, codeAt_of (by decide +kernel), by decide, by decide⟩

/-- 32 times 66 and then 90: none of the ten forms, so refused and not #GP(0) (R124, R126 step (2)). -/
theorem test_longPrefixes_refused :
    refusalOf (stepOn s0 (List.replicate 32 0x66#8 ++ [0x90#8])) = some .notThisSpec := by decide +kernel

def iSeg : Instr := .pxorXmm [.seg .gs, .opSize] none 0#3 (.mem (.base 0#3 .none))

theorem witness_TwoSegmentOverridesRefused :
    Running (at0 ((Prefix.seg .fs).byte :: encode iSeg)) ∧ iSeg.wf = true ∧ segCount iSeg.pre = 1 ∧
      iSeg.ilen ≤ 14 ∧
      CodeAt (at0 ((Prefix.seg .fs).byte :: encode iSeg)) ((Prefix.seg .fs).byte :: encode iSeg) :=
  ⟨running_of (by decide +kernel), by decide, by decide, by decide, codeAt_of (by decide +kernel)⟩

theorem witness_Vex3WithoutXBIsVex2 :
    (∀ d, Rm.reg 2#3 ≠ .mem (.rip d)) ∧ NextPcOk s0 (vex2Len [] (.reg 2#3)) ∧
      NextPcOk s0 (vex3Len [] (.reg 2#3)) :=
  ⟨fun _ h => (by cases h), nextPcOk_of (by decide +kernel), nextPcOk_of (by decide +kernel)⟩

theorem witness_StepRunsDecoded_StepRunsEncoded :
    Running (at0 (encode iMm)) ∧ iMm.wf = true ∧ CodeAt (at0 (encode iMm)) (encode iMm) ∧
      decode (encode iMm) = .instr iMm :=
  ⟨running_of (by decide +kernel), by decide, codeAt_of (by decide +kernel), by decide +kernel⟩

def withEnv (a b c : Bool) : State :=
  { s0 with cfg := { s0.cfg with env := { otherWriter := a, asyncEvents := b, debugArmed := c } } }

theorem witness_NoStepOutsideARun :
    State.reset.mode ≠ .mode64 ∧
    ((withEnv true true true).mode = .mode64 ∧ (withEnv true true true).cfg.env.otherWriter = true) ∧
    ((withEnv false true true).cfg.env.otherWriter = false ∧
      (withEnv false true true).cfg.env.asyncEvents = true) ∧
    ((withEnv false false true).cfg.env.asyncEvents = false ∧
      (withEnv false false true).cfg.env.debugArmed = true) ∧
    (({ s0 with pc := 0#64 } : State).pc = ({ s0 with pc := 0#64 } : State).cfg.codeEnd ∧
      s0.mode = .mode64 ∧ s0.cfg.env = { otherWriter := false, asyncEvents := false, debugArmed := false }) := by
  decide

/-- The byte 66 at pc, whose number is `a`, the byte after it answered by `ans`. -/
def oneByte (pc : Quad) (a : Nat) (ans : Admission) : State :=
  { s0 with
    pc := pc
    mem := [(a, 0x66#8)]
    cfg := { s0.cfg with
      regions := [{ lo := pc, hi := pc, kind := .fetch, answer := .ok },
        { lo := pc + 1#64, hi := pc + 1#64, kind := .fetch, answer := ans }] } }

def sFetch (ans : Admission) : State := oneByte 0x1000#64 0x1000 ans

/-- pc at the last canonical address of the lower half with 48 bits. -/
def sLastLow : State := oneByte 0x00007FFFFFFFFFFF#64 0x00007FFFFFFFFFFF .ok

theorem witness_FetchFault_notAdmitted : ∀ ans ∈ [Admission.pageFault 0x15#32,
      .generalProtection, .stackFault, .device],
    Running (sFetch ans) ∧ CodeAt (sFetch ans) [0x66#8] ∧ decode [0x66#8] = .more ∧
      canonical (sFetch ans).cfg.vaBits (byteAddr (sFetch ans).pc 1) = true ∧
      admissionOf (sFetch ans).cfg (byteAddr (sFetch ans).pc 1) .fetch = ans ∧
      admissionLegal (sFetch ans).cfg = true := by
  intro ans h
  refine ⟨running_of ?_, codeAt_of ?_, by decide +kernel, ?_, ?_, ?_⟩ <;> revert ans <;> decide +kernel

/-- 40 times 66 from 0x1000 on, and no byte after them admitted for fetch (R185 (1)). -/
theorem test_longPrefixes_fetchFault :
    faultOf (step { s0 with
      mem := s0.mem.writeAll 0x1000#64 (List.replicate 40 0x66#8)
      cfg := { s0.cfg with regions := [{ lo := 0x1000#64, hi := 0x1027#64, kind := .fetch, answer := .ok }] } }) =
      some (.pf 0x10#32 0x1028#64 0x1000#64) := by decide +kernel

theorem witness_FetchFault_nonCanonical :
    Running sLastLow ∧ CodeAt sLastLow [0x66#8] ∧
      canonical sLastLow.cfg.vaBits (byteAddr sLastLow.pc 1) = false :=
  ⟨running_of (by decide +kernel), codeAt_of (by decide +kernel), by decide +kernel⟩

theorem inv_s0 : Inv (at0 (encode iVex)) := by
  refine ⟨by decide +kernel, by decide +kernel, ?_, ?_, ?_, by decide +kernel⟩ <;> decide +kernel

theorem witness_StepKeepsInvariant_and_frames :
    Inv (at0 (encode iVex)) ∧ ∃ t, step (at0 (encode iVex)) = .next t :=
  ⟨inv_s0, next_of (by decide +kernel)⟩

/-- The last instruction of the lower canonical half: its next pc is not canonical. -/
def sEdge : State := { s0 with pc := 0x00007FFFFFFFFFFD#64 }

theorem witness_PcAdvance :
    (∃ t, exec iMm s0 = .next t) ∧ iMm.rm = .reg 1#3 ∧ Enabled iMm.form sEdge ∧ ¬ NextPcOk sEdge iMm.ilen :=
  ⟨next_of (by decide +kernel), rfl, enabled_of (by decide +kernel), fun h =>
    absurd ((nextPcOk_iff _ _).mpr h) (by decide +kernel)⟩

theorem witness_MxcsrUntouched :
    (∃ t, step (at0 (encode iVex)) = .next t) ∧ step (at0 [0x0F#8, 0xEF#8, 0xC1#8]) ≠ .refused .runFinal ∧
      step (at0 (encode iLong)) = .fault (.gp none 0x1000#64) := by
  refine ⟨next_of (by decide +kernel), fun h => ?_, fault_of (by decide +kernel)⟩
  have := congrArg refusalOf h
  revert this
  decide +kernel

theorem witness_RflagsUntouched :
    (0x5#64).getLsbD 18 = s0.rflags.getLsbD 18 ∧ s0.cr0.getLsbD 18 = false ∧ s0.cpl ≠ 3#2 ∧
      ∃ t, step (at0 (encode iVex)) = .next t :=
  ⟨by decide, by decide, by decide, next_of (by decide +kernel)⟩

/-- Another register file that agrees on RSI, the base of `iMmMem`. -/
def otherGpr : Vector Quad 16 := (Vector.replicate 16 7#64).set 6 0x2009#64

theorem witness_GeneralRegistersOnlyAddress :
    (∃ t, exec iMmMem (withGpr (withMem s0) 6#4 0x2009#64) = .next t) ∧
      ∀ r ∈ addrRegs iMmMem, otherGpr.get r.toFin = gprAt (withGpr (withMem s0) 6#4 0x2009#64) r :=
  ⟨next_of (by decide +kernel), by decide +kernel⟩

theorem witness_X87SideEffects_X87DataRegisters :
    (∃ t, exec iMm s0 = .next t) ∧ ∃ t, exec iVex s0 = .next t :=
  ⟨next_of (by decide +kernel), next_of (by decide +kernel)⟩

theorem witness_PxorMmRegister : iMm.wf = true ∧ Enabled .f1 s0 ∧ NextPcOk s0 iMm.ilen :=
  ⟨by decide, enabled_of (by decide +kernel), nextPcOk_of (by decide +kernel)⟩

/-- gpr[0] = 0x2001, gpr[6] = 0x2009: operands aligned to nothing. -/
def sOdd : State := withGpr (withGpr (withMem sZ) 6#4 0x2009#64) 0#4 0x2001#64

/-- gpr[0] = 0x2000: an operand aligned to 64. -/
def sEven : State := withGpr (withMem sZ) 0#4 0x2000#64

/-- Alignment checking armed: CR0.AM, RFLAGS.AC and CPL 3. -/
def armed (s : State) : State :=
  { s with cr0 := s.cr0 ||| 0x40000#64, rflags := s.rflags ||| 0x40000#64, cpl := 3#2 }

theorem witness_PxorMmMemory :
    iMmMem.wf = true ∧ Enabled .f1 sOdd ∧ NextPcOk sOdd iMmMem.ilen ∧
      Readable sOdd (operandAddr sOdd iMmMem (.base 6#3 .none)) 8 ∧
      (alignCheck sOdd = true → (operandAddr sOdd iMmMem (.base 6#3 .none)).toNat % 8 = 0) :=
  ⟨by decide, enabled_of (by decide +kernel), nextPcOk_of (by decide +kernel),
    readable_of (by decide +kernel), by decide +kernel⟩

theorem witness_PxorXmmRegister : iXmm.wf = true ∧ Enabled .f2 s0 ∧ NextPcOk s0 iXmm.ilen :=
  ⟨by decide, enabled_of (by decide +kernel), nextPcOk_of (by decide +kernel)⟩

theorem witness_PxorXmmMemory :
    iXmmMem.wf = true ∧ Enabled .f2 sEven ∧ NextPcOk sEven iXmmMem.ilen ∧
      Readable sEven (operandAddr sEven iXmmMem (.base 0#3 .none)) 16 ∧
      (operandAddr sEven iXmmMem (.base 0#3 .none)).toNat % 16 = 0 :=
  ⟨by decide, enabled_of (by decide +kernel), nextPcOk_of (by decide +kernel),
    readable_of (by decide +kernel), by decide +kernel⟩

theorem witness_VpxorRegister : ∀ ymm : Bool,
    Enabled (vexForm ymm) s0 ∧
      (vex3Instr ymm [] ⟨false, false, false, false, 1#4⟩ 0#3 (.reg 2#3)).wf = true ∧
      NextPcOk s0 (vex3Instr ymm [] ⟨false, false, false, false, 1#4⟩ 0#3 (.reg 2#3)).ilen ∧
      (vex2Instr ymm [] ⟨false, 1#4⟩ 0#3 (.reg 2#3)).wf = true ∧
      NextPcOk s0 (vex2Instr ymm [] ⟨false, 1#4⟩ 0#3 (.reg 2#3)).ilen := by
  intro ymm
  refine ⟨enabled_of ?_, ?_, nextPcOk_of ?_, ?_, nextPcOk_of ?_⟩ <;> revert ymm <;> decide +kernel

theorem witness_VpxorMemory : ∀ ymm : Bool,
    Enabled (vexForm ymm) sOdd ∧
      (vex3Instr ymm [] ⟨false, false, false, false, 1#4⟩ 0#3 (.mem (.base 0#3 .none))).wf = true ∧
      NextPcOk sOdd (vex3Instr ymm [] ⟨false, false, false, false, 1#4⟩ 0#3 (.mem (.base 0#3 .none))).ilen ∧
      (vex2Instr ymm [] ⟨false, 1#4⟩ 0#3 (.mem (.base 0#3 .none))).wf = true ∧
      NextPcOk sOdd (vex2Instr ymm [] ⟨false, 1#4⟩ 0#3 (.mem (.base 0#3 .none))).ilen ∧
      Readable sOdd (operandAddr sOdd (vex3Instr ymm [] ⟨false, false, false, false, 1#4⟩ 0#3
        (.mem (.base 0#3 .none))) (.base 0#3 .none)) (vexBits ymm / 8) ∧
      Readable sOdd (operandAddr sOdd (vex2Instr ymm [] ⟨false, 1#4⟩ 0#3
        (.mem (.base 0#3 .none))) (.base 0#3 .none)) (vexBits ymm / 8) ∧
      alignCheck sOdd = false := by
  intro ymm
  refine ⟨enabled_of ?_, ?_, nextPcOk_of ?_, ?_, nextPcOk_of ?_, readable_of ?_, readable_of ?_, ?_⟩ <;>
    revert ymm <;> decide +kernel

/-- A register form, a full memory form and a broadcast form, on an operand aligned to nothing. -/
theorem witness_EvexElementLoop :
    (evexInstr .dword .v512 [] (ev 2#4 false false 1#3) 1#3 (.reg 3#3)).wf = true ∧
      Enabled (evexForm .dword .v512) sOdd ∧ NextPcOk sOdd iEvex.ilen ∧
      iEvexMem.wf = true ∧ NextPcOk sOdd iEvexMem.ilen ∧
      Readable sOdd (operandAddr sOdd iEvexMem (.base 0#3 .none)) (operandBytes iEvexMem) ∧
      iBcast.wf = true ∧ Enabled (evexForm .qword .v256) sOdd ∧ NextPcOk sOdd iBcast.ilen ∧
      Readable sOdd (operandAddr sOdd iBcast (.base 0#3 (.disp8 1#8))) (operandBytes iBcast) ∧
      alignCheck sOdd = false :=
  ⟨by decide, enabled_of (by decide +kernel), nextPcOk_of (by decide +kernel), by decide,
    nextPcOk_of (by decide +kernel), readable_of (by decide +kernel), by decide, enabled_of (by decide +kernel),
    nextPcOk_of (by decide +kernel), readable_of (by decide +kernel), by decide +kernel⟩

/-- X24: 32 readable bytes from 0x20E0, the mask bits of the next 32 clear. -/
def sMasked (suppress : Bool) : State :=
  let s := withK (withGpr sZ 0#4 0x20E0#64) 1#3 0xFF#64
  { s with cfg := { s.cfg with
      faultSuppression := suppress
      regions := [{ lo := 0x20E0#64, hi := 0x20FF#64, kind := .read, answer := .ok }] } }

theorem witness_MaskedOperand : ∀ b : Bool,
    iEvexMem.wf = true ∧ Enabled (evexForm .dword .v512) (sMasked b) ∧ NextPcOk (sMasked b) iEvexMem.ilen ∧
      alignCheck (sMasked b) = false ∧ (sMasked b).cfg.faultSuppression = b ∧
      (∀ k, k < 64 → (kAt (sMasked b) 1#3).getLsbD (k / 4) = true →
        byteReadable (sMasked b) (operandAddr (sMasked b) iEvexMem (.base 0#3 .none)) k = true) ∧
      byteReadable (sMasked b) (operandAddr (sMasked b) iEvexMem (.base 0#3 .none)) 32 = false := by
  intro b
  refine ⟨by decide, enabled_of ?_, nextPcOk_of ?_, ?_, ?_, ?_, ?_⟩ <;> revert b <;> decide +kernel

theorem test_X24_refused : refusalOf (exec iEvexMem (sMasked false)) = some .maskedInadmissible := by
  decide +kernel

/-- X25: one more mask bit, and the byte at 0x2100 faults under both settings. -/
theorem test_X25 : ∀ b : Bool, faultOf (exec iEvexMem (withK (sMasked b) 1#3 0x1FF#64)) =
    some (.pf 0#32 0x2100#64 0x1000#64) := by decide +kernel

theorem witness_SameRegisterGivesZero :
    (∃ t, exec (.pxorMm [] none 3#3 (.reg 3#3)) s0 = .next t) ∧
    (regNum4 (rexR none) 0#3 = regNum4 (rexB none) 0#3 ∧
      ∃ t, exec (.pxorXmm [.opSize] none 0#3 (.reg 0#3)) s0 = .next t) ∧
    (3#4 = regNum4 false 3#3 ∧
      (∃ t, exec (vex3Instr false [] ⟨false, false, false, false, 3#4⟩ 3#3 (.reg 3#3)) s0 = .next t) ∧
      ∃ t, exec (vex2Instr true [] ⟨false, 3#4⟩ 3#3 (.reg 3#3)) s0 = .next t) ∧
    (BitVec.ofBool false ++ 2#4 = regNum5 false false 2#3 ∧
      ∃ t, exec (evexInstr .dword .v512 [] (ev 2#4 false false 1#3) 2#3 (.reg 2#3)) s0 = .next t) :=
  ⟨next_of (by decide +kernel), ⟨by decide, next_of (by decide +kernel)⟩,
    ⟨by decide, next_of (by decide +kernel), next_of (by decide +kernel)⟩,
    ⟨by decide, next_of (by decide +kernel)⟩⟩

theorem witness_DwordIsQwordUnmasked :
    (ev 2#4 false false 0#3).aaa = 0#3 ∧ (ev 2#4 false false 0#3).bcast = false := by decide

theorem witness_AllOnesMaskIsNoMask : ∀ j, j < elemCount .dword .v512 →
    (kAt (withK s0 1#3 0xFFFF#64) (ev 2#4 false false 1#3).aaa).getLsbD j = true := by decide +kernel

theorem witness_AllZeroMask : (ev 2#4 true false 1#3).aaa ≠ 0#3 ∧
    (∀ j, j < elemCount .dword .v512 →
      (kAt (withK s0 1#3 0xFFFF0000#64) (ev 2#4 true false 1#3).aaa).getLsbD j = false) ∧
    ∃ t, exec (evexInstr .dword .v512 [] (ev 2#4 true false 1#3) 1#3 (.reg 3#3))
      (withK s0 1#3 0xFFFF0000#64) = .next t :=
  ⟨by decide, by decide +kernel, next_of (by decide +kernel)⟩

theorem witness_LegacyAgainstVex :
    (regNum4 false 0#3 = regNum4 (rexR none) 0#3 ∧ 0#4 = regNum4 (rexR none) 0#3 ∧
      regNum4 false 1#3 = regNum4 (rexB none) 1#3 ∧ (∃ t, exec iXmm s0 = .next t) ∧
      ∃ u, exec (.vpxorXmmVex3 [] ⟨false, false, false, false, 0#4⟩ 0#3 (.reg 1#3)) s0 = .next u) ∧
    (Enabled .f2 sOdd ∧
      (∀ j, j < 16 → byteCanonical sOdd (operandAddr sOdd iXmmMem (.base 0#3 .none)) j = true) ∧
      (operandAddr sOdd iXmmMem (.base 0#3 .none)).toNat % 16 ≠ 0) ∧
    (Enabled .f3 sOdd ∧ NextPcOk sOdd iVexMem.ilen ∧ alignCheck sOdd = false ∧
      Readable sOdd (operandAddr sOdd iVexMem (.base 0#3 .none)) 16) :=
  ⟨⟨by decide, by decide, by decide, next_of (by decide +kernel), next_of (by decide +kernel)⟩,
    ⟨enabled_of (by decide +kernel), by decide +kernel, by decide +kernel⟩,
    ⟨enabled_of (by decide +kernel), nextPcOk_of (by decide +kernel), by decide +kernel,
      readable_of (by decide +kernel)⟩⟩

theorem witness_XorTwiceRestores :
    (1#3 ≠ 0#3 ∧ ∃ t u, exec iMm s0 = .next t ∧ exec iMm t = .next u) ∧
    (regNum4 (rexB none) 1#3 ≠ regNum4 (rexR none) 0#3 ∧
      ∃ t u, exec iXmm s0 = .next t ∧ exec iXmm t = .next u) := by
  refine ⟨⟨by decide, ?_⟩, by decide, ?_⟩
  · obtain ⟨t, ht⟩ := next_of (o := exec iMm s0) (by decide +kernel)
    obtain ⟨u, hu⟩ := next_of (o := exec iMm ((nextOf (exec iMm s0)).getD s0)) (by decide +kernel)
    exact ⟨t, u, ht, by rw [ht] at hu; exact hu⟩
  · obtain ⟨t, ht⟩ := next_of (o := exec iXmm s0) (by decide +kernel)
    obtain ⟨u, hu⟩ := next_of (o := exec iXmm ((nextOf (exec iXmm s0)).getD s0)) (by decide +kernel)
    exact ⟨t, u, ht, by rw [ht] at hu; exact hu⟩

theorem witness_OperandAddress :
    iBcast.wf = true ∧ iBcast.rm = .mem (.base 0#3 (.disp8 1#8)) ∧ ∃ t, exec iBcast sEven = .next t :=
  ⟨by decide, rfl, next_of (by decide +kernel)⟩

theorem witness_PrefixesWithoutEffect :
    (∃ r, iXmm.rm = .reg r) ∧ NextPcOk s0 iXmm.ilen ∧ NextPcOk s0 (iXmm.ilen + 1) ∧
      Prefix.seg .ss ∈ [Prefix.seg .cs, .seg .ds, .seg .es, .seg .ss] ∧ segCount iXmmMem.pre = 0 ∧
      (∀ d, iXmmMem.rm ≠ .mem (.rip d)) ∧ NextPcOk sEven iXmmMem.ilen ∧ NextPcOk sEven (iXmmMem.ilen + 1) :=
  ⟨⟨_, rfl⟩, nextPcOk_of (by decide +kernel), nextPcOk_of (by decide +kernel), by decide, by decide,
    fun _ h => (by cases h), nextPcOk_of (by decide +kernel), nextPcOk_of (by decide +kernel)⟩

/-- No extension but MMX. -/
def sMmxOnly : State :=
  { s0 with cfg := { s0.cfg with
      maxvl := .v128
      cpuid := { mmx := true, sse2 := false, avx := false, avx2 := false, avx512f := false,
                 avx512vl := false } } }

theorem witness_FeatureAbsentRaisesUd : ¬ FeaturePresent iXmm.form sMmxOnly.cfg.cpuid ∧
    ¬ FeaturePresent iEvex.form sMmxOnly.cfg.cpuid :=
  ⟨fun h => absurd ((featureOk_iff _ _).mpr h) (by decide), fun h =>
    absurd ((featureOk_iff _ _).mpr h) (by decide)⟩

/-- XCR0[7:5] = 011b (X12). -/
def sNoHi16 : State := { s0 with xcr0 := 0x67#64 }

theorem witness_NotEnabledRaisesUd :
    ¬ OsEnabled iEvex.form sNoHi16 ∧ iVex.form.layout = .vex ∧
      (∀ b, b ≠ 2 → (s0.cr0 ||| 4#64).getLsbD b = s0.cr0.getLsbD b) ∧
      (∀ b, b ≠ 9 → (s0.cr4 &&& ~~~(0x200#64)).getLsbD b = s0.cr4.getLsbD b) := by
  refine ⟨fun h => absurd ((osOk_iff _ _).mpr h) (by decide +kernel), rfl, ?_, ?_⟩
  · intro b hb
    by_cases h : b < 64
    · revert hb; revert b; decide +kernel
    · rw [BitVec.getLsbD_of_ge _ _ (by omega), BitVec.getLsbD_of_ge _ _ (by omega)]
  · intro b hb
    by_cases h : b < 64
    · revert hb; revert b; decide +kernel
    · rw [BitVec.getLsbD_of_ge _ _ (by omega), BitVec.getLsbD_of_ge _ _ (by omega)]

def sTs : State := { s0 with cr0 := s0.cr0 ||| 8#64 }

theorem witness_TaskSwitchedRaisesNm :
    FeaturePresent iVex.form sTs.cfg.cpuid ∧ OsEnabled iVex.form sTs ∧ sTs.cr0.getLsbD 3 = true :=
  ⟨(featureOk_iff _ _).mp (by decide +kernel), (osOk_iff _ _).mp (by decide +kernel), by decide +kernel⟩

def sMf : State := { s0 with x87 := { s0.x87 with pending := true } }

theorem witness_PendingX87RaisesMf :
    FeaturePresent .f1 sMf.cfg.cpuid ∧ OsEnabled .f1 sMf ∧ sMf.cr0.getLsbD 3 = false ∧
      sMf.x87.pending = true ∧ exec iMm sMf = .fault (.mf 0x1000#64) :=
  ⟨(featureOk_iff _ _).mp (by decide +kernel), (osOk_iff _ _).mp (by decide +kernel), by decide +kernel, rfl,
    fault_of (by decide +kernel)⟩

theorem test_X14_pxorXmm_completes : (nextOf (exec iXmm sMf)).isSome = true := by decide +kernel

theorem witness_AlignmentChecking :
    (iMmMem.rm = .mem (.base 6#3 .none) ∧ Enabled iMmMem.form (armed sOdd) ∧ alignCheck (armed sOdd) = true ∧
      Readable (armed sOdd) (operandAddr (armed sOdd) iMmMem (.base 6#3 .none)) (operandBytes iMmMem) ∧
      (operandAddr (armed sOdd) iMmMem (.base 6#3 .none)).toNat % operandBytes iMmMem ≠ 0) ∧
    (Enabled iXmmMem.form (armed sOdd) ∧
      Readable (armed sOdd) (operandAddr (armed sOdd) iXmmMem (.base 0#3 .none)) (operandBytes iXmmMem) ∧
      (operandAddr (armed sOdd) iXmmMem (.base 0#3 .none)).toNat % operandBytes iXmmMem ≠ 0) ∧
    (Enabled iVexMem.form (armed sOdd) ∧
      Readable (armed sOdd) (operandAddr (armed sOdd) iVexMem (.base 0#3 .none)) (operandBytes iVexMem) ∧
      (operandAddr (armed sOdd) iVexMem (.base 0#3 .none)).toNat % operandBytes iVexMem ≠ 0) ∧
    exec iMmMem (armed sOdd) = .fault (.ac 0x2009#64 0x1000#64) ∧
    exec iVexMem (armed sOdd) = .refused .alignCheckOpen :=
  ⟨⟨rfl, enabled_of (by decide +kernel), by decide +kernel, readable_of (by decide +kernel),
      by decide +kernel⟩,
    ⟨enabled_of (by decide +kernel), readable_of (by decide +kernel), by decide +kernel⟩,
    ⟨enabled_of (by decide +kernel), readable_of (by decide +kernel), by decide +kernel⟩,
    fault_of (by decide +kernel), refusal_of (by decide +kernel)⟩

/-- gpr[0] and gpr[4] just below the first non-canonical address, gpr[6] just below 2^64. -/
def sNonCanonical : State :=
  withGpr (withGpr (withGpr s0 0#4 0x00007FFFFFFFFFF1#64) 4#4 0x00007FFFFFFFFFF1#64) 6#4 0xFFFFFFFFFFFFFFF9#64

/-- `VPXOR xmm0, xmm1, [rsp]` (X18). -/
def iVexStack : Instr := .vpxorXmmVex3 [] ⟨false, false, false, false, 1#4⟩ 0#3 (.mem (.sib 0#2 4#3 4#3 .none))

theorem witness_NonCanonicalOperand :
    (Enabled iVexMem.form sNonCanonical ∧ 15 < operandBytes iVexMem ∧
      operandActive sNonCanonical iVexMem 15 = true ∧ iVexMem.wf = true ∧
      canonical sNonCanonical.cfg.vaBits
        (byteAddr (operandAddr sNonCanonical iVexMem (.base 0#3 .none)) 15) = false) ∧
    (operandActive sNonCanonical iVexStack 15 = true ∧
      iVexStack.wf = true ∧
      canonical sNonCanonical.cfg.vaBits
        (byteAddr (operandAddr sNonCanonical iVexStack (.sib 0#2 4#3 4#3 .none)) 15) = false) ∧
    (operandActive sNonCanonical iMmMem 7 = true ∧
      2 ^ 64 ≤ (operandAddr sNonCanonical iMmMem (.base 6#3 .none)).toNat + 7) ∧
    faultOf (exec iVexStack sNonCanonical) = some (.ss 0x0000800000000000#64 0x1000#64) ∧
    faultOf (exec iMmMem sNonCanonical) = some (.gp (some 0#64) 0x1000#64) :=
  ⟨⟨enabled_of (by decide +kernel), by decide, by decide +kernel, by decide +kernel, by decide +kernel⟩,
    by decide +kernel, by decide +kernel, by decide +kernel, by decide +kernel⟩

/-- RAX and R12 are not the base of a stack-segment operand; RSP is, but not under an FS override. -/
theorem witness_NonCanonicalOperand_class :
    ¬ StackSegment iVexMem (.base 0#3 .none) ∧ StackSegment iVexStack (.sib 0#2 4#3 4#3 .none) ∧
      ¬ StackSegment (.vpxorXmmVex3 [] ⟨false, false, true, false, 1#4⟩ 0#3 (.mem (.sib 0#2 4#3 4#3 .none)))
        (.sib 0#2 4#3 4#3 .none) ∧
      ¬ StackSegment (.vpxorXmmVex3 [.seg .fs] ⟨false, false, false, false, 1#4⟩ 0#3
        (.mem (.sib 0#2 4#3 4#3 .none))) (.sib 0#2 4#3 4#3 .none) := by
  simp [StackSegment, iVexMem, iVexStack, extB, Instr.pre]

/-- The bytes 0x9000 and above answer `ans`; 0x8FF0 to 0x8FFF are admitted. -/
def sAdmit (ans : Admission) : State :=
  let s := withGpr s0 0#4 0x8FF8#64
  { s with cfg := { s.cfg with
      regions := [{ lo := 0x8FF0#64, hi := 0x8FFF#64, kind := .read, answer := .ok },
        { lo := 0x9000#64, hi := BitVec.allOnes 64, kind := .read, answer := ans }] } }

theorem witness_NotAdmittedOperand : ∀ ans ∈ [Admission.pageFault 4#32,
      .generalProtection, .stackFault, .device],
    Enabled iVexMem.form (sAdmit ans) ∧ 8 < operandBytes iVexMem ∧ iVexMem.form ≠ .f2 ∧
      (∀ b, b < operandBytes iVexMem →
        byteCanonical (sAdmit ans) (operandAddr (sAdmit ans) iVexMem (.base 0#3 .none)) b = true) ∧
      (∀ b, b < 8 → admissionOf (sAdmit ans).cfg
        (byteAddr (operandAddr (sAdmit ans) iVexMem (.base 0#3 .none)) b) .read = .ok) ∧
      admissionOf (sAdmit ans).cfg
        (byteAddr (operandAddr (sAdmit ans) iVexMem (.base 0#3 .none)) 8) .read = ans ∧
      admissionLegal (sAdmit ans).cfg = true := by
  intro ans h
  refine ⟨enabled_of ?_, by decide, by decide, ?_, ?_, ?_, ?_⟩ <;> revert ans <;> decide +kernel

theorem test_X16_pageFault : faultOf (exec iVexMem (sAdmit (.pageFault 4#32))) =
    some (.pf 4#32 0x9000#64 0x1000#64) := by decide +kernel

/-- The code is whatever the admission supplied, bits above 5 among it (R191, U24). -/
theorem test_pageFault_code : faultOf (exec iVexMem (sAdmit (.pageFault 0x80008005#32))) =
    some (.pf 0x80008005#32 0x9000#64 0x1000#64) := by decide +kernel

theorem witness_FaultCarriesPc : step (at0 (encode iLong)) = .fault (.gp none 0x1000#64) :=
  fault_of (by decide +kernel)

theorem witness_RegisterFormFaults :
    iVex.rm = .reg 2#3 ∧ exec iVex sTs = .fault (.nm 0x1000#64) ∧ iMm.rm = .reg 1#3 ∧
      exec iMm sEdge = .refused .pcOutOfRange :=
  ⟨rfl, fault_of (by decide +kernel), rfl, refusal_of (by decide +kernel)⟩

theorem witness_LaunchedInstructionFaults :
    Enabled iVexMem.form (sAdmit .stackFault) ∧ alignCheck (sAdmit .stackFault) = false ∧
      exec iVexMem (sAdmit .stackFault) = .fault (.ss 0x9000#64 0x1000#64) ∧
      Enabled iVex.form s0 ∧ alignCheck s0 = false ∧ iVex.rm = .reg 2#3 ∧ NextPcOk s0 iVex.ilen :=
  ⟨enabled_of (by decide +kernel), by decide +kernel, fault_of (by decide +kernel),
    enabled_of (by decide +kernel), by decide +kernel, rfl, nextPcOk_of (by decide +kernel)⟩

/-- `PXOR mm0, mm1` and `VPXOR xmm0, xmm1, xmm2`, launched at 0x1000. -/
theorem witness_LaunchedStep : Launched (at0 (programBytes [iMm, iVex])) [iMm, iVex] ∧ iMm.wf = true := by
  refine ⟨⟨by decide +kernel, fun i hi => (featureOk_iff _ _).mp ?_, by decide +kernel, ⟨by decide +kernel,
    by decide +kernel, fun i hi => (osOk_iff _ _).mp ?_⟩, by decide +kernel, fun _ => by decide +kernel,
    by decide +kernel, by decide +kernel, ?_, ?_, by decide +kernel, by decide +kernel⟩, by decide⟩
  · revert i; decide +kernel
  · revert i; decide +kernel
  · intro k hk
    have h7 : k < 7 := hk
    have e := List.all_eq_true.mp (show (List.range 7).all (fun k =>
      (at0 (programBytes [iMm, iVex])).mem.read ((at0 (programBytes [iMm, iVex])).cfg.codeBase.toNat + k) ==
        (programBytes [iMm, iVex]).getD k 0#8) = true by decide +kernel) k (List.mem_range.mpr h7)
    rw [beq_iff_eq.mp e]
    simp [List.getD, hk]
  · intro a h1 h2
    have hn : 4096 ≤ a.toNat ∧ a.toNat < 4103 :=
      ⟨BitVec.le_def.mp (show (0x1000#64 : Quad) ≤ a from h1), BitVec.lt_def.mp (show a < 0x1007#64 from h2)⟩
    have e := List.all_eq_true.mp (show (List.range 7).all (fun k =>
      canonical (at0 (programBytes [iMm, iVex])).cfg.vaBits (BitVec.ofNat 64 (4096 + k)) &&
        admissionOf (at0 (programBytes [iMm, iVex])).cfg (BitVec.ofNat 64 (4096 + k)) .fetch == .ok) = true
      by decide +kernel) (a.toNat - 4096) (List.mem_range.mpr (by omega))
    have ha : BitVec.ofNat 64 (4096 + (a.toNat - 4096)) = a := by
      apply BitVec.eq_of_toNat_eq; simp; omega
    rw [ha, Bool.and_eq_true, beq_iff_eq] at e
    exact e

theorem witness_PlacedWordIsLaunched :
    Inv (at0 (encode iVex)) ∧ decodeTableWord 24 0x0FEFC1 = some iMm ∧
      FeaturePresent iMm.form (at0 (encode iVex)).cfg.cpuid ∧ NextPcOk (at0 (encode iVex)) 15 :=
  ⟨inv_s0, by decide +kernel, (featureOk_iff _ _).mp (by decide +kernel), nextPcOk_of (by decide +kernel)⟩

/-- The program of one placed word is over after its step (R213). -/
theorem test_placedWord_final :
    nextIs (step (State.reset.withFetchWord 24 0x0FEFC1)) (fun t =>
      decide (refusalOf (step t) = some .runFinal)) = true := by decide +kernel

theorem witness_RefusalsOfInstructions :
    exec iVexMem (sAdmit .device) = .refused (.deviceMemory 0x9000#64) := refusal_of (by decide +kernel)

end Sys2Proof.Tests
end

section
/-! The states in which no step happens (00_scope.md R4, 20_memory.md R66, 60_exceptions.md R195 and R199,
70_reset_and_hazards.md R213): what `notRunning` answers in each, and that the step refuses by that name. -/

namespace Sys2Proof.Machine

/-- A state in which no step happens is refused before anything is fetched. -/
theorem step_of_notRunning {s : State} {r : Refusal} (h : notRunning s = some r) : step s = .refused r := by
  simp only [step, h]

/-! ## The refusals, in the order of log 9 -/

section Order

variable {s : State}

theorem notRunning_of_not_mode64 (hmode : s.mode ≠ .mode64) : notRunning s = some .notMode64 :=
  if_pos hmode

theorem notRunning_of_otherWriter (hmode : s.mode = .mode64) (hother : s.cfg.env.otherWriter = true) :
    notRunning s = some .otherWriter := by
  simp [notRunning, hmode, hother]

theorem notRunning_of_asyncEvents (hmode : s.mode = .mode64) (hother : s.cfg.env.otherWriter = false)
    (hasync : s.cfg.env.asyncEvents = true) : notRunning s = some .asyncEvents := by
  simp [notRunning, hmode, hother, hasync]

theorem notRunning_of_debugArmed (hmode : s.mode = .mode64) (hother : s.cfg.env.otherWriter = false)
    (hasync : s.cfg.env.asyncEvents = false) (hdebug : s.cfg.env.debugArmed = true) :
    notRunning s = some .debugArmed := by
  simp [notRunning, hmode, hother, hasync, hdebug]

theorem notRunning_of_pc_eq_codeEnd (hmode : s.mode = .mode64) (hother : s.cfg.env.otherWriter = false)
    (hasync : s.cfg.env.asyncEvents = false) (hdebug : s.cfg.env.debugArmed = false)
    (hend : s.pc = s.cfg.codeEnd) : notRunning s = some .runFinal := by
  simp [notRunning, hmode, hother, hasync, hdebug, hend]

end Order

/-- Settles O14: one clause per refusal of `notRunning`, each carried to the step by `step_of_notRunning`. -/
theorem noStepOutsideARun : Obligations.NoStepOutsideARun := by
  intro s
  refine ⟨fun hmode => ?notMode64, fun hmode hother => ?otherWriter,
    fun hmode hother hasync => ?asyncEvents, fun hmode hother hasync hdebug => ?debugArmed,
    fun hmode hother hasync hdebug hend => ?runFinal⟩
  case notMode64 => exact step_of_notRunning (notRunning_of_not_mode64 hmode)
  case otherWriter => exact step_of_notRunning (notRunning_of_otherWriter hmode hother)
  case asyncEvents => exact step_of_notRunning (notRunning_of_asyncEvents hmode hother hasync)
  case debugArmed => exact step_of_notRunning (notRunning_of_debugArmed hmode hother hasync hdebug)
  case runFinal => exact step_of_notRunning (notRunning_of_pc_eq_codeEnd hmode hother hasync hdebug hend)

end Sys2Proof.Machine
end

section
/-! What an instruction that completes leaves as it was, and where it leaves pc (10_state.md R22, R24, R25, R30, R31,
R34, R37). -/

namespace Sys2Proof.Machine

/-- `t` has every register that no form writes, memory and the configuration as `s` has them. -/
structure SameFrame (s t : State) : Prop where
  gpr : t.gpr = s.gpr
  mem : t.mem = s.mem
  k : t.k = s.k
  rflags : t.rflags = s.rflags
  mxcsr : t.mxcsr = s.mxcsr
  cr0 : t.cr0 = s.cr0
  cr4 : t.cr4 = s.cr4
  xcr0 : t.xcr0 = s.xcr0
  cpl : t.cpl = s.cpl
  mode : t.mode = s.mode
  segs : t.segs = s.segs
  cfg : t.cfg = s.cfg
  pending : t.x87.pending = s.x87.pending

theorem exec_sameFrame {i : Instr} {s t : State} (h : exec i s = .next t) : SameFrame s t := by
  obtain ⟨_, _, v, _, rfl⟩ := exec_eq_next_iff.mp h
  obtain ⟨hgpr, hmem, hk, hrflags, hmxcsr, hcr0, hcr4, hxcr0, hcpl, hmode, hsegs, hcfg, hpending⟩ :=
    writeOf_frame i s v
  exact ⟨hgpr, hmem, hk, hrflags, hmxcsr, hcr0, hcr4, hxcr0, hcpl, hmode, hsegs, hcfg, hpending⟩

theorem step_sameFrame {s t : State} (h : step s = .next t) : SameFrame s t := by
  obtain ⟨_, i, _, hexec⟩ := step_eq_next h
  exact exec_sameFrame hexec

/-- Settles O21, as a part of the frame of a step. -/
theorem stepLeavesControlState : Obligations.StepLeavesControlState := by
  intro s t h
  have hframe := step_sameFrame h
  exact ⟨hframe.k, hframe.cr0, hframe.cr4, hframe.xcr0, hframe.cpl, hframe.mode, hframe.segs, hframe.cfg,
    hframe.pending⟩

/-! ## The advance of pc -/

/-- An instruction that completes leaves pc at the byte after it, which is a legal next pc. -/
theorem exec_next_pc {i : Instr} {s t : State} (h : exec i s = .next t) :
    t.pc = byteAddr s.pc i.ilen ∧ NextPcOk s i.ilen := by
  obtain ⟨_, hnext, v, _, rfl⟩ := exec_eq_next_iff.mp h
  exact ⟨rfl, hnext⟩

theorem byteAddr_canonical {s : State} {len : Nat} (h : NextPcOk s len) :
    canonical s.cfg.vaBits (byteAddr s.pc len) = true :=
  h.2

theorem byteAddr_toNat_of_nextPcOk {s : State} {len : Nat} (h : NextPcOk s len) :
    (byteAddr s.pc len).toNat = s.pc.toNat + len := by
  obtain ⟨hwrap, _⟩ := h
  simp only [byteAddr, BitVec.toNat_add, BitVec.toNat_ofNat]
  omega

/-- A step without a legal next pc does not complete. -/
theorem complete_of_not_nextPcOk {len : Nat} {s : State} (t : State) (h : ¬ NextPcOk s len) :
    complete len s t = .refused .pcOutOfRange := by
  rw [complete_eq, if_neg fun hok => h ((nextPcOk_iff s len).mp hok)]

/-- Settles O19: the first clause is the advance of a completed instruction, the second the refusal of `complete`,
which a register form reaches because its source never stops. -/
theorem pcAdvance : Obligations.PcAdvance := by
  constructor
  · intro i s t h
    obtain ⟨hpc, hnext⟩ := exec_next_pc h
    rw [hpc]
    exact ⟨byteAddr_toNat_of_nextPcOk hnext, byteAddr_canonical hnext⟩
  · intro i s r hreg henabled hnext
    obtain ⟨v, hv⟩ := sourceOf_reg hreg s
    rw [exec_of_enabled henabled, hv]
    exact complete_of_not_nextPcOk _ hnext

end Sys2Proof.Machine
end

section
/-! The registers that no form reads as data: the general registers, RFLAGS and MXCSR (10_state.md R22, R25, R31).
Other values in them change an outcome only through the linear address of a memory operand and through alignment
checking. -/

namespace Sys2Proof.Machine

/-- The state with other general registers, RFLAGS and MXCSR. -/
def setUnread (g : Vector Quad 16) (f : BitVec 64) (m : BitVec 32) (s : State) : State :=
  { s with gpr := g, rflags := f, mxcsr := m }

/-! ## What a meaning is made of, one operation at a time -/

section Operations

variable (g : Vector Quad 16) (f : BitVec 64) (m : BitVec 32) (s : State)

@[simp] theorem setUnread_pc : (setUnread g f m s).pc = s.pc := rfl
@[simp] theorem setUnread_mem : (setUnread g f m s).mem = s.mem := rfl

@[simp] theorem formStop_setUnread (fm : Form) : formStop fm (setUnread g f m s) = formStop fm s := rfl

@[simp] theorem canonicalStop_setUnread (la : Quad) (n : Nat) (ss : Bool) (act : Nat → Bool) :
    canonicalStop (setUnread g f m s) la n ss act = canonicalStop s la n ss act := rfl

@[simp] theorem misalignedStop_setUnread (fm : Form) (la : Quad) :
    misalignedStop fm (setUnread g f m s) la = misalignedStop fm s la := rfl

@[simp] theorem notAdmittedStop_setUnread (la : Quad) (n : Nat) (act : Nat → Bool) :
    notAdmittedStop (setUnread g f m s) la n act = notAdmittedStop s la n act := rfl

@[simp] theorem maskedStop_setUnread (la : Quad) (n : Nat) (act : Nat → Bool) :
    maskedStop (setUnread g f m s) la n act = maskedStop s la n act := rfl

@[simp] theorem operandActive_setUnread (i : Instr) :
    operandActive (setUnread g f m s) i = operandActive s i := by
  cases i <;> rfl

@[simp] theorem writeOf_setUnread (i : Instr) (v : VecWord) :
    writeOf i (setUnread g f m s) v = setUnread g f m (writeOf i s v) := by
  cases i <;> rfl

@[simp] theorem complete_setUnread (len : Nat) (t : State) :
    complete len (setUnread g f m s) (setUnread g f m t) = mapNext (setUnread g f m) (complete len s t) := by
  have hok : nextPcOk (setUnread g f m s) len = nextPcOk s len := rfl
  rw [complete_eq, complete_eq, hok, setUnread_pc]
  split <;> rfl

@[simp] theorem fetchStop_setUnread (j : Nat) : fetchStop (setUnread g f m s) j = fetchStop s j := rfl

@[simp] theorem notRunning_setUnread : notRunning (setUnread g f m s) = notRunning s := rfl

theorem fetchFrom_setUnread (n : Nat) (bs : List Byte) :
    fetchFrom (setUnread g f m s) n bs = fetchFrom s n bs := by
  induction n generalizing bs with
  | zero => rfl
  | succ n ih =>
    rw [fetchFrom, fetchFrom]
    simp only [fetchStop_setUnread, setUnread_mem, setUnread_pc, ih]
    rfl

@[simp] theorem fetchDecode_setUnread : fetchDecode (setUnread g f m s) = fetchDecode s :=
  fetchFrom_setUnread g f m s fetchLimit []

end Operations

/-! ## Outcomes -/

@[simp] theorem mapNext_stop (u : State → State) (st : Stop) : mapNext u st.outcome = st.outcome := by
  cases st <;> rfl

/-- Only what a function does to the next state counts. -/
theorem mapNext_congr {u w : State → State} {o : Host.Outcome State Fault Refusal}
    (h : ∀ t, o = .next t → u t = w t) : mapNext u o = mapNext w o := by
  cases o with
  | next t => exact congrArg _ (h t rfl)
  | fault r => rfl
  | refused r => rfl

/-! ## Noninterference -/

section Noninterference

variable {g : Vector Quad 16} {f : BitVec 64} {m : BitVec 32} {s : State}

/-- The read of an operand sees of these registers no more than alignment checking does. -/
theorem loadOperand_setUnread (halign : alignCheck (setUnread g f m s) = alignCheck s) (fm : Form) (la : Quad)
    (n : Nat) (ss : Bool) (act : Nat → Bool) :
    loadOperand fm (setUnread g f m s) la n ss act = loadOperand fm s la n ss act := by
  have hcheck : alignCheckStop fm (setUnread g f m s) la n = alignCheckStop fm s la n := by
    simp only [alignCheckStop, halign, raise, setUnread_pc]
  have hstop : operandStop fm (setUnread g f m s) la n ss act = operandStop fm s la n ss act := by
    simp only [operandStop, canonicalStop_setUnread, misalignedStop_setUnread, notAdmittedStop_setUnread,
      maskedStop_setUnread, hcheck]
  simp only [loadOperand, hstop, setUnread_mem]

theorem sourceOf_setUnread {i : Instr} (halign : alignCheck (setUnread g f m s) = alignCheck s)
    (haddr : ∀ o, i.rm = .mem o → operandAddr (setUnread g f m s) i o = operandAddr s i o) :
    sourceOf i (setUnread g f m s) = sourceOf i s := by
  cases hrm : i.rm with
  | reg r => cases i <;> (simp only [Instr.rm] at hrm; subst hrm; rfl)
  | mem o =>
    rw [sourceOf_mem hrm, sourceOf_mem hrm, haddr o hrm, operandActive_setUnread, loadOperand_setUnread halign]

/-- Where alignment checking and the operand's address are the same, an instruction carries the other values through
and does nothing else with them. -/
theorem exec_setUnread {i : Instr} (halign : alignCheck (setUnread g f m s) = alignCheck s)
    (haddr : ∀ o, i.rm = .mem o → operandAddr (setUnread g f m s) i o = operandAddr s i o) :
    exec i (setUnread g f m s) = mapNext (setUnread g f m) (exec i s) := by
  rw [exec_eq_execute, exec_eq_execute]
  unfold execute
  rw [formStop_setUnread, sourceOf_setUnread halign haddr]
  cases formStop i.form s with
  | some st => exact (mapNext_stop _ st).symm
  | none =>
    cases sourceOf i s with
    | error st => exact (mapNext_stop _ st).symm
    | ok v => simp only [writeOf_setUnread, complete_setUnread]

/-- With the general registers as they are, the whole step does so, the fetch included. -/
theorem step_setUnread (halign : alignCheck (setUnread s.gpr f m s) = alignCheck s) :
    step (setUnread s.gpr f m s) = mapNext (setUnread s.gpr f m) (step s) := by
  unfold step
  rw [notRunning_setUnread, fetchDecode_setUnread]
  cases notRunning s with
  | some r => rfl
  | none =>
    cases fetchDecode s with
    | error st => exact (mapNext_stop _ st).symm
    | ok i => exact exec_setUnread halign fun _ _ => rfl

end Noninterference

/-- SIMD floating-point exceptions (vector 19) are not among the faults of 60_exceptions.md R178. -/
theorem faultVector_ne_simd (f : Fault) : faultVector f ≠ 19 := by
  cases f <;> simp [faultVector]

/-- Settles O22: MXCSR is one of the unread registers, and alignment checking does not depend on it. -/
theorem mxcsrUntouched : Obligations.MxcsrUntouched := by
  intro s m
  refine ⟨?_, fun t h => (step_sameFrame h).mxcsr, fun f _ => faultVector_ne_simd f⟩
  calc step { s with mxcsr := m }
      = mapNext (setUnread s.gpr s.rflags m) (step s) := step_setUnread (f := s.rflags) (m := m) rfl
    _ = mapNext (fun t => { t with mxcsr := m }) (step s) := mapNext_congr fun t h => by
        rw [← (step_sameFrame h).gpr, ← (step_sameFrame h).rflags]; rfl

/-- Alignment checking is the same under another RFLAGS with the same AC bit, and off where CR0.AM or the privilege
level turns it off. -/
theorem alignCheck_setUnread {s : State} {f : BitVec 64}
    (h : f.getLsbD 18 = s.rflags.getLsbD 18 ∨ s.cr0.getLsbD 18 = false ∨ s.cpl ≠ 3#2)
    (g : Vector Quad 16) (m : BitVec 32) : alignCheck (setUnread g f m s) = alignCheck s := by
  change (s.cr0.getLsbD 18 && f.getLsbD 18 && s.cpl == 3#2) =
    (s.cr0.getLsbD 18 && s.rflags.getLsbD 18 && s.cpl == 3#2)
  obtain hac | ham | hcpl := h
  · rw [hac]
  · simp only [ham, Bool.false_and]
  · rw [beq_false_of_ne hcpl, Bool.and_false, Bool.and_false]

/-- Settles O23: RFLAGS is one of the unread registers, and the hypothesis keeps alignment checking the same. -/
theorem rflagsUntouched : Obligations.RflagsUntouched := by
  intro s f hf
  refine ⟨?_, fun t h => (step_sameFrame h).rflags⟩
  calc step { s with rflags := f }
      = mapNext (setUnread s.gpr f s.mxcsr) (step s) := step_setUnread (alignCheck_setUnread hf _ _)
    _ = mapNext (fun t => { t with rflags := f }) (step s) := mapNext_congr fun t h => by
        rw [← (step_sameFrame h).gpr, ← (step_sameFrame h).mxcsr]; rfl

/-! ## The general registers an address reads -/

section AddressRegisters

variable {s s' : State}

/-- The index term reads the index register, where there is one. -/
theorem indexTerm_congr {x : Bool} {index : BitVec 3} (h : ∀ r ∈ indexReg x index, gprAt s' r = gprAt s r)
    (a32 : Bool) (scale : BitVec 2) : indexTerm s' a32 x scale index = indexTerm s a32 x scale index := by
  unfold indexTerm
  split
  · rfl
  · next hindex => rw [h (regNum4 x index) (by simp [indexReg, hindex])]

/-- The sum of an address reads the base and index registers of the operand. -/
theorem addrSum_congr {i : Instr} {o : Mem} (hrm : i.rm = .mem o)
    (h : ∀ r ∈ addrRegs i, gprAt s' r = gprAt s r) (a32 : Bool) (n : Nat) (next : Quad) :
    addrSum s' a32 (extX i) (extB i) n next o = addrSum s a32 (extX i) (extB i) n next o := by
  cases o with
  | base rm d =>
    simp only [addrRegs, hrm, List.mem_singleton, forall_eq] at h
    simp only [addrSum, h]
  | rip d => rfl
  | sib scale index bs d =>
    simp only [addrRegs, hrm, List.mem_cons, forall_eq_or_imp] at h
    obtain ⟨hbase, hindex⟩ := h
    simp only [addrSum, hbase, indexTerm_congr hindex]
  | sibNoBase scale index d =>
    simp only [addrRegs, hrm] at h
    simp only [addrSum, indexTerm_congr h]

/-- The linear address of an operand reads no other general register. -/
theorem operandAddr_congr_gpr {i : Instr} {o : Mem} (hrm : i.rm = .mem o) {g : Vector Quad 16}
    (h : ∀ r ∈ addrRegs i, g.get r.toFin = gprAt s r) (f : BitVec 64) (m : BitVec 32) :
    operandAddr (setUnread g f m s) i o = operandAddr s i o := by
  have hsegs : segBase (setUnread g f m s) i.pre = segBase s i.pre := rfl
  simp only [operandAddr, linAddr, effAddr, hsegs, setUnread_pc, addrSum_congr (s' := setUnread g f m s) hrm h]

end AddressRegisters

/-- Settles O24: the general registers are unread but for the address of a memory operand. -/
theorem generalRegistersOnlyAddress : Obligations.GeneralRegistersOnlyAddress := by
  intro i s g
  refine ⟨fun t h => (exec_sameFrame h).gpr, fun hg => ?_⟩
  calc exec i { s with gpr := g }
      = mapNext (setUnread g s.rflags s.mxcsr) (exec i s) :=
        exec_setUnread (f := s.rflags) (m := s.mxcsr) rfl fun o hrm => operandAddr_congr_gpr hrm hg _ _
    _ = mapNext (fun t => { t with gpr := g }) (exec i s) := mapNext_congr fun t h => by
        rw [← (exec_sameFrame h).rflags, ← (exec_sameFrame h).mxcsr]; rfl

end Sys2Proof.Machine
end

section
/-! The x87 state after an instruction that completes (10_state.md R29, R32). -/

namespace Sys2Proof.Machine

/-! ## The registers `setMm` writes -/

section SetMm

variable (s : State) (d r : BitVec 3) (v : Quad)

theorem setMm_tag_get : (setMm s d v).x87.tag.get r.toFin = 0#2 := by
  simp [Vector.get_eq_getElem]

theorem setMm_hi_get :
    (setMm s d v).x87.hi.get r.toFin = if r = d then 0xFFFF#16 else s.x87.hi.get r.toFin := by
  have hnum : d.toFin.val = r.toFin.val ↔ r = d := by
    rw [← Fin.ext_iff, BitVec.toFin_inj, eq_comm]
  simp only [setMm_hi, Vector.get_eq_getElem, Vector.getElem_set, hnum]

/-- An 80-bit data register after the MMX register of one is written. -/
theorem x87RegAt_setMm :
    x87RegAt (setMm s d v) r = if r = d then 0xFFFF#16 ++ v else x87RegAt s r := by
  unfold x87RegAt
  rw [setMm_hi_get, mmAt_setMm]
  split <;> rfl

theorem x87RegAt_withPc (p : Quad) : x87RegAt { s with pc := p } r = x87RegAt s r := rfl

end SetMm

/-- F1, when it completes, has written one MMX register and moved pc. -/
theorem exec_pxorMm_next {pre : List Prefix} {rex : Option Rex} {reg : BitVec 3} {rm : Rm} {s t : State}
    (h : exec (.pxorMm pre rex reg rm) s = .next t) : ∃ v p, t = { setMm s reg v with pc := p } := by
  obtain ⟨_, _, v, _, ht⟩ := exec_eq_next_iff.mp h
  exact ⟨mmAt s reg ^^^ v.setWidth 64, _, ht⟩

/-- No write but F1's touches x87 or MMX state. -/
theorem writeOf_x87_mm {i : Instr} (hi : i.form ≠ .f1) (s : State) (v : VecWord) :
    (writeOf i s v).x87 = s.x87 ∧ (writeOf i s v).mm = s.mm := by
  cases i with
  | pxorMm => exact absurd rfl hi
  | _ => exact ⟨rfl, rfl⟩

theorem exec_x87_mm {i : Instr} (hi : i.form ≠ .f1) {s t : State} (h : exec i s = .next t) :
    t.x87 = s.x87 ∧ t.mm = s.mm := by
  obtain ⟨_, _, v, _, rfl⟩ := exec_eq_next_iff.mp h
  exact writeOf_x87_mm hi s v

/-- Settles O25: F1 by the fields `setMm` writes, the other forms by their writes to vector registers alone. -/
theorem x87SideEffects : Obligations.X87SideEffects := by
  intro i s t h
  cases i with
  | pxorMm pre rex reg rm =>
    obtain ⟨v, p, rfl⟩ := exec_pxorMm_next h
    exact ⟨setMm_top s reg v, fun r => setMm_tag_get s reg r v, fun r => setMm_hi_get s reg r v⟩
  | _ => exact exec_x87_mm (by simp [Instr.form]) h

/-- Settles O26. -/
theorem x87DataRegisters : Obligations.X87DataRegisters := by
  intro pre rex reg rm s t h
  obtain ⟨v, p, rfl⟩ := exec_pxorMm_next h
  simp only [x87RegAt_withPc, mmAt_withPc, mmAt_setMm_same, x87RegAt_setMm, if_true, true_and]
  exact fun r hr => if_neg hr

end Sys2Proof.Machine
end

section
/-! The invariant of the machine: every step keeps it, and it holds at reset, with the values of the power-up
column (10_state.md R24, R26, R30, R40; 00_scope.md R6, R7). -/

namespace Sys2Proof.Machine

/-! ## What a consistent configuration has (00_scope.md R6) -/

section Consistent

variable {c : Config}

theorem Config.bits_ge_256_of_avx2 (hc : c.consistent = true) (h : c.cpuid.avx2 = true) : 256 ≤ c.maxvl.bits := by
  simp only [Config.consistent, h, Bool.or_true, Bool.not_true, Bool.false_or, Bool.and_eq_true,
    decide_eq_true_eq] at hc
  obtain ⟨⟨⟨⟨hbits, _⟩, _⟩, _⟩, _⟩ := hc
  exact hbits

theorem Config.maxvl_of_avx512f (hc : c.consistent = true) (h : c.cpuid.avx512f = true) : c.maxvl = .v512 := by
  simp only [Config.consistent, h, Bool.not_true, Bool.false_or, Bool.and_eq_true, decide_eq_true_eq] at hc
  obtain ⟨⟨⟨⟨_, hmaxvl⟩, _⟩, _⟩, _⟩ := hc
  exact hmaxvl

end Consistent

theorem VLen.bits_ge_128 (vl : VLen) : 128 ≤ vl.bits := by
  cases vl <;> decide

/-- Registers 0 to 15 exist in every configuration. -/
theorem lowVec_lt_vecCount (c : Config) (r : BitVec 4) : (lowVec r).toNat < c.vecCount := by
  have hlow : (lowVec r).toNat = r.toNat := by rw [lowVec, BitVec.toNat_append]; simp
  have hcount : 16 ≤ c.vecCount := by unfold Config.vecCount; split <;> decide
  omega

/-! ## Vector registers that hold nothing past what exists (log 3) -/

/-- No bit at or above MAXVL and no register past NV holds anything. -/
structure VecFits (c : Config) (s : State) : Prop where
  width : ∀ r : BitVec 5, vecAt s r >>> c.maxvl.bits = 0#512
  count : ∀ r : BitVec 5, c.vecCount ≤ r.toNat → vecAt s r = 0#512

section Writes

variable {c : Config} {s : State}

/-- Writing a register that exists with a value that fits. -/
theorem VecFits.setVec (h : VecFits c s) {d : BitVec 5} {v : VecWord} (hd : d.toNat < c.vecCount)
    (hv : v >>> c.maxvl.bits = 0#512) : VecFits c (setVec s d v) where
  width r := by
    rw [vecAt_setVec]
    split
    · exact hv
    · exact h.width r
  count r hr := by
    have hne : r ≠ d := by rintro rfl; omega
    rw [vecAt_setVec_ne s v hne]
    exact h.count r hr

theorem lowBits_shift {vl : VLen} {n : Nat} (hn : vl.bits ≤ n) (v : VecWord) : lowBits vl v >>> n = 0#512 := by
  apply BitVec.eq_of_getLsbD_eq
  intro j _
  have hj : ¬ n + j < vl.bits := by omega
  simp [lowBits, hj]

/-- The bits of `replaceLow128` from 128 on are the old ones. -/
theorem replaceLow128_shift {n : Nat} (hn : 128 ≤ n) (old new : VecWord) :
    replaceLow128 old new >>> n = old >>> n := by
  apply BitVec.eq_of_getLsbD_eq
  intro j _
  have hlow : ¬ n + j < 128 := by omega
  have hsum : 128 + (n + j - 128) = n + j := by omega
  simp only [replaceLow128, BitVec.getLsbD_ushiftRight, BitVec.getLsbD_append, hlow, if_false,
    BitVec.getLsbD_extractLsb', hsum]
  by_cases hhigh : n + j < 512
  · have : n + j - 128 < 384 := by omega
    simp [this]
  · rw [BitVec.getLsbD_of_ge old (n + j) (by omega), Bool.and_false]

theorem vexWrite_vecFits (h : VecFits c s) {vl : VLen} (hvl : vl.bits ≤ c.maxvl.bits) (v : Vex3) (reg : BitVec 3)
    (src2 : VecWord) : VecFits c (vexWrite vl v reg s src2) :=
  h.setVec (lowVec_lt_vecCount c _) (lowBits_shift hvl _)

/-- A form that needs AVX512F may write any of the 32 registers at any length: all of them exist, 512 bits wide. -/
theorem evexWrite_vecFits (h : VecFits c s) (hc : c.consistent = true) (hf : c.cpuid.avx512f = true) (e : ElemSize)
    (vl : VLen) (ev : Evex) (reg : BitVec 3) (rm : Rm) (v : VecWord) :
    VecFits c (evexWrite e vl ev reg rm s v) := by
  refine h.setVec ?_ ?_
  · rw [Config.vecCount, if_pos hf]
    exact (regNum5 ev.rHi ev.r reg).isLt
  · rw [Config.maxvl_of_avx512f hc hf]
    exact BitVec.ushiftRight_eq_zero (le_refl 512)

/-- A form whose feature is present writes only registers and bits that exist. -/
theorem writeOf_vecFits {i : Instr} (h : VecFits c s) (hc : c.consistent = true)
    (hfeature : FeaturePresent i.form c.cpuid) (v : VecWord) : VecFits c (writeOf i s v) := by
  have h128 : VLen.v128.bits ≤ c.maxvl.bits := VLen.bits_ge_128 c.maxvl
  cases i with
  | pxorMm => exact ⟨h.width, h.count⟩
  | pxorXmm =>
    refine h.setVec (lowVec_lt_vecCount c _) ?_
    rw [replaceLow128_shift h128]
    exact h.width _
  | vpxorXmmVex2 => exact vexWrite_vecFits h h128 _ _ v
  | vpxorXmmVex3 => exact vexWrite_vecFits h h128 _ _ v
  | vpxorYmmVex2 => exact vexWrite_vecFits (vl := .v256) h (Config.bits_ge_256_of_avx2 hc hfeature) _ _ v
  | vpxorYmmVex3 => exact vexWrite_vecFits (vl := .v256) h (Config.bits_ge_256_of_avx2 hc hfeature) _ _ v
  | vpxordXmm => exact evexWrite_vecFits h hc hfeature.1 _ _ _ _ _ v
  | vpxordYmm => exact evexWrite_vecFits h hc hfeature.1 _ _ _ _ _ v
  | vpxordZmm => exact evexWrite_vecFits h hc hfeature _ _ _ _ _ v
  | vpxorqXmm => exact evexWrite_vecFits h hc hfeature.1 _ _ _ _ _ v
  | vpxorqYmm => exact evexWrite_vecFits h hc hfeature.1 _ _ _ _ _ v
  | vpxorqZmm => exact evexWrite_vecFits h hc hfeature _ _ _ _ _ v

end Writes

theorem exec_vecFits {i : Instr} {s t : State} (h : exec i s = .next t) (hc : s.cfg.consistent = true)
    (hfits : VecFits s.cfg s) : VecFits s.cfg t := by
  obtain ⟨⟨hfeature, _⟩, _, v, _, rfl⟩ := exec_eq_next_iff.mp h
  have hwrite := writeOf_vecFits hfits hc hfeature v
  exact ⟨hwrite.width, hwrite.count⟩

theorem kAt_eq_of_sameFrame {s t : State} (h : SameFrame s t) (r : BitVec 3) : kAt t r = kAt s r := by
  rw [kAt, kAt, h.k]

theorem exec_inv {i : Instr} {s t : State} (hinv : Inv s) (h : exec i s = .next t) : Inv t := by
  obtain ⟨hmem, hconsistent, hcode, hadmission, hwidth, hcount, hk, _⟩ := hinv
  have hframe := exec_sameFrame h
  have hfits := exec_vecFits h hconsistent ⟨hwidth, hcount⟩
  obtain ⟨hpc, hnext⟩ := exec_next_pc h
  unfold Inv
  rw [hframe.mem, hframe.cfg, hpc]
  exact ⟨hmem, hconsistent, hcode, hadmission, hfits.width, hfits.count,
    fun r => kAt_eq_of_sameFrame hframe r ▸ hk r, byteAddr_canonical hnext⟩

/-- Settles O16: a step that answers a next state has run an instruction, which keeps the frame, writes only bits and
registers that exist, and leaves a canonical pc. -/
theorem stepKeepsInvariant : Obligations.StepKeepsInvariant := by
  intro s t hinv h
  obtain ⟨_, i, _, hexec⟩ := step_eq_next h
  exact exec_inv hinv hexec

/-! ## The reset state -/

@[simp] theorem gprAt_reset (r : BitVec 4) : gprAt State.reset r = 0#64 := by
  simp [gprAt, State.reset, Vector.get_eq_getElem]

@[simp] theorem vecAt_reset (r : BitVec 5) : vecAt State.reset r = 0#512 := by
  simp [vecAt, State.reset, Vector.get_eq_getElem]

@[simp] theorem kAt_reset (r : BitVec 3) : kAt State.reset r = 0#64 := by
  simp [kAt, State.reset, Vector.get_eq_getElem]

@[simp] theorem x87RegAt_reset (r : BitVec 3) : x87RegAt State.reset r = 0#80 := by
  simp [x87RegAt, mmAt, State.reset, Vector.get_eq_getElem]

theorem tag_reset (r : BitVec 3) : State.reset.x87.tag.get r.toFin = 1#2 := by
  simp [State.reset, Vector.get_eq_getElem]

theorem codeRangeLegal_configAtReset : codeRangeLegal configAtReset = true := by decide

theorem canonical_reset_pc : canonical State.reset.cfg.vaBits State.reset.pc = true := by decide

/-- Settles O17: every vector and opmask register is zero, and the rest is a check of one configuration. -/
theorem invariantAtReset : Obligations.InvariantAtReset := by
  refine ⟨Memory.wf_nil, by decide, codeRangeLegal_configAtReset, by decide, fun r => ?_, fun r _ => vecAt_reset r,
    fun r => ?_, canonical_reset_pc⟩
  · rw [vecAt_reset, BitVec.zero_ushiftRight]
  · rw [kAt_reset, BitVec.zero_ushiftRight]

/-- Settles O18: the register files by their lemmas, the single registers by the definition of `State.reset`. -/
theorem resetValues : Obligations.ResetValues :=
  ⟨fun r _ => gprAt_reset r, rfl, rfl, rfl, rfl, vecAt_reset,
    fun r => ⟨kAt_reset r, x87RegAt_reset r, tag_reset r⟩, rfl, rfl, rfl, rfl, rfl⟩

end Sys2Proof.Machine
end

section
/-! What stops the read of a memory operand, from the side of each check (60_exceptions.md R185 (6) to (9)), and what
that makes of the instruction: its refusals, and the fault of its lowest byte that is not admitted. -/

namespace Sys2Proof.Machine

/-- Settles O20, as a part of the frame of a step. -/
theorem stepStoresNothing : Obligations.StepStoresNothing := by
  intro s t h a
  rw [(step_sameFrame h).mem]

/-! ## The checks of an operand, in order -/

section OperandStop

variable {f : Form} {s : State} {la : Quad} {n : Nat} {ss : Bool} {act : Nat → Bool} {st : Stop}

/-- What stops an operand is one of its five checks. -/
theorem operandStop_eq_some (h : operandStop f s la n ss act = some st) :
    canonicalStop s la n ss act = some st ∨ misalignedStop f s la = some st ∨
      notAdmittedStop s la n act = some st ∨ maskedStop s la n act = some st ∨
      alignCheckStop f s la n = some st := by
  unfold operandStop at h
  split at h
  next hc => exact .inl (hc.trans h)
  next =>
  split at h
  next hm => exact .inr (.inl (hm.trans h))
  next =>
  split at h
  next hn => exact .inr (.inr (.inl (hn.trans h)))
  next =>
  split at h
  next hk => exact .inr (.inr (.inr (.inl (hk.trans h))))
  next => exact .inr (.inr (.inr (.inr h)))

theorem operandStop_of_canonicalStop (hc : canonicalStop s la n ss act = some st) :
    operandStop f s la n ss act = some st := by
  simp only [operandStop, hc]

theorem operandStop_of_notAdmittedStop (hc : canonicalStop s la n ss act = none)
    (hm : misalignedStop f s la = none) (hn : notAdmittedStop s la n act = some st) :
    operandStop f s la n ss act = some st := by
  simp only [operandStop, hc, hm, hn]

theorem operandStop_of_maskedStop (hc : canonicalStop s la n ss act = none) (hm : misalignedStop f s la = none)
    (hn : notAdmittedStop s la n act = none) (hk : maskedStop s la n act = some st) :
    operandStop f s la n ss act = some st := by
  simp only [operandStop, hc, hm, hn, hk]

/-- The lowest accessed byte with an admission answer other than `ok` is the one that is reported. -/
theorem notAdmittedStop_of_lowest {j : Nat} (hj : j < n) (hact : act j = true)
    (hst : admissionStop s .read (byteAddr la j) = some st)
    (hlow : ∀ b, b < j → act b = true → admissionOf s.cfg (byteAddr la b) .read = .ok) :
    notAdmittedStop s la n act = some st := by
  have hfirst : firstByte n (fun b => act b && (admissionStop s .read (byteAddr la b)).isSome) = some j := by
    refine firstByte_eq_some_iff.mpr ⟨hj, by simp only [hact, hst, Option.isSome_some, Bool.and_self], ?_⟩
    intro b hb
    cases hab : act b with
    | false => rfl
    | true => simp only [(admissionStop_eq_none_iff _ _ _).mpr (hlow b hb hab), Option.isSome_none, Bool.and_false]
  simp only [notAdmittedStop, hfirst, Option.bind_some, hst]

/-! ## Which check refuses -/

theorem admissionStop_eq_refuse {k : AccessKind} {a : Quad} {e : Refusal}
    (h : admissionStop s k a = some (.refuse e)) : e = .deviceMemory a := by
  unfold admissionStop at h
  cases hanswer : admissionOf s.cfg a k with
  | device =>
    rw [hanswer] at h
    simpa [eq_comm] using h
  | _ =>
    rw [hanswer] at h
    simp [raise] at h

/-- An operand is refused for device memory, for a masked-off byte, or under alignment checking. -/
theorem operandStop_eq_refuse {e : Refusal} (h : operandStop f s la n ss act = some (.refuse e)) :
    (∃ a, e = .deviceMemory a) ∨ e = .maskedInadmissible ∨ e = .alignCheckOpen := by
  rcases operandStop_eq_some h with hc | hm | hn | hk | ha
  · obtain ⟨_, _, _, _, _, hfault⟩ := canonicalStop_eq_some hc
    cases hfault
  · obtain ⟨_, _, hfault⟩ := misalignedStop_eq_some hm
    cases hfault
  · obtain ⟨i, _, _, hadmission, _⟩ := notAdmittedStop_eq_some hn
    exact .inl ⟨_, admissionStop_eq_refuse hadmission⟩
  · obtain ⟨hrefuse, _⟩ := maskedStop_eq_some hk
    exact .inr (.inl (Stop.refuse.inj hrefuse))
  · obtain ⟨_, ⟨_, _, hfault⟩ | ⟨_, _, _, hrefuse⟩⟩ := alignCheckStop_eq_some ha
    · cases hfault
    · exact .inr (.inr (Stop.refuse.inj hrefuse))

end OperandStop

theorem Stop.outcome_eq_refused_iff {st : Stop} {e : Refusal} : st.outcome = .refused e ↔ st = .refuse e := by
  cases st <;> simp [Stop.outcome]

/-- No check before the operands refuses. -/
theorem formStop_ne_refuse (f : Form) (s : State) (e : Refusal) : formStop f s ≠ some (.refuse e) := by
  intro h
  obtain ⟨hfault, _⟩ | ⟨hfault, _⟩ | ⟨hfault, _⟩ := formStop_eq_some h <;> cases hfault

/-- An instruction is refused by the read of its memory operand, or where it would complete. -/
theorem exec_eq_refused {i : Instr} {s : State} {e : Refusal} (h : exec i s = .refused e) :
    e = .pcOutOfRange ∨ ∃ m, i.rm = .mem m ∧
      operandStop i.form s (operandAddr s i m) (operandBytes i) (operandStack i m) (operandActive s i) =
        some (.refuse e) := by
  have henabled : Enabled i.form s := by
    rw [← formStop_eq_none_iff, Option.eq_none_iff_forall_ne_some]
    intro st hst
    rw [exec_eq_execute, execute_of_formStop hst, Stop.outcome_eq_refused_iff] at h
    exact formStop_ne_refuse _ _ e (h ▸ hst)
  rw [exec_of_enabled henabled] at h
  cases hsrc : sourceOf i s with
  | ok v =>
    simp only [hsrc, complete_eq] at h
    split at h
    · cases h
    · exact .inl (Host.Outcome.refused.inj h).symm
  | error st =>
    simp only [hsrc] at h
    rw [Stop.outcome_eq_refused_iff] at h
    subst h
    cases hrm : i.rm with
    | reg r =>
      obtain ⟨v, hv⟩ := sourceOf_reg hrm s
      simp [hv] at hsrc
    | mem m =>
      rw [sourceOf_mem hrm] at hsrc
      exact .inr ⟨m, rfl, loadOperand_eq_error_iff.mp hsrc⟩

/-- Settles O55: the refusals of an operand, and the one of `complete`. -/
theorem refusalsOfInstructions : Obligations.RefusalsOfInstructions := by
  intro i s e h
  obtain hpc | ⟨m, _, hstop⟩ := exec_eq_refused h
  · exact .inr (.inr (.inr hpc))
  · obtain hdevice | hmasked | halign := operandStop_eq_refuse hstop
    · exact .inl hdevice
    · exact .inr (.inl hmasked)
    · exact .inr (.inr (.inl halign))

/-- An enabled memory form whose lowest accessed byte that is not admitted asks for `st`. -/
theorem exec_of_lowest_notAdmitted {s : State} {i : Instr} {m : Mem} {j : Nat} {st : Stop} (hrm : i.rm = .mem m)
    (henabled : Enabled i.form s)
    (hcanonical : ∀ b, b < operandBytes i → operandActive s i b = true →
      byteCanonical s (operandAddr s i m) b = true)
    (haligned : i.form = .f2 → (operandAddr s i m).toNat % 16 = 0) (hj : j < operandBytes i)
    (hact : operandActive s i j = true)
    (hlow : ∀ b, b < j → operandActive s i b = true →
      admissionOf s.cfg (byteAddr (operandAddr s i m) b) .read = .ok)
    (hst : admissionStop s .read (byteAddr (operandAddr s i m) j) = some st) : exec i s = st.outcome :=
  exec_of_operandStop hrm henabled
    (operandStop_of_notAdmittedStop (canonicalStop_eq_none_iff.mpr hcanonical)
      (misalignedStop_eq_none_iff.mpr haligned) (notAdmittedStop_of_lowest hj hact hst hlow))

/-- Settles O49: the four answers of `admissionStop` at that byte. -/
theorem notAdmittedOperand : Obligations.NotAdmittedOperand := by
  intro s i m j hrm henabled hcanonical haligned hj hact hlow a
  have hexec : ∀ st, admissionStop s .read a = some st → exec i s = st.outcome := fun st =>
    exec_of_lowest_notAdmitted hrm henabled hcanonical haligned hj hact hlow
  refine ⟨fun code hanswer => ⟨?pageFault, fun hlegal => ?code⟩, fun hanswer => ?generalProtection,
    fun hanswer => ?stackFault, fun hanswer => ?device⟩
  case pageFault => exact hexec (raise (.pf code a) s) (by simp only [admissionStop, hanswer])
  case code =>
    have hcode : (!code.getLsbD 1 && code.getLsbD 4 == false) = true := admissionOf_pageFault hanswer hlegal
    simpa only [Bool.and_eq_true, Bool.not_eq_true', beq_iff_eq] using hcode
  case generalProtection => exact hexec (raise (.gp (some a)) s) (by simp only [admissionStop, hanswer])
  case stackFault => exact hexec (raise (.ss a) s) (by simp only [admissionStop, hanswer])
  case device => exact hexec (.refuse (.deviceMemory a)) (by simp only [admissionStop, hanswer])

end Sys2Proof.Machine
end

section
/-! The segment of a memory operand and the canonical addresses: the stack-segment class, and the fault of an operand
that is not canonical or wraps (20_memory.md R57, R58; 60_exceptions.md R179, R180). -/

namespace Sys2Proof.Machine

/-! ## The segment override -/

theorem segOverride_mem {pre : List Prefix} {g : Seg} (h : segOverride pre = some g) : Prefix.seg g ∈ pre := by
  induction pre with
  | nil => cases h
  | cons p t ih =>
    cases p with
    | seg g' =>
      cases h
      exact List.mem_cons_self
    | _ => exact List.mem_cons_of_mem _ (ih h)

theorem segCount_pos {pre : List Prefix} {g : Seg} (h : Prefix.seg g ∈ pre) : 0 < segCount pre := by
  induction pre with
  | nil => cases h
  | cons p t ih =>
    cases p with
    | seg g' => exact Nat.succ_pos _
    | _ =>
      rcases List.mem_cons.mp h with hp | ht
      · cases hp
      · exact ih ht

/-- Where at most one override stands among the bytes, `segOverride` finds it wherever it is. -/
theorem segOverride_eq_some_iff {pre : List Prefix} (hcount : segCount pre ≤ 1) (g : Seg) :
    segOverride pre = some g ↔ Prefix.seg g ∈ pre := by
  refine ⟨segOverride_mem, fun h => ?_⟩
  induction pre with
  | nil => cases h
  | cons p t ih =>
    cases p with
    | seg g' =>
      rcases List.mem_cons.mp h with hp | ht
      · cases hp
        rfl
      · have hpos := segCount_pos ht
        have hsum : segCount t + 1 ≤ 1 := hcount
        omega
    | _ =>
      rcases List.mem_cons.mp h with hp | ht
      · cases hp
      · exact ih hcount ht

theorem segCount_of_legacyPreOk {need66 : Bool} {pre : List Prefix} {rex : Option Rex}
    (h : legacyPreOk need66 pre rex = true) : segCount pre ≤ 1 := by
  simp only [legacyPreOk, Bool.and_eq_true, decide_eq_true_eq] at h
  obtain ⟨⟨_, hcount⟩, _⟩ := h
  exact hcount

theorem segCount_of_vexPreOk {pre : List Prefix} (h : vexPreOk pre = true) : segCount pre ≤ 1 := by
  simp only [vexPreOk, Bool.and_eq_true, decide_eq_true_eq] at h
  obtain ⟨⟨_, hcount⟩, _⟩ := h
  exact hcount

/-- A well-formed instruction has at most one segment override (30_encoding.md R87). -/
theorem segCount_of_wf {i : Instr} (h : i.wf = true) : segCount i.pre ≤ 1 := by
  obtain ⟨hbody, _⟩ := (Bool.and_eq_true _ _).mp h
  cases i with
  | pxorMm | pxorXmm => exact segCount_of_legacyPreOk ((Bool.and_eq_true _ _).mp hbody).1
  | vpxorXmmVex2 | vpxorXmmVex3 | vpxorYmmVex2 | vpxorYmmVex3 =>
    exact segCount_of_vexPreOk ((Bool.and_eq_true _ _).mp hbody).1
  | _ => exact segCount_of_vexPreOk ((Bool.and_eq_true _ _).mp ((Bool.and_eq_true _ _).mp hbody).1).1

/-! ## The stack-segment class -/

/-- Registers 4 and 5 are those whose extension bit is 0 and whose field is 4 or 5. -/
theorem regNum4_stack_iff (b : Bool) (r : BitVec 3) :
    (regNum4 b r = 4#4 ∨ regNum4 b r = 5#4) ↔ b = false ∧ (r = 4#3 ∨ r = 5#3) := by
  revert b r
  decide

theorem operandStack_iff {i : Instr} (hwf : i.wf = true) (m : Mem) :
    operandStack i m = true ↔ StackSegment i m := by
  have hover := segOverride_eq_some_iff (segCount_of_wf hwf)
  simp only [operandStack, stackClass, StackSegment, ← hover, Bool.and_eq_true, Bool.not_eq_true',
    Bool.or_eq_false_iff, Bool.or_eq_true, beq_iff_eq, beq_eq_false_iff_ne, ne_eq, and_assoc]
  cases m with
  | base rm d => simp only [baseReg, Option.some.injEq, regNum4_stack_iff]
  | sib scale index bs d => simp only [baseReg, Option.some.injEq, regNum4_stack_iff]
  | rip d => simp [baseReg]
  | sibNoBase scale index d => simp [baseReg]

/-! ## Canonical addresses -/

/-- Two words shifted right are the same where their bits from there on are. -/
theorem ushiftRight_eq_iff {w : Nat} (x y : BitVec w) (k : Nat) :
    x >>> k = y >>> k ↔ ∀ b, k ≤ b → b < w → x.getLsbD b = y.getLsbD b := by
  constructor
  · intro h b hb _
    have hbit := congrArg (fun z => z.getLsbD (b - k)) h
    simpa only [BitVec.getLsbD_ushiftRight, Nat.add_sub_cancel' hb] using hbit
  · intro h
    apply BitVec.eq_of_getLsbD_eq
    intro b _
    rw [BitVec.getLsbD_ushiftRight, BitVec.getLsbD_ushiftRight]
    by_cases hlt : k + b < w
    · exact h (k + b) (Nat.le_add_right k b) hlt
    · rw [BitVec.getLsbD_of_ge x _ (Nat.not_lt.mp hlt), BitVec.getLsbD_of_ge y _ (Nat.not_lt.mp hlt)]

/-- An address is canonical where its bits from `vaBits - 1` on are all clear or all set. -/
theorem canonical_iff_clear_or_set (v : VaBits) (a : Quad) :
    canonical v a = true ↔
      (∀ b, v.bits - 1 ≤ b → b < 64 → a.getLsbD b = false) ∨
        (∀ b, v.bits - 1 ≤ b → b < 64 → a.getLsbD b = true) := by
  have hclear : a >>> (v.bits - 1) = 0#64 ↔ ∀ b, v.bits - 1 ≤ b → b < 64 → a.getLsbD b = false := by
    simpa only [BitVec.zero_ushiftRight, BitVec.getLsbD_zero] using ushiftRight_eq_iff a 0#64 (v.bits - 1)
  have hset : a >>> (v.bits - 1) = BitVec.allOnes 64 >>> (v.bits - 1) ↔
      ∀ b, v.bits - 1 ≤ b → b < 64 → a.getLsbD b = true := by
    rw [ushiftRight_eq_iff]
    refine forall₃_congr fun b _ hb => ?_
    rw [BitVec.getLsbD_allOnes, decide_eq_true hb]
  simp only [canonical, Bool.or_eq_true, beq_iff_eq, hclear, hset]

theorem vaBits_sub_one_le (v : VaBits) : v.bits - 1 ≤ 63 := by
  cases v <;> decide

/-- Bits 63 to `vaBits - 1` of a canonical address are equal (20_memory.md R58). -/
theorem canonical_iff (v : VaBits) (a : Quad) :
    canonical v a = true ↔ ∀ b, v.bits - 1 ≤ b → b < 64 → a.getLsbD b = a.getLsbD 63 := by
  rw [canonical_iff_clear_or_set]
  constructor
  · rintro (h | h) b hb hlt <;> rw [h b hb hlt, h 63 (vaBits_sub_one_le v) (by decide)]
  · intro h
    cases htop : a.getLsbD 63 with
    | false => exact .inl fun b hb hlt => (h b hb hlt).trans htop
    | true => exact .inr fun b hb hlt => (h b hb hlt).trans htop

/-- A byte past 2^64 or at a non-canonical address is not canonical. -/
theorem byteCanonical_eq_false {s : State} {la : Quad} {j : Nat}
    (h : 2 ^ 64 ≤ la.toNat + j ∨ canonical s.cfg.vaBits (byteAddr la j) = false) :
    byteCanonical s la j = false := by
  rcases h with hwrap | hcanonical
  · simp only [byteCanonical, decide_eq_false (Nat.not_lt.mpr hwrap), Bool.false_and]
  · simp only [byteCanonical, hcanonical, Bool.and_false]

/-- An enabled memory form with an accessed byte that is not canonical ends at the first such byte. -/
theorem exec_of_not_byteCanonical {s : State} {i : Instr} {m : Mem} {j : Nat} (hrm : i.rm = .mem m)
    (henabled : Enabled i.form s) (hj : j < operandBytes i) (hact : operandActive s i j = true)
    (hnot : byteCanonical s (operandAddr s i m) j = false) :
    ∃ a, exec i s = .fault (if operandStack i m then .ss a s.pc else .gp (some a) s.pc) := by
  cases hc : canonicalStop s (operandAddr s i m) (operandBytes i) (operandStack i m) (operandActive s i) with
  | none =>
    have hyes := canonicalStop_eq_none_iff.mp hc j hj hact
    rw [hnot] at hyes
    cases hyes
  | some st =>
    obtain ⟨b, _, _, _, _, rfl⟩ := canonicalStop_eq_some hc
    exact ⟨_, exec_of_operandStop hrm henabled (operandStop_of_canonicalStop hc)⟩

/-- Settles O48: the bits of `canonical`, and the fault of the operand's class at the first byte. -/
theorem nonCanonicalOperand : Obligations.NonCanonicalOperand := by
  refine ⟨canonical_iff, fun s i m j hwf hrm henabled hj hact hbad => ?_⟩
  obtain ⟨a, hexec⟩ := exec_of_not_byteCanonical hrm henabled hj hact (byteCanonical_eq_false hbad)
  constructor
  · intro hstack
    rw [if_pos ((operandStack_iff hwf m).mpr hstack)] at hexec
    exact ⟨a, hexec⟩
  · intro hstack
    rw [if_neg fun h => hstack ((operandStack_iff hwf m).mp h)] at hexec
    exact ⟨a, hexec⟩

end Sys2Proof.Machine
end

section
/-! The linear address of a memory operand in integers (20_memory.md R54, R56, R57; 30_encoding.md R116): every term of
the sum is a machine word that agrees with its integer modulo the address size. -/

namespace Sys2Proof.Machine

/-- The modulus of an effective address: 2^32 under the address-size override (20_memory.md R56). -/
def addrModulus (a32 : Bool) : Int := if a32 then 2 ^ 32 else 2 ^ 64

/-- The word `v` stands for the integer `z` in an address sum. -/
def AddrEq (a32 : Bool) (v : Quad) (z : Int) : Prop := (v.toNat : Int) ≡ z [ZMOD addrModulus a32]

theorem addrModulus_dvd (a32 : Bool) : addrModulus a32 ∣ 2 ^ 64 := by
  cases a32 <;> decide

/-! ## Words that stand for integers -/

section AddrEq

variable {a32 : Bool} {v w : Quad} {y z : Int}

/-- What agrees modulo 2^64 agrees at either address size. -/
theorem addrEq_of_emod (h : (v.toNat : Int) = z % 2 ^ 64) : AddrEq a32 v z := by
  unfold AddrEq
  rw [h]
  exact Int.ModEq.of_dvd (addrModulus_dvd a32) (Int.mod_modEq z _)

theorem addrEq_toNat (a32 : Bool) (v : Quad) : AddrEq a32 v v.toNat := Int.ModEq.refl _

theorem addrEq_ofNat (a32 : Bool) (n : Nat) : AddrEq a32 (BitVec.ofNat 64 n) n :=
  addrEq_of_emod (by simp)

/-- A displacement stands for its signed value. -/
theorem addrEq_signExtend (a32 : Bool) {n : Nat} (d : BitVec n) : AddrEq a32 (d.signExtend 64) d.toInt := by
  refine addrEq_of_emod ?_
  rw [BitVec.signExtend, BitVec.toNat_ofInt]
  exact Int.toNat_of_nonneg (Int.emod_nonneg _ (by decide))

theorem AddrEq.add (hv : AddrEq a32 v y) (hw : AddrEq a32 w z) : AddrEq a32 (v + w) (y + z) :=
  (addrEq_of_emod (by simp)).trans (Int.ModEq.add hv hw)

theorem AddrEq.mul (hv : AddrEq a32 v y) (hw : AddrEq a32 w z) : AddrEq a32 (v * w) (y * z) :=
  (addrEq_of_emod (by simp)).trans (Int.ModEq.mul hv hw)

theorem AddrEq.shiftLeft (hv : AddrEq a32 v z) (n : Nat) : AddrEq a32 (v <<< n) (z * 2 ^ n) :=
  (addrEq_of_emod (by simp [Nat.shiftLeft_eq])).trans (Int.ModEq.mul_right _ hv)

/-- The 64-bit address size keeps all of a word. -/
theorem toNat_emod_modulus64 (v : Quad) : (v.toNat : Int) % addrModulus false = v.toNat :=
  Int.emod_eq_of_lt (Int.natCast_nonneg _) (Int.ofNat_lt.mpr v.isLt)

/-- The part of a word that an address size keeps. -/
theorem toNat_addrTerm (a32 : Bool) (v : Quad) : ((addrTerm a32 v).toNat : Int) = v.toNat % addrModulus a32 := by
  cases a32 with
  | false => exact (toNat_emod_modulus64 v).symm
  | true =>
    have hlow : (addrTerm true v).toNat = v.toNat % 2 ^ 32 := by
      change ((v.setWidth 32).setWidth 64).toNat = _
      rw [BitVec.toNat_setWidth, BitVec.toNat_setWidth]
      omega
    exact congrArg Int.ofNat hlow

/-- A word cut to the address size stands for what it stood for. -/
theorem AddrEq.addrTerm (hv : AddrEq a32 v z) : AddrEq a32 (addrTerm a32 v) z := by
  unfold AddrEq
  rw [toNat_addrTerm]
  exact (Int.mod_modEq _ _).trans hv

end AddrEq

/-! ## The terms of R54 -/

theorem addrEq_regInt (a32 : Bool) (v : Quad) : AddrEq a32 (addrTerm a32 v) (regInt a32 v) := by
  have hval : regInt a32 v = v.toNat % addrModulus a32 := by
    cases a32 with
    | false => exact (toNat_emod_modulus64 v).symm
    | true => rfl
  rw [hval, ← toNat_addrTerm]
  exact addrEq_toNat a32 _

theorem addrEq_dispTerm (a32 : Bool) (n : Nat) (d : Disp) : AddrEq a32 (dispTerm n d) (dispInt n d) := by
  cases d with
  | none => exact addrEq_ofNat a32 0
  | disp8 d => exact (addrEq_signExtend a32 d).mul (addrEq_ofNat a32 n)
  | disp32 d => exact addrEq_signExtend a32 d

theorem addrEq_indexTerm (s : State) (a32 x : Bool) (scale : BitVec 2) (index : BitVec 3) :
    AddrEq a32 (indexTerm s a32 x scale index) (indexInt s a32 x scale index) := by
  unfold indexTerm indexInt
  split
  · exact addrEq_ofNat a32 0
  · exact (addrEq_regInt a32 _).shiftLeft _

theorem addrEq_byteAddr (a32 : Bool) (la : Quad) (i : Nat) : AddrEq a32 (byteAddr la i) (la.toNat + i) :=
  (addrEq_toNat a32 la).add (addrEq_ofNat a32 i)

/-- The sum of R54 for every addressing mode. -/
theorem addrEq_addrSum (s : State) (a32 x b : Bool) (n len : Nat) (m : Mem) :
    AddrEq a32 (addrSum s a32 x b n (byteAddr s.pc len) m) (sumInt s a32 x b n (s.pc.toNat + len) m) := by
  cases m with
  | base rm d => exact (addrEq_regInt a32 _).add (addrEq_dispTerm a32 n d)
  | rip d =>
    have hnext := (addrEq_byteAddr a32 s.pc len).addrTerm
    exact hnext.add (addrEq_signExtend a32 d)
  | sib scale index bs d =>
    exact ((addrEq_regInt a32 _).add (addrEq_indexTerm s a32 x scale index)).add (addrEq_dispTerm a32 n d)
  | sibNoBase scale index d => exact (addrEq_indexTerm s a32 x scale index).add (addrEq_signExtend a32 d)

/-- The effective address is the sum modulo the address size (R54, R56). -/
theorem toNat_effAddr (s : State) (a32 x b : Bool) (n len : Nat) (m : Mem) :
    ((effAddr s a32 x b n (byteAddr s.pc len) m).toNat : Int) =
      sumInt s a32 x b n (s.pc.toNat + len) m % addrModulus a32 :=
  (toNat_addrTerm a32 _).trans (addrEq_addrSum s a32 x b n len m)

/-! ## The segment base and the displacement scale -/

theorem toNat_segBase (s : State) {pre : List Prefix} (hcount : segCount pre ≤ 1) :
    ((segBase s pre).toNat : Int) = segInt s pre := by
  unfold segInt segBase
  simp only [← segOverride_eq_some_iff hcount]
  cases segOverride pre with
  | none => simp
  | some g => cases g <;> simp

theorem dispScale_eq_dispFactor (i : Instr) : dispScale i = dispFactor i := by
  cases i <;> rfl

/-- The linear address is the segment base and the effective address, modulo 2^64 (R57). -/
theorem toNat_operandAddr (s : State) {i : Instr} (hwf : i.wf = true) (m : Mem) :
    ((operandAddr s i m).toNat : Int) = addrInt s i m := by
  have hea := toNat_effAddr s (addrSize32 i.pre) (extX i) (extB i) (dispScale i) i.ilen m
  have hseg := toNat_segBase s (segCount_of_wf hwf)
  calc ((operandAddr s i m).toNat : Int)
      = ((segBase s i.pre).toNat +
          (effAddr s (addrSize32 i.pre) (extX i) (extB i) (dispScale i) (byteAddr s.pc i.ilen) m).toNat) % 2 ^ 64 := by
        rw [operandAddr, linAddr, BitVec.toNat_add]
        exact_mod_cast rfl
    _ = addrInt s i m := by
        rw [hseg, hea, dispScale_eq_dispFactor]
        rfl

/-- Settles O41: the linear address by its terms, and the general registers by the frame. -/
theorem operandAddress : Obligations.OperandAddress := by
  intro s i m hwf _
  exact ⟨toNat_operandAddr s hwf m, fun t h => (exec_sameFrame h).gpr⟩

end Sys2Proof.Machine
end

section
/-! The masked memory operand of an EVEX form (20_memory.md R61; 42_vpxord_vpxorq_evex.md R150, R151): only the bytes of
active elements are asked for, and element `j` is computed from its own bytes. -/

namespace Sys2Proof.Machine

/-! ## The six EVEX rows as one, by element size and vector length -/

section EvexInstr

variable (e : ElemSize) (vl : VLen) (pre : List Prefix) (ev : Evex) (reg : BitVec 3) (rm : Rm)

@[simp] theorem form_evexInstr : (evexInstr e vl pre ev reg rm).form = evexForm e vl := by
  cases e <;> cases vl <;> rfl

@[simp] theorem rm_evexInstr : (evexInstr e vl pre ev reg rm).rm = rm := by
  cases e <;> cases vl <;> rfl

@[simp] theorem writeOf_evexInstr : writeOf (evexInstr e vl pre ev reg rm) = evexWrite e vl ev reg rm := by
  cases e <;> cases vl <;> rfl

@[simp] theorem operandBytes_evexInstr : operandBytes (evexInstr e vl pre ev reg rm) = evexBytes e vl ev.bcast := by
  cases e <;> cases vl <;> rfl

@[simp] theorem operandActive_evexInstr (s : State) :
    operandActive s (evexInstr e vl pre ev reg rm) = byteActive s e vl ev := by
  cases e <;> cases vl <;> rfl

theorem evexForm_ne_f2 : evexForm e vl ≠ .f2 := by
  cases e <;> cases vl <;> decide

end EvexInstr

/-- The vector that the element loop of R150 writes, `v` the register or the operand read. -/
def evexResult (e : ElemSize) (vl : VLen) (ev : Evex) (reg : BitVec 3) (rm : Rm) (s : State) (v : VecWord) : VecWord :=
  maskedXor e vl (elemActive s ev.aaa) ev.z (vecAt s (regNum5 ev.rHi ev.r reg))
    (vecAt s (BitVec.ofBool ev.vHi ++ ev.vvvv)) (srcElem e ev rm v)

/-- An enabled EVEX instruction whose second source is read writes that vector and advances pc. -/
theorem exec_evexInstr_eq_next {e : ElemSize} {vl : VLen} {pre : List Prefix} {ev : Evex} {reg : BitVec 3} {rm : Rm}
    {s : State} {v : VecWord} (henabled : Enabled (evexForm e vl) s)
    (hnext : NextPcOk s (evexInstr e vl pre ev reg rm).ilen)
    (hsrc : sourceOf (evexInstr e vl pre ev reg rm) s = .ok v) :
    exec (evexInstr e vl pre ev reg rm) s =
      .next { setVec s (regNum5 ev.rHi ev.r reg) (evexResult e vl ev reg rm s v) with
        pc := byteAddr s.pc (evexInstr e vl pre ev reg rm).ilen } := by
  refine exec_eq_next_iff.mpr ⟨(form_evexInstr ..).symm ▸ henabled, hnext, v, hsrc, ?_⟩
  rw [writeOf_evexInstr]
  rfl

/-! ## Active elements and their bytes -/

theorem elemActive_iff (s : State) (aaa : BitVec 3) (j : Nat) :
    elemActive s aaa j = true ↔ aaa = 0#3 ∨ (kAt s aaa).getLsbD j = true := by
  simp only [elemActive, Bool.or_eq_true, beq_iff_eq]

/-- A byte of a broadcast operand belongs to every element, a byte of a full one to the element that holds it. -/
theorem byteActive_iff (s : State) (e : ElemSize) (vl : VLen) (ev : Evex) (b : Nat) :
    byteActive s e vl ev b = true ↔
      if ev.bcast then ∃ j, j < elemCount e vl ∧ elemActive s ev.aaa j = true
      else elemActive s ev.aaa (b / (e.bits / 8)) = true := by
  unfold byteActive
  split
  · simp only [List.any_eq_true, List.mem_range]
  · rfl

/-- The bytes of one element. -/
theorem elemBits_eq (e : ElemSize) : 8 * (e.bits / 8) = e.bits := by
  cases e <;> rfl

/-- The bytes of one vector length. -/
theorem elemCount_mul_bytes (e : ElemSize) (vl : VLen) : elemCount e vl * (e.bits / 8) = vl.bits / 8 := by
  cases e <;> cases vl <;> rfl

theorem evexBytes_le (e : ElemSize) (vl : VLen) (bcast : Bool) : evexBytes e vl bcast ≤ 64 := by
  cases e <;> cases vl <;> cases bcast <;> decide

/-- Element `k` of `n` bytes in memory is the value of its own bytes (20_memory.md R51). -/
theorem elemAt_readLE (mem : Memory) (la : Quad) (e : ElemSize) {n k : Nat} (hn : n ≤ 64)
    (hk : k * (e.bits / 8) + e.bits / 8 ≤ n) :
    elemAt e ((readLE mem la n).setWidth 512) k =
      (readLE mem (byteAddr la (k * (e.bits / 8))) (e.bits / 8)).setWidth e.bits := by
  have hbits := elemBits_eq e
  have hoff : 8 * (k * (e.bits / 8)) = k * e.bits := by rw [Nat.mul_left_comm, hbits]
  rw [← readLE_slice mem la n _ _ hk, hoff]
  apply BitVec.eq_of_getLsbD_eq
  intro b hb
  have hb' : b < 8 * (e.bits / 8) := by omega
  have hlt : k * e.bits + b < 512 := by omega
  simp only [elemAt, BitVec.getLsbD_extractLsb', BitVec.getLsbD_setWidth, hb, hb', hlt, decide_true, Bool.true_and]

/-- Element `j` of the second source in memory: the only one of a broadcast operand, else its own (R151). -/
theorem srcElem_mem_readLE (mem : Memory) (la : Quad) (e : ElemSize) (vl : VLen) (ev : Evex) (o : Mem) {j : Nat}
    (hj : j < elemCount e vl) :
    srcElem e ev (.mem o) ((readLE mem la (evexBytes e vl ev.bcast)).setWidth 512) j =
      (readLE mem (byteAddr la (if ev.bcast then 0 else j * (e.bits / 8))) (e.bits / 8)).setWidth e.bits := by
  have hn := evexBytes_le e vl ev.bcast
  unfold srcElem
  cases hb : ev.bcast with
  | true =>
    have hk : 0 * (e.bits / 8) + e.bits / 8 ≤ evexBytes e vl true := by simp [evexBytes]
    simpa using elemAt_readLE mem la e (hb ▸ hn) hk
  | false =>
    have hk : j * (e.bits / 8) + e.bits / 8 ≤ evexBytes e vl false := by
      calc j * (e.bits / 8) + e.bits / 8
          = (j + 1) * (e.bits / 8) := (Nat.succ_mul _ _).symm
        _ ≤ elemCount e vl * (e.bits / 8) := Nat.mul_le_mul_right _ hj
        _ = evexBytes e vl false := elemCount_mul_bytes e vl
    exact elemAt_readLE mem la e (hb ▸ hn) hk

/-! ## The outcome of a masked operand, of any form -/

section Outcome

variable {s : State} {i : Instr} {m : Mem}

/-- With fault suppression only the bytes of active elements need be readable. -/
theorem sourceOf_mem_of_faultSuppression (hrm : i.rm = .mem m) (hread : ActiveReadable s i m)
    (hf2 : i.form ≠ .f2) (hcheck : alignCheck s = false) (hsuppress : s.cfg.faultSuppression = true) :
    sourceOf i s = .ok ((readLE s.mem (operandAddr s i m) (operandBytes i)).setWidth 512) := by
  refine (sourceOf_mem_eq_ok_iff hrm).mpr ⟨operandStop_eq_none_iff.mpr ⟨hread, fun h => absurd h hf2,
    .inl hsuppress, fun h => ?_⟩, rfl⟩
  rw [hcheck] at h
  cases h

/-- Without it, a byte that cannot be read is one of a masked-off element, and refuses the step. -/
theorem exec_of_not_faultSuppression (hrm : i.rm = .mem m) (henabled : Enabled i.form s)
    (hread : ActiveReadable s i m) (hf2 : i.form ≠ .f2) (hsuppress : s.cfg.faultSuppression = false) {b : Nat}
    (hb : b < operandBytes i) (hnot : byteReadable s (operandAddr s i m) b = false) :
    exec i s = .refused .maskedInadmissible := by
  have hcanonical : canonicalStop s (operandAddr s i m) (operandBytes i) (operandStack i m) (operandActive s i) =
      none := canonicalStop_eq_none_iff.mpr fun j hj ha => ((byteReadable_iff ..).mp (hread j hj ha)).1
  have hadmitted : notAdmittedStop s (operandAddr s i m) (operandBytes i) (operandActive s i) = none :=
    notAdmittedStop_eq_none_iff.mpr fun j hj ha => ((byteReadable_iff ..).mp (hread j hj ha)).2
  have hinactive : operandActive s i b = false := by
    rw [← Bool.not_eq_true]
    intro ha
    rw [hread b hb ha] at hnot
    cases hnot
  cases hmasked : maskedStop s (operandAddr s i m) (operandBytes i) (operandActive s i) with
  | none =>
    rcases maskedStop_eq_none_iff.mp hmasked with hs | hall
    · rw [hsuppress] at hs
      cases hs
    · rw [hall b hb hinactive] at hnot
      cases hnot
  | some st =>
    obtain ⟨rfl, _⟩ := maskedStop_eq_some hmasked
    exact exec_of_operandStop hrm henabled (operandStop_of_maskedStop hcanonical
      (misalignedStop_eq_none_iff.mpr fun h => absurd h hf2) hadmitted hmasked)

end Outcome

/-- Settles O34: with fault suppression the operand is read and the element loop runs on it, without it a masked-off
byte refuses. -/
theorem maskedOperand : Obligations.MaskedOperand := by
  intro s e vl pre ev reg m i d s1 la active touched _ henabled hnext hcheck hread
  have hrm : i.rm = .mem m := rm_evexInstr e vl pre ev reg _
  have hform : i.form = evexForm e vl := form_evexInstr e vl pre ev reg _
  have hf2 : i.form ≠ .f2 := hform ▸ evexForm_ne_f2 e vl
  have henabled' : Enabled i.form s := hform ▸ henabled
  have hactive : ActiveReadable s i m := by
    intro b hb ha
    refine hread b hb ?_
    rw [operandActive_evexInstr, byteActive_iff] at ha
    simpa only [elemActive_iff] using ha
  refine ⟨fun hsuppress => ?suppressed, fun hsuppress ⟨b, hb, hnot⟩ =>
    exec_of_not_faultSuppression hrm henabled' hactive hf2 hsuppress hb hnot⟩
  have hsrc := sourceOf_mem_of_faultSuppression hrm hactive hf2 hcheck hsuppress
  rw [operandBytes_evexInstr] at hsrc
  refine ⟨evexResult e vl ev reg (.mem m) s _, exec_evexInstr_eq_next henabled hnext hsrc,
    fun j hj hon => ?active, fun j hj hoff => ?masked, maskedXor_shift ..⟩
  case active =>
    rw [evexResult, elemAt_maskedXor _ _ _ _ _ _ _ _ hj, if_pos ((elemActive_iff ..).mpr hon),
      srcElem_mem_readLE _ _ _ _ _ _ hj]
  case masked =>
    rw [evexResult, elemAt_maskedXor _ _ _ _ _ _ _ _ hj, if_neg fun h => hoff ((elemActive_iff ..).mp h)]

end Sys2Proof.Machine
end

section
/-! The operand bytes of an instruction: ModRM, SIB and displacement (30_encoding.md R92 to R96). The decoder reads an
operand from exactly the bytes that the encoder writes for it. -/

namespace Sys2Proof

/-! ## The fields of ModRM and SIB -/

section Fields

variable (hi : BitVec 2) (mid lo : BitVec 3)

@[simp] theorem modRmByte_hi : (modRmByte hi mid lo).extractLsb' 6 2 = hi := by revert hi mid lo; decide
@[simp] theorem modRmByte_mid : (modRmByte hi mid lo).extractLsb' 3 3 = mid := by revert hi mid lo; decide
@[simp] theorem modRmByte_lo : (modRmByte hi mid lo).extractLsb' 0 3 = lo := by revert hi mid lo; decide

@[simp] theorem sibByte_hi : (sibByte hi mid lo).extractLsb' 6 2 = hi := modRmByte_hi hi mid lo
@[simp] theorem sibByte_mid : (sibByte hi mid lo).extractLsb' 3 3 = mid := modRmByte_mid hi mid lo
@[simp] theorem sibByte_lo : (sibByte hi mid lo).extractLsb' 0 3 = lo := modRmByte_lo hi mid lo

end Fields

theorem modRmByte_fields (b : Byte) :
    modRmByte (b.extractLsb' 6 2) (b.extractLsb' 3 3) (b.extractLsb' 0 3) = b := by
  revert b; decide

theorem sibByte_fields (b : Byte) :
    sibByte (b.extractLsb' 6 2) (b.extractLsb' 3 3) (b.extractLsb' 0 3) = b :=
  modRmByte_fields b

/-! ## Displacement -/

theorem disp32Bytes_append (b0 b1 b2 b3 : Byte) : disp32Bytes (b3 ++ b2 ++ b1 ++ b0) = [b0, b1, b2, b3] := by
  simp only [disp32Bytes, List.cons.injEq, and_true]
  refine ⟨?_, ?_, ?_, ?_⟩ <;>
  · apply BitVec.eq_of_getLsbD_eq
    intro i hi
    simp only [BitVec.getLsbD_append, BitVec.getLsbD_extractLsb']
    grind

theorem append_disp32Bytes (d : BitVec 32) :
    d.extractLsb' 24 8 ++ d.extractLsb' 16 8 ++ d.extractLsb' 8 8 ++ d.extractLsb' 0 8 = d := by
  apply BitVec.eq_of_getLsbD_eq
  intro i hi
  simp only [BitVec.getLsbD_append, BitVec.getLsbD_extractLsb']
  grind

theorem takeDisp32_eq_some_iff {bs t : List Byte} {d : BitVec 32} :
    takeDisp32 bs = some (d, t) ↔ bs = disp32Bytes d ++ t := by
  constructor
  · intro h
    unfold takeDisp32 at h
    split at h
    next b0 b1 b2 b3 u =>
      obtain ⟨rfl, rfl⟩ := Prod.mk.inj (Option.some.inj h)
      rw [disp32Bytes_append]
      rfl
    next => cases h
  · rintro rfl
    exact congrArg (fun v => some (v, t)) (append_disp32Bytes d)

theorem Disp.mod_ne (d : Disp) : d.mod ≠ 3#2 := by cases d <;> simp [Disp.mod]

theorem Disp.mod_eq_zero_iff (d : Disp) : d.mod = 0#2 ↔ d = .none := by cases d <;> simp [Disp.mod]

/-- Where `mod` is that of a memory operand, the displacement read is the one `mod` announces. -/
theorem takeDisp_eq_some_iff {mod : BitVec 2} {bs t : List Byte} {d : Disp} (hmod : mod ≠ 3#2) :
    takeDisp mod bs = some (d, t) ↔ d.mod = mod ∧ bs = d.encode ++ t := by
  have hcases : mod = 0#2 ∨ mod = 1#2 ∨ mod = 2#2 := by revert mod; decide
  obtain rfl | rfl | rfl := hcases
  · cases d <;> simp [takeDisp, Disp.mod, Disp.encode, eq_comm]
  · cases d <;> cases bs <;> simp [takeDisp, Disp.mod, Disp.encode]
  · cases d <;> simp [takeDisp, Disp.mod, Disp.encode, Prod.ext_iff, ← takeDisp32_eq_some_iff]

theorem takeDisp_encode (d : Disp) (t : List Byte) : takeDisp d.mod (d.encode ++ t) = some (d, t) :=
  (takeDisp_eq_some_iff d.mod_ne).mpr ⟨rfl, rfl⟩

theorem takeDisp32_disp32Bytes (d : BitVec 32) (t : List Byte) : takeDisp32 (disp32Bytes d ++ t) = some (d, t) :=
  takeDisp32_eq_some_iff.mpr rfl

/-! ## The memory operand -/

/-- `mod` of a memory operand (30_encoding.md R94). -/
def Mem.modField : Mem → BitVec 2
  | .base _ d => d.mod
  | .rip _ => 0#2
  | .sib _ _ _ d => d.mod
  | .sibNoBase _ _ _ => 0#2

/-- The `rm` field of a memory operand (30_encoding.md R94). -/
def Mem.rmField : Mem → BitVec 3
  | .base rm _ => rm
  | .rip _ => 5#3
  | .sib _ _ _ _ => 4#3
  | .sibNoBase _ _ _ => 4#3

/-- The bytes of a memory operand after ModRM. -/
def Mem.tail : Mem → List Byte
  | .base _ d => d.encode
  | .rip d => disp32Bytes d
  | .sib scale index bs d => sibByte scale index bs :: d.encode
  | .sibNoBase scale index d => sibByte scale index 5#3 :: disp32Bytes d

theorem rmBytes_mem (reg : BitVec 3) (m : Mem) :
    rmBytes reg (.mem m) = modRmByte m.modField reg m.rmField :: m.tail := by
  cases m <;> rfl

theorem Mem.modField_ne (m : Mem) : m.modField ≠ 3#2 := by
  cases m with
  | base rm d => exact d.mod_ne
  | sib scale index bs d => exact d.mod_ne
  | rip d => exact (by decide : 0#2 ≠ 3#2)
  | sibNoBase scale index d => exact (by decide : 0#2 ≠ 3#2)

/-- `rm = 100b` announces a SIB byte, and `mod = 00b, rm = 101b` an address relative to pc. -/
theorem Mem.wf_base_iff (rm : BitVec 3) (d : Disp) :
    (Mem.base rm d).wf = true ↔ rm ≠ 4#3 ∧ ¬ (d.mod = 0#2 ∧ rm = 5#3) := by
  simp [Mem.wf, Disp.mod_eq_zero_iff, imp_iff_not_or, or_comm]

/-- `mod = 00b, base = 101b` announces an operand without a base. -/
theorem Mem.wf_sib_iff (scale : BitVec 2) (index bs : BitVec 3) (d : Disp) :
    (Mem.sib scale index bs d).wf = true ↔ ¬ (d.mod = 0#2 ∧ bs = 5#3) := by
  simp [Mem.wf, Disp.mod_eq_zero_iff, imp_iff_not_or, or_comm]

theorem takeMem_tail {m : Mem} (h : m.wf = true) (t : List Byte) :
    takeMem m.modField m.rmField (m.tail ++ t) = some (m, t) := by
  cases m with
  | base rm d =>
    obtain ⟨hsib, hrip⟩ := (Mem.wf_base_iff rm d).mp h
    simp only [takeMem, Mem.modField, Mem.rmField, Mem.tail, if_neg hsib, if_neg hrip, takeDisp_encode,
      Option.map_some]
  | rip d => simp [takeMem, Mem.modField, Mem.rmField, Mem.tail, takeDisp32_disp32Bytes]
  | sib scale index bs d =>
    have hbase := (Mem.wf_sib_iff scale index bs d).mp h
    simp [takeMem, Mem.modField, Mem.rmField, Mem.tail, hbase, takeDisp_encode]
  | sibNoBase scale index d => simp [takeMem, Mem.modField, Mem.rmField, Mem.tail, takeDisp32_disp32Bytes]

theorem takeMem_eq_some {mod : BitVec 2} {rm : BitVec 3} {bs t : List Byte} {m : Mem} (hmod : mod ≠ 3#2)
    (h : takeMem mod rm bs = some (m, t)) :
    m.wf = true ∧ m.modField = mod ∧ m.rmField = rm ∧ bs = m.tail ++ t := by
  unfold takeMem at h
  split at h
  next hrm =>
    subst hrm
    cases bs with
    | nil => cases h
    | cons sib u =>
      dsimp only at h
      split at h
      next hbase =>
        obtain ⟨rfl, hlo⟩ := hbase
        obtain ⟨⟨d, v⟩, hd, he⟩ := Option.map_eq_some_iff.mp h
        cases he
        rw [takeDisp32_eq_some_iff.mp hd]
        refine ⟨rfl, rfl, rfl, ?_⟩
        rw [Mem.tail, ← hlo, sibByte_fields, List.cons_append]
      next hbase =>
        obtain ⟨⟨d, v⟩, hd, he⟩ := Option.map_eq_some_iff.mp h
        cases he
        obtain ⟨rfl, rfl⟩ := (takeDisp_eq_some_iff hmod).mp hd
        refine ⟨(Mem.wf_sib_iff ..).mpr hbase, rfl, rfl, ?_⟩
        rw [Mem.tail, sibByte_fields, List.cons_append]
  next hrm =>
    split at h
    next hrip =>
      obtain ⟨rfl, rfl⟩ := hrip
      obtain ⟨⟨d, v⟩, hd, he⟩ := Option.map_eq_some_iff.mp h
      cases he
      exact ⟨rfl, rfl, rfl, takeDisp32_eq_some_iff.mp hd⟩
    next hrip =>
      obtain ⟨⟨d, v⟩, hd, he⟩ := Option.map_eq_some_iff.mp h
      cases he
      obtain ⟨rfl, rfl⟩ := (takeDisp_eq_some_iff hmod).mp hd
      exact ⟨(Mem.wf_base_iff ..).mpr ⟨hrm, hrip⟩, rfl, rfl, rfl⟩

/-! ## The r/m operand -/

/-- The r/m operand read is the well-formed one whose bytes stand first. -/
theorem takeRm_eq_some_iff {bs t : List Byte} {reg : BitVec 3} {rm : Rm} :
    takeRm bs = some (reg, rm, t) ↔ rm.wf = true ∧ bs = rmBytes reg rm ++ t := by
  constructor
  · intro h
    cases bs with
    | nil => cases h
    | cons b u =>
      rw [takeRm] at h
      split at h
      next hmod =>
        cases h
        refine ⟨rfl, ?_⟩
        rw [rmBytes, ← hmod, modRmByte_fields, List.singleton_append]
      next hmod =>
        obtain ⟨⟨m, v⟩, hm, he⟩ := Option.map_eq_some_iff.mp h
        cases he
        obtain ⟨hwf, hmodField, hrmField, rfl⟩ := takeMem_eq_some hmod hm
        refine ⟨hwf, ?_⟩
        rw [rmBytes_mem, hmodField, hrmField, modRmByte_fields, List.cons_append]
  · rintro ⟨hwf, rfl⟩
    cases rm with
    | reg r => simp [rmBytes, takeRm]
    | mem m => simp [rmBytes_mem, takeRm, m.modField_ne, takeMem_tail hwf]

/-- An operand that was read is read alike whatever follows its bytes. -/
theorem takeRm_append {bs t : List Byte} {reg : BitVec 3} {rm : Rm} (h : takeRm bs = some (reg, rm, t))
    (u : List Byte) : takeRm (bs ++ u) = some (reg, rm, t ++ u) := by
  obtain ⟨hwf, rfl⟩ := takeRm_eq_some_iff.mp h
  exact takeRm_eq_some_iff.mpr ⟨hwf, List.append_assoc ..⟩

end Sys2Proof
end

section
/-! The bytes of an instruction after its prefixes: REX, VEX or EVEX, the opcode and the operand (30_encoding.md R82,
R88, R98 to R109, R120). The decoder reads a body from exactly the bytes that say it, and reads it alike whatever
follows. -/

namespace Sys2Proof

/-! ## REX (R88) -/

@[simp] theorem isRex_byte (r : Rex) : isRex r.byte = true := by
  obtain ⟨w, r, x, b⟩ := r
  revert w r x b; decide

@[simp] theorem rexOf_byte (r : Rex) : rexOf r.byte = r := by
  obtain ⟨w, r, x, b⟩ := r
  revert w r x b; decide

theorem byte_rexOf {b : Byte} (h : isRex b = true) : (rexOf b).byte = b := by
  revert b; decide

theorem ne_escape_of_isRex {b : Byte} (h : isRex b = true) : b ≠ 0x0F#8 := by
  rintro rfl; cases h

/-! ## The payload bytes of VEX and EVEX -/

/-- `W vvvv L pp` with `pp = 01b` and `vvvv` stored inverted: P0 of 2-byte VEX (with R in bit 7), P1 of 3-byte VEX, and
P1 of EVEX (where bit 2 is fixed). -/
def vvvvByte (hi : Bool) (vvvv : BitVec 4) (lo : Bool) : Byte :=
  BitVec.ofBool hi ++ ~~~vvvv ++ BitVec.ofBool lo ++ 1#2

/-- P0 of 3-byte VEX and of EVEX, where the opcode map is 1 and the four bits above it are given. -/
def rxbByte (b7 b6 b5 b4 : Bool) : Byte :=
  BitVec.ofBool b7 ++ BitVec.ofBool b6 ++ BitVec.ofBool b5 ++ BitVec.ofBool b4 ++ 1#4

/-- P2 of EVEX. -/
def maskByte (z : Bool) (ll : BitVec 2) (bcast vHi : Bool) (aaa : BitVec 3) : Byte :=
  BitVec.ofBool z ++ ll ++ BitVec.ofBool bcast ++ BitVec.ofBool vHi ++ aaa

section Payload

variable (hi : Bool) (vvvv : BitVec 4) (lo : Bool)

@[simp] theorem vvvvByte_hi : (vvvvByte hi vvvv lo)[7] = hi := by revert hi vvvv lo; decide
@[simp] theorem vvvvByte_vvvv : (vvvvByte hi vvvv lo).extractLsb' 3 4 = ~~~vvvv := by revert hi vvvv lo; decide
@[simp] theorem vvvvByte_lo : (vvvvByte hi vvvv lo)[2] = lo := by revert hi vvvv lo; decide
@[simp] theorem vvvvByte_pp : (vvvvByte hi vvvv lo).extractLsb' 0 2 = 1#2 := by revert hi vvvv lo; decide

theorem vvvvByte_fields {p : Byte} (h : p.extractLsb' 0 2 = 1#2) :
    vvvvByte p[7] (~~~(p.extractLsb' 3 4)) p[2] = p := by
  revert p; decide

variable (b7 b6 b5 b4 : Bool)

@[simp] theorem rxbByte_7 : (rxbByte b7 b6 b5 b4)[7] = b7 := by revert b7 b6 b5 b4; decide
@[simp] theorem rxbByte_6 : (rxbByte b7 b6 b5 b4)[6] = b6 := by revert b7 b6 b5 b4; decide
@[simp] theorem rxbByte_5 : (rxbByte b7 b6 b5 b4)[5] = b5 := by revert b7 b6 b5 b4; decide
@[simp] theorem rxbByte_4 : (rxbByte b7 b6 b5 b4)[4] = b4 := by revert b7 b6 b5 b4; decide
@[simp] theorem rxbByte_map : (rxbByte b7 b6 b5 b4).extractLsb' 0 4 = 1#4 := by revert b7 b6 b5 b4; decide

theorem rxbByte_fields {p : Byte} (h : p.extractLsb' 0 4 = 1#4) :
    rxbByte p[7] p[6] p[5] p[4] = p := by
  revert p; decide

/-- `mmmmm = 00001b` of VEX: bit 4 is 0 and the four bits below it are 0001b. -/
theorem mmmmm_iff (p : Byte) : p.extractLsb' 0 5 = 1#5 ↔ p[4] = false ∧ p.extractLsb' 0 4 = 1#4 := by
  revert p; decide

/-- `mm = 01b` of EVEX, with the reserved bits 3:2 as R109 requires. -/
theorem mm_iff (p : Byte) : p.extractLsb' 0 4 = 1#4 ↔ p.extractLsb' 0 2 = 1#2 ∧ p.extractLsb' 2 2 = 0#2 := by
  revert p; decide

variable (z : Bool) (ll : BitVec 2) (bcast vHi : Bool) (aaa : BitVec 3)

@[simp] theorem maskByte_z : (maskByte z ll bcast vHi aaa)[7] = z := by revert z ll bcast vHi aaa; decide
@[simp] theorem maskByte_ll : (maskByte z ll bcast vHi aaa).extractLsb' 5 2 = ll := by
  revert z ll bcast vHi aaa; decide
@[simp] theorem maskByte_bcast : (maskByte z ll bcast vHi aaa)[4] = bcast := by
  revert z ll bcast vHi aaa; decide
@[simp] theorem maskByte_vHi : (maskByte z ll bcast vHi aaa)[3] = vHi := by revert z ll bcast vHi aaa; decide
@[simp] theorem maskByte_aaa : (maskByte z ll bcast vHi aaa).extractLsb' 0 3 = aaa := by
  revert z ll bcast vHi aaa; decide

theorem maskByte_fields (p : Byte) :
    maskByte p[7] (p.extractLsb' 5 2) p[4] p[3] (p.extractLsb' 0 3) = p := by
  revert p; decide

end Payload

theorem vex2Head_eq (l : Bool) (v : Vex2) : vex2Head l v = [0xC5#8, vvvvByte (!v.r) v.vvvv l, 0xEF#8] := rfl

theorem vex3Head_eq (l : Bool) (v : Vex3) :
    vex3Head l v = [0xC4#8, rxbByte (!v.r) (!v.x) (!v.b) false, vvvvByte v.w v.vvvv l, 0xEF#8] := by
  have hp0 : ∀ b7 b6 b5 : Bool,
      BitVec.ofBool b7 ++ BitVec.ofBool b6 ++ BitVec.ofBool b5 ++ 1#5 = rxbByte b7 b6 b5 false := by decide
  rw [vex3Head, hp0]
  rfl

theorem evexHead_eq (w : Bool) (ll : BitVec 2) (e : Evex) :
    evexHead w ll e = [0x62#8, rxbByte (!e.r) (!e.x) (!e.b) (!e.rHi), vvvvByte w e.vvvv true,
      maskByte e.z ll e.bcast (!e.vHi) e.aaa, 0xEF#8] := by
  have hp1 : ∀ (w : Bool) (vvvv : BitVec 4), BitVec.ofBool w ++ ~~~vvvv ++ 5#3 = vvvvByte w vvvv true := by decide
  rw [evexHead, hp1]
  rfl

/-! ## The operand after the opcode -/

theorem bodyWithRm_eq_body_iff {k : BitVec 3 → Rm → Body} {bs t : List Byte} {b : Body} :
    bodyWithRm k bs = .body b t ↔ ∃ reg rm, rm.wf = true ∧ b = k reg rm ∧ bs = rmBytes reg rm ++ t := by
  unfold bodyWithRm
  constructor
  · intro h
    split at h
    next => cases h
    next q hq =>
      cases h
      obtain ⟨hwf, hbs⟩ := takeRm_eq_some_iff.mp hq
      exact ⟨_, _, hwf, rfl, hbs⟩
  · rintro ⟨reg, rm, hwf, rfl, rfl⟩
    rw [takeRm_eq_some_iff.mpr ⟨hwf, rfl⟩]

/-- What a parse answers when `u` follows the bytes. -/
def BodyParse.extend (u : List Byte) : BodyParse → BodyParse
  | .body b rest => .body b (rest ++ u)
  | .more => .more
  | .other => .other

/-- A parse that has an answer has the same one whatever follows. -/
def NeedsNoMore (f : List Byte → BodyParse) : Prop :=
  ∀ bs u, f bs ≠ .more → f (bs ++ u) = (f bs).extend u

theorem bodyWithRm_needsNoMore (k : BitVec 3 → Rm → Body) : NeedsNoMore (bodyWithRm k) := by
  intro bs u h
  unfold bodyWithRm at h ⊢
  cases hq : takeRm bs with
  | none => simp [hq] at h
  | some q => simp [takeRm_append hq, BodyParse.extend]

/-- The operand is read only where the bytes before it match a row. -/
theorem guarded_needsNoMore (row : Prop) [Decidable row] (k : BitVec 3 → Rm → Body) :
    NeedsNoMore fun bs => if row then bodyWithRm k bs else .other := by
  intro bs u h
  by_cases hrow : row
  · simp only [if_pos hrow] at h ⊢
    exact bodyWithRm_needsNoMore k bs u h
  · simp only [if_neg hrow]
    rfl

/-! ## The three layouts after their first byte -/

theorem parseLegacy_eq_body_iff {rex : Option Rex} {bs t : List Byte} {b : Body} :
    parseLegacy rex bs = .body b t ↔
      ∃ reg rm, rm.wf = true ∧ b = .legacy rex reg rm ∧ bs = 0xEF#8 :: rmBytes reg rm ++ t := by
  cases bs with
  | nil => simp [parseLegacy]
  | cons op u =>
    rw [parseLegacy]
    split
    next hop => simp [bodyWithRm_eq_body_iff, hop]
    next hop => simp [hop]

theorem parseLegacy_needsNoMore (rex : Option Rex) : NeedsNoMore (parseLegacy rex) := by
  intro bs u h
  cases bs with
  | nil => exact absurd rfl h
  | cons op t => exact guarded_needsNoMore _ _ t u h

theorem vex2Of_vvvvByte (l : Bool) (v : Vex2) : vex2Of (vvvvByte (!v.r) v.vvvv l) = v := by
  simp [vex2Of]

theorem parseVex2_eq_body_iff {bs t : List Byte} {b : Body} :
    parseVex2 bs = .body b t ↔
      ∃ l v reg rm, rm.wf = true ∧ b = .vex2 l v reg rm ∧ 0xC5#8 :: bs = vex2Head l v ++ rmBytes reg rm ++ t := by
  constructor
  · intro h
    unfold parseVex2 at h
    split at h
    next p0 op u =>
      split at h
      next hrow =>
        obtain ⟨rfl, hpp⟩ := hrow
        obtain ⟨reg, rm, hwf, rfl, rfl⟩ := bodyWithRm_eq_body_iff.mp h
        refine ⟨_, _, reg, rm, hwf, rfl, ?_⟩
        simp [vex2Head_eq, vex2Of, vvvvByte_fields hpp]
      next => cases h
    next => cases h
  · rintro ⟨l, v, reg, rm, hwf, rfl, h⟩
    rw [vex2Head_eq] at h
    cases h
    simp [parseVex2, vex2Of_vvvvByte, bodyWithRm_eq_body_iff.mpr ⟨reg, rm, hwf, rfl, rfl⟩]

theorem parseVex2_needsNoMore : NeedsNoMore parseVex2 := by
  intro bs u h
  unfold parseVex2 at h ⊢
  split at h
  next p0 op t => exact guarded_needsNoMore _ _ t u h
  next => exact absurd rfl h

theorem vex3Of_bytes (l : Bool) (v : Vex3) :
    vex3Of (rxbByte (!v.r) (!v.x) (!v.b) false) (vvvvByte v.w v.vvvv l) = v := by
  simp [vex3Of]

theorem parseVex3_eq_body_iff {bs t : List Byte} {b : Body} :
    parseVex3 bs = .body b t ↔
      ∃ l v reg rm, rm.wf = true ∧ b = .vex3 l v reg rm ∧ 0xC4#8 :: bs = vex3Head l v ++ rmBytes reg rm ++ t := by
  constructor
  · intro h
    unfold parseVex3 at h
    split at h
    next p0 p1 op u =>
      split at h
      next hrow =>
        obtain ⟨rfl, hmap, hpp⟩ := hrow
        obtain ⟨h4, hmap⟩ := (mmmmm_iff p0).mp hmap
        obtain ⟨reg, rm, hwf, rfl, rfl⟩ := bodyWithRm_eq_body_iff.mp h
        refine ⟨_, _, reg, rm, hwf, rfl, ?_⟩
        have hp0 : rxbByte p0[7] p0[6] p0[5] false = p0 := h4 ▸ rxbByte_fields hmap
        simp [vex3Head_eq, vex3Of, hp0, vvvvByte_fields hpp]
      next => cases h
    next => cases h
  · rintro ⟨l, v, reg, rm, hwf, rfl, h⟩
    rw [vex3Head_eq] at h
    cases h
    simp [parseVex3, mmmmm_iff, vex3Of_bytes, bodyWithRm_eq_body_iff.mpr ⟨reg, rm, hwf, rfl, rfl⟩]

theorem parseVex3_needsNoMore : NeedsNoMore parseVex3 := by
  intro bs u h
  unfold parseVex3 at h ⊢
  split at h
  next p0 p1 op t => exact guarded_needsNoMore _ _ t u h
  next => exact absurd rfl h

theorem evexOf_bytes (w : Bool) (ll : BitVec 2) (e : Evex) :
    evexOf (rxbByte (!e.r) (!e.x) (!e.b) (!e.rHi)) (vvvvByte w e.vvvv true)
      (maskByte e.z ll e.bcast (!e.vHi) e.aaa) = e := by
  simp [evexOf]

/-- An EVEX payload of the family pattern is read whatever its other bits are. -/
theorem parseEvex_payload {p0 p1 p2 : Byte} (hmm : p0.extractLsb' 0 2 = 1#2) (hpp : p1.extractLsb' 0 2 = 1#2)
    {reg : BitVec 3} {rm : Rm} (hwf : rm.wf = true) (t : List Byte) :
    parseEvex (p0 :: p1 :: p2 :: 0xEF#8 :: rmBytes reg rm ++ t) =
      .body (.evex (evexReservedOk p0 p1) (p1.getLsbD 7) (p2.extractLsb' 5 2) (evexOf p0 p1 p2) reg rm) t := by
  simp [parseEvex, hmm, hpp, bodyWithRm_eq_body_iff.mpr ⟨reg, rm, hwf, rfl, rfl⟩]

theorem evexReservedOk_iff (p0 p1 : Byte) :
    evexReservedOk p0 p1 = true ↔ p0.extractLsb' 2 2 = 0#2 ∧ p1[2] = true := by
  simp [evexReservedOk]

theorem parseEvex_eq_body_iff {bs t : List Byte} {w : Bool} {ll : BitVec 2} {e : Evex} {reg : BitVec 3} {rm : Rm} :
    parseEvex bs = .body (.evex true w ll e reg rm) t ↔
      rm.wf = true ∧ 0x62#8 :: bs = evexHead w ll e ++ rmBytes reg rm ++ t := by
  constructor
  · intro h
    unfold parseEvex at h
    split at h
    next p0 p1 p2 op u =>
      split at h
      next hrow =>
        obtain ⟨rfl, hmm, hpp⟩ := hrow
        obtain ⟨reg', rm', hwf, hb, rfl⟩ := bodyWithRm_eq_body_iff.mp h
        obtain ⟨hok, rfl, rfl, rfl, rfl, rfl⟩ := Body.evex.inj hb
        obtain ⟨hreserved, h2⟩ := (evexReservedOk_iff p0 p1).mp hok.symm
        have hp0 := rxbByte_fields ((mm_iff p0).mpr ⟨hmm, hreserved⟩)
        have hp1 : vvvvByte p1[7] (~~~(p1.extractLsb' 3 4)) true = p1 := h2 ▸ vvvvByte_fields hpp
        simp [evexHead_eq, evexOf, hp0, hp1, maskByte_fields, hwf]
      next => cases h
    next => cases h
  · rintro ⟨hwf, h⟩
    rw [evexHead_eq] at h
    cases h
    obtain ⟨hmm, hreserved⟩ := (mm_iff _).mp (rxbByte_map (!e.r) (!e.x) (!e.b) (!e.rHi))
    have hok : evexReservedOk (rxbByte (!e.r) (!e.x) (!e.b) (!e.rHi)) (vvvvByte w e.vvvv true) = true :=
      (evexReservedOk_iff _ _).mpr ⟨hreserved, vvvvByte_lo ..⟩
    refine (parseEvex_payload hmm (vvvvByte_pp ..) hwf t).trans ?_
    simp [hok, evexOf_bytes]

theorem parseEvex_needsNoMore : NeedsNoMore parseEvex := by
  intro bs u h
  unfold parseEvex at h ⊢
  split at h
  next p0 p1 p2 op t => exact guarded_needsNoMore _ _ t u h
  next => exact absurd rfl h

theorem parseEvex_eq_body {bs t : List Byte} {b : Body} (h : parseEvex bs = .body b t) :
    ∃ ok w ll e reg rm, b = .evex ok w ll e reg rm := by
  unfold parseEvex at h
  split at h
  next =>
    split at h
    next =>
      obtain ⟨reg, rm, _, rfl, _⟩ := bodyWithRm_eq_body_iff.mp h
      exact ⟨_, _, _, _, reg, rm, rfl⟩
    next => cases h
  next => cases h

/-! ## What a body holds -/

/-- The r/m operand of a body. -/
def Body.rm : Body → Rm
  | .legacy _ _ rm => rm
  | .vex2 _ _ _ rm => rm
  | .vex3 _ _ _ rm => rm
  | .evex _ _ _ _ _ rm => rm

/-- The reserved bits of a body are as R109 requires. -/
def Body.reservedOk : Body → Bool
  | .evex ok _ _ _ _ _ => ok
  | _ => true

/-- The bytes that say a body, the reserved bits of EVEX as R109 requires. -/
def Body.bytes : Body → List Byte
  | .legacy rex reg rm => legacyHead rex ++ rmBytes reg rm
  | .vex2 l v reg rm => vex2Head l v ++ rmBytes reg rm
  | .vex3 l v reg rm => vex3Head l v ++ rmBytes reg rm
  | .evex _ w ll e reg rm => evexHead w ll e ++ rmBytes reg rm

theorem parseVexStart_eq_body {c : Byte} {u t : List Byte} {b : Body} (hok : b.reservedOk = true)
    (h : parseVexStart c u = .body b t) : b.rm.wf = true ∧ c :: u = b.bytes ++ t := by
  unfold parseVexStart at h
  split at h
  next hc =>
    obtain ⟨l, v, reg, rm, hwf, rfl, hbs⟩ := parseVex2_eq_body_iff.mp h
    exact ⟨hwf, hc ▸ hbs⟩
  next =>
  split at h
  next hc =>
    obtain ⟨l, v, reg, rm, hwf, rfl, hbs⟩ := parseVex3_eq_body_iff.mp h
    exact ⟨hwf, hc ▸ hbs⟩
  next =>
  split at h
  next hc =>
    obtain ⟨ok, w, ll, e, reg, rm, rfl⟩ := parseEvex_eq_body h
    cases (hok : ok = true)
    obtain ⟨hwf, hbs⟩ := parseEvex_eq_body_iff.mp h
    exact ⟨hwf, hc ▸ hbs⟩
  next => cases h

theorem parseVexStart_needsNoMore (c : Byte) : NeedsNoMore (parseVexStart c) := by
  intro bs u h
  unfold parseVexStart at h ⊢
  split
  next hc => exact parseVex2_needsNoMore bs u (by simpa [hc] using h)
  next h2 =>
  split
  next hc => exact parseVex3_needsNoMore bs u (by simpa [hc] using h)
  next h3 =>
  split
  next hc => exact parseEvex_needsNoMore bs u (by simpa [hc] using h)
  next => rfl

/-! ## The body by its first bytes -/

theorem parseBody_rex_escape {b : Byte} (h : isRex b = true) (t : List Byte) :
    parseBody (b :: 0x0F#8 :: t) = (false, parseLegacy (some (rexOf b)) t) := by
  simp [parseBody, ne_escape_of_isRex h, h]

theorem parseBody_rex_vex {b c : Byte} (h : isRex b = true) (hc : c ≠ 0x0F#8) (t : List Byte) :
    parseBody (b :: c :: t) = (true, parseVexStart c t) := by
  simp [parseBody, ne_escape_of_isRex h, h, hc]

theorem parseBody_vex {b : Byte} (h0 : b ≠ 0x0F#8) (h : isRex b = false) (t : List Byte) :
    parseBody (b :: t) = (false, parseVexStart b t) := by
  simp [parseBody, h0, h]

/-- The body read is the one whose bytes stand first. -/
theorem parseBody_eq_body_iff {bs t : List Byte} {b : Body} (hok : b.reservedOk = true) :
    parseBody bs = (false, .body b t) ↔ b.rm.wf = true ∧ bs = b.bytes ++ t := by
  constructor
  · intro h
    unfold parseBody at h
    split at h
    next => cases h
    next b0 u =>
    split at h
    next h0 =>
      obtain ⟨reg, rm, hwf, rfl, rfl⟩ := parseLegacy_eq_body_iff.mp (Prod.mk.inj h).2
      exact ⟨hwf, by rw [h0]; rfl⟩
    next h0 =>
    split at h
    next hrex =>
      split at h
      next => cases h
      next c v =>
      split at h
      next hc =>
        obtain ⟨reg, rm, hwf, rfl, rfl⟩ := parseLegacy_eq_body_iff.mp (Prod.mk.inj h).2
        exact ⟨hwf, by simp [Body.bytes, legacyHead, byte_rexOf hrex, hc]⟩
      next => cases h
    next => exact parseVexStart_eq_body hok (Prod.mk.inj h).2
  · rintro ⟨hwf, rfl⟩
    cases b with
    | legacy rex reg rm =>
      have hparse : parseLegacy rex (0xEF#8 :: rmBytes reg rm ++ t) = .body (.legacy rex reg rm) t :=
        parseLegacy_eq_body_iff.mpr ⟨reg, rm, hwf, rfl, rfl⟩
      cases rex with
      | none => exact congrArg _ hparse
      | some r =>
        refine (parseBody_rex_escape (isRex_byte r) _).trans ?_
        rw [rexOf_byte]
        exact congrArg _ hparse
    | vex2 l v reg rm => exact congrArg _ (parseVex2_eq_body_iff.mpr ⟨l, v, reg, rm, hwf, rfl, rfl⟩)
    | vex3 l v reg rm => exact congrArg _ (parseVex3_eq_body_iff.mpr ⟨l, v, reg, rm, hwf, rfl, rfl⟩)
    | evex ok w ll e reg rm =>
      cases (hok : ok = true)
      exact congrArg _ (parseEvex_eq_body_iff.mpr ⟨hwf, rfl⟩)

/-- A body that was read is read alike whatever follows its bytes. -/
theorem parseBody_append {bs : List Byte} (h : (parseBody bs).2 ≠ .more) (u : List Byte) :
    parseBody (bs ++ u) = ((parseBody bs).1, (parseBody bs).2.extend u) := by
  cases bs with
  | nil => exact absurd rfl h
  | cons b t =>
    by_cases h0 : b = 0x0F#8
    · subst h0
      exact congrArg _ (parseLegacy_needsNoMore none t u h)
    cases hrex : isRex b with
    | false =>
      rw [parseBody_vex h0 hrex] at h ⊢
      exact (parseBody_vex h0 hrex _).trans (congrArg _ (parseVexStart_needsNoMore b t u h))
    | true =>
      cases t with
      | nil => simp [parseBody, h0, hrex] at h
      | cons c v =>
        by_cases hc : c = 0x0F#8
        · subst hc
          rw [parseBody_rex_escape hrex] at h ⊢
          exact (parseBody_rex_escape hrex _).trans (congrArg _ (parseLegacy_needsNoMore _ v u h))
        · rw [parseBody_rex_vex hrex hc] at h ⊢
          exact (parseBody_rex_vex hrex hc _).trans (congrArg _ (parseVexStart_needsNoMore c v u h))

end Sys2Proof
end

section
/-! The scan of the prefixes (30_encoding.md R83, R88, R126 step (1)): it takes exactly the bytes of R83 and the REX
bytes that one of these or another REX byte follows. -/

namespace Sys2Proof

/-- The first byte is a REX byte. -/
def startsRex (bs : List Byte) : Bool := bs.head?.any isRex

/-- The scan takes nothing of these bytes. -/
def ScanStops (bs : List Byte) : Prop := scanPrefixes bs = some ([], bs)

/-! ## One byte of the scan -/

theorem scanPrefixes_legacy {b : Byte} {p : Prefix} (h : prefixOf b = some p) (rest : List Byte) :
    scanPrefixes (b :: rest) = (scanPrefixes rest).map fun q => (p :: q.1, q.2) := by
  simp [scanPrefixes, h]

theorem scanPrefixes_rexIgnored {b c : Byte} {rest : List Byte} (hp : prefixOf b = none) (hb : isRex b = true)
    (hc : (prefixOf c).isSome = true ∨ isRex c = true) :
    scanPrefixes (b :: c :: rest) =
      (scanPrefixes (c :: rest)).map fun q => (.rexIgnored (b.extractLsb' 0 4) :: q.1, q.2) := by
  rw [scanPrefixes]
  simp [hp, hb, hc]

/-- Where the scan stops: no byte of R83, and no REX byte that is ignored for what follows it (R88). -/
theorem scanStops_cons_iff (b : Byte) (rest : List Byte) :
    ScanStops (b :: rest) ↔
      prefixOf b = none ∧ (isRex b = true → ∃ c ∈ rest.head?, prefixOf c = none ∧ isRex c = false) := by
  unfold ScanStops
  cases hp : prefixOf b with
  | some p =>
    rw [scanPrefixes_legacy hp]
    cases scanPrefixes rest <;> simp
  | none =>
    rw [scanPrefixes]
    cases hb : isRex b with
    | false => simp [hp]
    | true =>
      cases rest with
      | nil => simp [hp]
      | cons c u =>
        cases hc : (prefixOf c).isSome || isRex c with
        | true => cases hs : scanPrefixes (c :: u) <;> simp_all [or_iff_not_imp_left]
        | false => simp_all

theorem not_scanStops_nil : ¬ ScanStops [] := by simp [ScanStops, scanPrefixes]

theorem scanStops_append {bs : List Byte} (h : ScanStops bs) (u : List Byte) : ScanStops (bs ++ u) := by
  cases bs with
  | nil => exact absurd h not_scanStops_nil
  | cons b rest =>
    obtain ⟨hp, hrex⟩ := (scanStops_cons_iff b rest).mp h
    refine (scanStops_cons_iff b (rest ++ u)).mpr ⟨hp, fun hb => ?_⟩
    obtain ⟨c, hc, hstop⟩ := hrex hb
    exact ⟨c, by simp_all, hstop⟩

theorem startsRex_append {bs : List Byte} (h : bs ≠ []) (u : List Byte) : startsRex (bs ++ u) = startsRex bs := by
  cases bs with
  | nil => exact absurd rfl h
  | cons b rest => rfl

/-! ## The prefixes that are taken -/

theorem endsInRex_cons_cons (p q : Prefix) (t : List Prefix) : endsInRex (p :: q :: t) = endsInRex (q :: t) := by
  cases p <;> rfl

@[simp] theorem isRex_rexIgnored (w : BitVec 4) : isRex (Prefix.rexIgnored w).byte = true := by
  revert w; decide

@[simp] theorem rexIgnored_byte_lo (w : BitVec 4) : (Prefix.rexIgnored w).byte.extractLsb' 0 4 = w := by
  revert w; decide

theorem byte_rexIgnored {b : Byte} (h : isRex b = true) : (Prefix.rexIgnored (b.extractLsb' 0 4)).byte = b := by
  revert b; decide

theorem endsInRex_singleton (p : Prefix) : endsInRex [p] = isRex p.byte := by
  cases p with
  | rexIgnored w => exact (isRex_rexIgnored w).symm
  | seg g => cases g <;> rfl
  | _ => rfl

/-- A byte of R83 or a REX byte: a REX byte before it is ignored (R88). -/
theorem prefixOf_byte_or_isRex (p : Prefix) : (prefixOf p.byte).isSome = true ∨ isRex p.byte = true := by
  cases p with
  | rexIgnored w => exact .inr (isRex_rexIgnored w)
  | seg g => exact .inl (by cases g <;> rfl)
  | _ => exact .inl rfl

/-- The scan gives the prefixes whose bytes stand before where it stops. -/
theorem scanPrefixes_preBytes {pre : List Prefix} {rest : List Byte} (hstop : ScanStops rest)
    (hrex : endsInRex pre = true → startsRex rest = true) : scanPrefixes (preBytes pre ++ rest) = some (pre, rest) := by
  induction pre with
  | nil => exact hstop
  | cons p t ih =>
    have hrest : scanPrefixes (preBytes t ++ rest) = some (t, rest) := ih fun ht => hrex (by
      cases t with
      | nil => cases ht
      | cons q t => exact (endsInRex_cons_cons p q t).trans ht)
    have hbytes : preBytes (p :: t) ++ rest = p.byte :: (preBytes t ++ rest) := rfl
    rw [hbytes]
    cases p with
    | rexIgnored w =>
      have hp : prefixOf (Prefix.rexIgnored w).byte = none := Machine.prefixOf_byte (.rexIgnored w)
      obtain ⟨c, u, hc, hnext⟩ : ∃ c u, preBytes t ++ rest = c :: u ∧
          ((prefixOf c).isSome = true ∨ isRex c = true) := by
        cases t with
        | cons q t => exact ⟨_, _, rfl, prefixOf_byte_or_isRex q⟩
        | nil =>
          cases rest with
          | nil => exact absurd hstop not_scanStops_nil
          | cons c u => exact ⟨c, u, rfl, .inr (by simpa [startsRex] using hrex rfl)⟩
      rw [hc] at hrest ⊢
      rw [scanPrefixes_rexIgnored hp (isRex_rexIgnored w) hnext, hrest, rexIgnored_byte_lo]
      rfl
    | _ => rw [scanPrefixes_legacy (Machine.prefixOf_byte _), hrest]; rfl

/-- Bytes where the scan does not stop: what their first byte is, and what the scan goes on with. -/
theorem scanPrefixes_cons_eq_some {b : Byte} {u rest : List Byte} {pre : List Prefix}
    (h : scanPrefixes (b :: u) = some (pre, rest)) (hgo : ¬ ScanStops (b :: u)) :
    ∃ p t, pre = p :: t ∧ p.byte = b ∧ scanPrefixes u = some (t, rest) ∧
      (isRex b = true → ∃ c ∈ u.head?, (prefixOf c).isSome = true ∨ isRex c = true) := by
  cases hp : prefixOf b with
  | some p =>
    rw [scanPrefixes_legacy hp] at h
    obtain ⟨⟨t, r⟩, ht, he⟩ := Option.map_eq_some_iff.mp h
    cases he
    have hb : p.byte = b := Machine.byte_of_prefixOf hp
    refine ⟨p, t, rfl, hb, ht, fun hrex => ?_⟩
    rw [← hb, Machine.prefixOf_byte] at hp
    cases p with
    | rexIgnored w => cases hp
    | seg g => rw [← hb] at hrex; cases g <;> cases hrex
    | _ => rw [← hb] at hrex; cases hrex
  | none =>
    rw [scanStops_cons_iff] at hgo
    cases hb : isRex b with
    | false => simp [hp, hb] at hgo
    | true =>
      cases u with
      | nil => simp [scanPrefixes, hp, hb] at h
      | cons c v =>
        have hc : (prefixOf c).isSome = true ∨ isRex c = true := by
          simpa [hp, hb, Option.isSome_iff_ne_none, or_iff_not_imp_left] using hgo
        rw [scanPrefixes_rexIgnored hp hb hc] at h
        obtain ⟨⟨t, r⟩, ht, he⟩ := Option.map_eq_some_iff.mp h
        cases he
        exact ⟨_, t, rfl, byte_rexIgnored hb, ht, fun _ => ⟨c, rfl, hc⟩⟩

/-- What the scan took are the prefixes whose bytes stand before where it stopped. -/
theorem scanPrefixes_eq_some {bs rest : List Byte} {pre : List Prefix} (h : scanPrefixes bs = some (pre, rest)) :
    bs = preBytes pre ++ rest ∧ ScanStops rest ∧ (endsInRex pre = true → startsRex rest = true) := by
  induction bs generalizing pre with
  | nil => cases h
  | cons b u ih =>
    by_cases hstop : ScanStops (b :: u)
    · cases hstop.symm.trans h
      exact ⟨rfl, hstop, fun hrex => by cases hrex⟩
    · obtain ⟨p, t, rfl, rfl, ht, hnext⟩ := scanPrefixes_cons_eq_some h hstop
      obtain ⟨rfl, hrest, hrex⟩ := ih ht
      refine ⟨rfl, hrest, fun hend => ?_⟩
      cases t with
      | cons q t => exact hrex ((endsInRex_cons_cons p q t).symm.trans hend)
      | nil =>
        obtain ⟨c, hc, hcont⟩ := hnext ((endsInRex_singleton p).symm.trans hend)
        cases rest with
        | nil => cases hc
        | cons c' v =>
          cases hc
          obtain ⟨hp, _⟩ := (scanStops_cons_iff c v).mp hrest
          simpa [startsRex, hp] using hcont

theorem scanPrefixes_append {bs rest : List Byte} {pre : List Prefix} (h : scanPrefixes bs = some (pre, rest))
    (u : List Byte) : scanPrefixes (bs ++ u) = some (pre, rest ++ u) := by
  obtain ⟨rfl, hstop, hrex⟩ := scanPrefixes_eq_some h
  have hne : rest ≠ [] := by
    rintro rfl
    exact not_scanStops_nil hstop
  rw [List.append_assoc]
  exact scanPrefixes_preBytes (scanStops_append hstop u) fun hend => (startsRex_append hne u).trans (hrex hend)

/-! ## A body stops the scan -/

/-- A body begins with a REX byte: that of a legacy form. -/
def Body.hasRex : Body → Bool
  | .legacy rex _ _ => rex.isSome
  | _ => false

theorem startsRex_body (b : Body) (t : List Byte) : startsRex (b.bytes ++ t) = b.hasRex := by
  cases b with
  | legacy rex reg rm =>
    cases rex with
    | none => rfl
    | some r => exact isRex_byte r
  | _ => rfl

theorem prefixOf_of_isRex {b : Byte} (h : isRex b = true) : prefixOf b = none := by
  revert b; decide

theorem scanStops_body (b : Body) (t : List Byte) : ScanStops (b.bytes ++ t) := by
  cases b with
  | legacy rex reg rm =>
    cases rex with
    | none => exact (scanStops_cons_iff _ _).mpr ⟨rfl, fun h => by cases h⟩
    | some r =>
      exact (scanStops_cons_iff _ _).mpr ⟨prefixOf_of_isRex (isRex_byte r), fun _ => ⟨0x0F#8, rfl, rfl, rfl⟩⟩
  | _ => exact (scanStops_cons_iff _ _).mpr ⟨rfl, fun h => by cases h⟩

end Sys2Proof
end

section
/-! The decoder and the encoder are inverse to each other: an instruction is a list of prefixes and a body, the scan and
the parse read those back, and the checks of `finish` are those of `Instr.wf` (30_encoding.md R121, R126). -/

namespace Sys2Proof

/-! ## An instruction as prefixes and a body -/

/-- What stands after the prefixes of an instruction. -/
def Instr.body : Instr → Body
  | .pxorMm _ rex reg rm => .legacy rex reg rm
  | .pxorXmm _ rex reg rm => .legacy rex reg rm
  | .vpxorXmmVex2 _ v reg rm => .vex2 false v reg rm
  | .vpxorXmmVex3 _ v reg rm => .vex3 false v reg rm
  | .vpxorYmmVex2 _ v reg rm => .vex2 true v reg rm
  | .vpxorYmmVex3 _ v reg rm => .vex3 true v reg rm
  | .vpxordXmm _ e reg rm => .evex true false 0#2 e reg rm
  | .vpxordYmm _ e reg rm => .evex true false 1#2 e reg rm
  | .vpxordZmm _ e reg rm => .evex true false 2#2 e reg rm
  | .vpxorqXmm _ e reg rm => .evex true true 0#2 e reg rm
  | .vpxorqYmm _ e reg rm => .evex true true 1#2 e reg rm
  | .vpxorqZmm _ e reg rm => .evex true true 2#2 e reg rm

/-- What selects an instruction among those with its body: 66 a legacy form (30_encoding.md R90), and the checks of
R113 and R114 an EVEX form. -/
def Instr.rowOk : Instr → Bool
  | .pxorMm pre _ _ _ => !pre.contains .opSize
  | .pxorXmm pre _ _ _ => pre.contains .opSize
  | .vpxorXmmVex2 _ _ _ _ => true
  | .vpxorXmmVex3 _ _ _ _ => true
  | .vpxorYmmVex2 _ _ _ _ => true
  | .vpxorYmmVex3 _ _ _ _ => true
  | .vpxordXmm _ e _ rm => e.wf rm
  | .vpxordYmm _ e _ rm => e.wf rm
  | .vpxordZmm _ e _ rm => e.wf rm
  | .vpxorqXmm _ e _ rm => e.wf rm
  | .vpxorqYmm _ e _ rm => e.wf rm
  | .vpxorqZmm _ e _ rm => e.wf rm

theorem encode_eq (i : Instr) : encode i = preBytes i.pre ++ i.body.bytes := by
  cases i <;> exact List.append_assoc ..

@[simp] theorem rm_body (i : Instr) : i.body.rm = i.rm := by cases i <;> rfl

@[simp] theorem reservedOk_body (i : Instr) : i.body.reservedOk = true := by cases i <;> rfl

theorem ilen_eq (i : Instr) : i.ilen = i.pre.length + i.body.len := by
  cases i <;>
    simp only [Instr.ilen, Instr.pre, Instr.body, Body.len, legacyLen, vex2Len, vex3Len, evexLen, List.length_nil] <;>
    omega

theorem toInstr_eq_some_iff {b : Body} {pre : List Prefix} {i : Instr} :
    b.toInstr pre = some i ↔ i.pre = pre ∧ i.body = b ∧ i.rowOk = true := by
  constructor
  · intro h
    cases b with
    | legacy | vex2 | vex3 =>
      rw [Body.toInstr] at h
      split at h <;> cases h <;> simp_all [Instr.pre, Instr.body, Instr.rowOk]
    | evex ok w ll e reg rm =>
      rw [Body.toInstr] at h
      split at h
      next hok =>
        obtain ⟨rfl, hwf⟩ := (Bool.and_eq_true _ _).mp hok
        split at h
        next => cases w <;> cases h <;> simp_all [Instr.pre, Instr.body, Instr.rowOk]
        next =>
        split at h
        next => cases w <;> cases h <;> simp_all [Instr.pre, Instr.body, Instr.rowOk]
        next =>
        split at h
        next => cases w <;> cases h <;> simp_all [Instr.pre, Instr.body, Instr.rowOk]
        next => cases h
      next => cases h
  · rintro ⟨rfl, rfl, hrow⟩
    cases i <;> simp_all [Instr.rowOk, Instr.body, Instr.pre, Body.toInstr]

/-- Well-formedness as the decoder checks it. -/
theorem wf_iff (i : Instr) :
    i.wf = true ↔
      i.rm.wf = true ∧ i.rowOk = true ∧ badPrefix i.pre false i.body = false ∧ segCount i.pre ≤ 1 ∧
      (endsInRex i.pre = true → i.body.hasRex = true) ∧ i.ilen ≤ 15 := by
  cases i <;>
    simp only [Instr.wf, Instr.wfBody, Instr.rm, Instr.rowOk, Instr.pre, Instr.body, badPrefix, legacyPreOk, vexPreOk,
      Body.hasRex, Bool.and_eq_true, Bool.or_eq_true, Bool.or_eq_false_iff, Bool.not_eq_true', Bool.not_eq_false',
      decide_eq_true_eq, beq_iff_eq, imp_iff_not_or, Bool.not_eq_true, Bool.false_eq_true, or_false] <;>
    tauto

/-! ## The checks -/

/-- The length is checked before anything else. -/
theorem finish_of_long {pre : List Prefix} {rexBefore : Bool} {b : Body} (h : 15 < pre.length + b.len) :
    finish pre rexBefore b = .tooLong :=
  if_pos (by omega)

theorem finish_of_short {pre : List Prefix} {b : Body} (h : pre.length + b.len ≤ 15)
    (hbad : badPrefix pre false b = false) {i : Instr} (hi : b.toInstr pre = some i) :
    finish pre false b = if 2 ≤ segCount pre then .segOverrides else .instr i := by
  have hlen : ¬ 15 < pre.length + (if false = true then 1 else 0) + b.len := Nat.not_lt.mpr h
  rw [finish, if_neg hlen, if_neg (Bool.not_eq_true _ ▸ hbad), hi]

theorem finish_eq_instr {pre : List Prefix} {rexBefore : Bool} {b : Body} {i : Instr}
    (h : finish pre rexBefore b = .instr i) :
    pre.length + b.len ≤ 15 ∧ badPrefix pre rexBefore b = false ∧ b.toInstr pre = some i ∧ segCount pre ≤ 1 := by
  by_cases hlen : 15 < pre.length + (if rexBefore then 1 else 0) + b.len
  · rw [finish, if_pos hlen] at h
    cases h
  rw [finish, if_neg hlen] at h
  split at h
  next => cases h
  next hbad =>
  split at h
  next => cases h
  next hi =>
  split at h
  next => cases h
  next hseg =>
    cases h
    exact ⟨by omega, Bool.not_eq_true _ ▸ hbad, hi, by omega⟩

/-- The bytes C5, C4 and 62 begin no legacy form. -/
theorem parseVexStart_ne_legacy {c : Byte} {u t : List Byte} {rex : Option Rex} {reg : BitVec 3} {rm : Rm} :
    parseVexStart c u ≠ .body (.legacy rex reg rm) t := by
  intro h
  unfold parseVexStart at h
  split at h
  next =>
    obtain ⟨_, _, _, _, _, hb, _⟩ := parseVex2_eq_body_iff.mp h
    cases hb
  next =>
  split at h
  next =>
    obtain ⟨_, _, _, _, _, hb, _⟩ := parseVex3_eq_body_iff.mp h
    cases hb
  next =>
  split at h
  next =>
    obtain ⟨_, _, _, _, _, _, hb⟩ := parseEvex_eq_body h
    cases hb
  next => cases h

/-- A REX byte directly before VEX or EVEX is one of the prefixes that raise #UD (R103, R105). -/
theorem badPrefix_of_rexBefore {bs t : List Byte} {b : Body} (h : parseBody bs = (true, .body b t))
    (pre : List Prefix) : badPrefix pre true b = true := by
  have hvex : ∃ c u, parseVexStart c u = .body b t := by
    unfold parseBody at h
    split at h
    next => cases h
    next =>
    split at h
    next => cases h
    next =>
    split at h
    next =>
      split at h
      next => cases h
      next c u =>
      split at h
      next => cases h
      next => exact ⟨c, u, (Prod.mk.inj h).2⟩
    next => cases h
  obtain ⟨c, u, hstart⟩ := hvex
  cases b with
  | legacy rex reg rm => exact absurd hstart parseVexStart_ne_legacy
  | _ => exact Bool.or_true _

/-! ## The decoder by its steps -/

theorem decode_of_body {bs rest t : List Byte} {pre : List Prefix} {rexBefore : Bool} {b : Body}
    (hscan : scanPrefixes bs = some (pre, rest)) (hb : parseBody rest = (rexBefore, .body b t)) :
    decode bs = finish pre rexBefore b := by
  simp only [decode, hscan, hb]

theorem decode_of_other {bs rest : List Byte} {pre : List Prefix} {rexBefore : Bool}
    (hscan : scanPrefixes bs = some (pre, rest)) (hb : parseBody rest = (rexBefore, .other)) :
    decode bs = .notThisSpec := by
  simp only [decode, hscan, hb]

theorem decode_eq_instr {bs : List Byte} {i : Instr} (h : decode bs = .instr i) :
    ∃ pre rest rexBefore b t, scanPrefixes bs = some (pre, rest) ∧ parseBody rest = (rexBefore, .body b t) ∧
      finish pre rexBefore b = .instr i := by
  unfold decode at h
  split at h
  next => cases h
  next q hq =>
    split at h
    next => cases h
    next => cases h
    next rexBefore b t hb => exact ⟨q.1, q.2, rexBefore, b, t, hq, hb, h⟩

/-- The bytes of an instruction whose operand ModRM and SIB can say, whatever its other checks, are read as its
prefixes and its body. -/
theorem decode_encode_append {i : Instr} (hrm : i.rm.wf = true)
    (hrex : endsInRex i.pre = true → i.body.hasRex = true) (t : List Byte) :
    decode (encode i ++ t) = finish i.pre false i.body := by
  rw [encode_eq, List.append_assoc]
  exact decode_of_body
    (scanPrefixes_preBytes (scanStops_body i.body t) fun h => (startsRex_body i.body t).trans (hrex h))
    ((parseBody_eq_body_iff (reservedOk_body i)).mpr ⟨(rm_body i).symm ▸ hrm, rfl⟩)

/-- The decoder answers an instruction exactly where it is well-formed and its encoding stands first. -/
theorem decode_eq_instr_iff {bs : List Byte} {i : Instr} :
    decode bs = .instr i ↔ i.wf = true ∧ ∃ t, bs = encode i ++ t := by
  constructor
  · intro h
    obtain ⟨pre, rest, rexBefore, b, t, hscan, hparse, hfinish⟩ := decode_eq_instr h
    obtain ⟨hlen, hbad, hinstr, hseg⟩ := finish_eq_instr hfinish
    obtain ⟨rfl, rfl, hrow⟩ := toInstr_eq_some_iff.mp hinstr
    cases rexBefore with
    | true =>
      rw [badPrefix_of_rexBefore hparse] at hbad
      cases hbad
    | false =>
      obtain ⟨rfl, _, hrex⟩ := scanPrefixes_eq_some hscan
      obtain ⟨hrm, rfl⟩ := (parseBody_eq_body_iff (reservedOk_body i)).mp hparse
      rw [startsRex_body] at hrex
      exact ⟨(wf_iff i).mpr ⟨rm_body i ▸ hrm, hrow, hbad, hseg, hrex, ilen_eq i ▸ hlen⟩, t,
        by rw [encode_eq, List.append_assoc]⟩
  · rintro ⟨hwf, t, rfl⟩
    obtain ⟨hrm, hrow, hbad, hseg, hrex, hlen⟩ := (wf_iff i).mp hwf
    rw [decode_encode_append hrm hrex,
      finish_of_short (ilen_eq i ▸ hlen) hbad (toInstr_eq_some_iff.mpr ⟨rfl, rfl, hrow⟩), if_neg (by omega)]

/-- Settles O1: one half of `decode_eq_instr_iff`. -/
theorem decodeEncode : Obligations.DecodeEncode :=
  fun _ t hwf => decode_eq_instr_iff.mpr ⟨hwf, t, rfl⟩

/-- Settles O2: the other half, for the bytes. -/
theorem decodeSound : Obligations.DecodeSound :=
  fun _ _ h => (decode_eq_instr_iff.mp h).2

/-- Settles O3: the other half, for the checks. -/
theorem decodedWellFormed : Obligations.DecodedWellFormed :=
  fun _ _ h => (decode_eq_instr_iff.mp h).1

/-- Settles O4: the scan and the parse read the same whatever follows, and the checks do not see the bytes. -/
theorem decodeNeedsNoMore : Obligations.DecodeNeedsNoMore := by
  intro bs t h
  unfold decode at h ⊢
  cases hscan : scanPrefixes bs with
  | none => simp [hscan] at h
  | some q =>
    obtain ⟨pre, rest⟩ := q
    simp only [hscan] at h
    simp only [scanPrefixes_append hscan]
    cases hparse : parseBody rest with
    | mk rexBefore p =>
      cases p with
      | more => simp [hparse] at h
      | _ =>
        rw [parseBody_append (by simp [hparse]), hparse]
        rfl

end Sys2Proof
end

section
/-! The length of an instruction (30_encoding.md R118) and five words of 95_test_vectors.md section 2. -/

namespace Sys2Proof.Machine

theorem encode_length (i : Instr) : (encode i).length = i.ilen := by
  cases i with
  | pxorMm pre rex reg rm => exact Laws.EncodeLength.pxorMm pre rex reg rm
  | pxorXmm pre rex reg rm => exact Laws.EncodeLength.pxorXmm pre rex reg rm
  | vpxorXmmVex2 pre v reg rm => exact Laws.EncodeLength.vpxorXmmVex2 pre v reg rm
  | vpxorXmmVex3 pre v reg rm => exact Laws.EncodeLength.vpxorXmmVex3 pre v reg rm
  | vpxorYmmVex2 pre v reg rm => exact Laws.EncodeLength.vpxorYmmVex2 pre v reg rm
  | vpxorYmmVex3 pre v reg rm => exact Laws.EncodeLength.vpxorYmmVex3 pre v reg rm
  | vpxordXmm pre e reg rm => exact Laws.EncodeLength.vpxordXmm pre e reg rm
  | vpxordYmm pre e reg rm => exact Laws.EncodeLength.vpxordYmm pre e reg rm
  | vpxordZmm pre e reg rm => exact Laws.EncodeLength.vpxordZmm pre e reg rm
  | vpxorqXmm pre e reg rm => exact Laws.EncodeLength.vpxorqXmm pre e reg rm
  | vpxorqYmm pre e reg rm => exact Laws.EncodeLength.vpxorqYmm pre e reg rm
  | vpxorqZmm pre e reg rm => exact Laws.EncodeLength.vpxorqZmm pre e reg rm

theorem tailBytes_eq (rm : Rm) : rm.tailBytes = sibBytes rm + dispBytes rm := by
  cases rm with
  | reg r => rfl
  | mem m =>
    cases m with
    | base rm d => cases d <;> rfl
    | rip d => rfl
    | sib scale index bs d => cases d <;> rfl
    | sibNoBase scale index d => rfl

/-- The sum of R118. -/
theorem ilen_eq_sum (i : Instr) :
    i.ilen = i.pre.length + escBytes i + 1 + 1 + sibBytes i.rm + dispBytes i.rm := by
  cases i <;>
    simp only [Instr.ilen, legacyLen, vex2Len, vex3Len, evexLen, tailBytes_eq, Instr.pre, Instr.rm, escBytes] <;>
    omega

/-- The fewest bytes before the opcode, prefixes among them: one of F1, two of F2 (66 is one of them) and of the VEX
forms, four of the EVEX forms. -/
theorem le_leading_bytes {i : Instr} (hwf : i.wf = true) :
    1 ≤ i.pre.length + escBytes i ∧ (i.form ≠ .f1 → 2 ≤ i.pre.length + escBytes i) ∧
      (i.form.layout = .evex → 4 ≤ i.pre.length + escBytes i) := by
  obtain ⟨_, hrow, _⟩ := (wf_iff i).mp hwf
  cases i with
  | pxorMm pre rex reg rm => cases rex <;> simp [Instr.pre, escBytes, Instr.form, Form.layout]
  | pxorXmm pre rex reg rm =>
    have hpre : 0 < pre.length := List.length_pos_of_mem (List.contains_iff_mem.mp hrow)
    have hesc : 1 ≤ escBytes (.pxorXmm pre rex reg rm) := by cases rex <;> simp [escBytes]
    simp only [Instr.pre, Instr.form, Form.layout, reduceCtorEq, false_implies, and_true]
    omega
  | _ =>
    simp only [escBytes, Instr.form, Form.layout, reduceCtorEq, false_implies, and_true]
    omega

/-- A decoded instruction is encoded by the bytes its length says (R118). -/
theorem encode_eq_take {bs : List Byte} {i : Instr} (h : decode bs = .instr i) : encode i = bs.take i.ilen := by
  obtain ⟨_, t, rfl⟩ := decode_eq_instr_iff.mp h
  exact (List.take_left' (encode_length i)).symm

/-- Settles O5: the sum by the layouts, the bytes walked over by the round trip, the minimum lengths by the bytes before
the opcode. -/
theorem lengthOfInstruction : Obligations.LengthOfInstruction := by
  refine ⟨ilen_eq_sum, fun _ _ => encode_eq_take, fun i hwf => ?_, rfl, rfl, rfl, fun _ => rfl⟩
  obtain ⟨hone, htwo, hfour⟩ := le_leading_bytes hwf
  rw [ilen_eq_sum i]
  refine ⟨fun _ => by omega, fun hform => ?_, fun hlayout => ?_⟩
  · have := htwo hform
    omega
  · have := hfour hlayout
    omega

/-- Settles O6: the decoder evaluates on each word. -/
theorem wordsDecode : Obligations.WordsDecode := by
  refine ⟨?_, ?_, ?_, ?_, ?_⟩ <;> decide

end Sys2Proof.Machine
end

section
/-! What a step does with bytes that stand at pc and that the decoder answers without asking for more: the fetch ends
with that answer (30_encoding.md R126), #GP(0) for more than 15 bytes (R119), and the refusals of R87 and R124. -/

namespace Sys2Proof.Machine

/-! ## The fetch of bytes that are enough -/

/-- Once the decoder has an answer, the fetch has it too. -/
theorem fetchFrom_of_answer {s : State} {bs : List Byte} (h : decode bs ≠ .more) (cs : List Byte) (n : Nat) :
    fetchFrom s (n + 1) bs = fetchFrom s 1 (bs ++ cs) := by
  rw [fetchFrom, fetchFrom, decodeNeedsNoMore bs cs h]
  cases hd : decode bs with
  | more => exact absurd hd h
  | _ => rfl

theorem fetchFrom_of_codeAt {s : State} {bs cs : List Byte} (hcode : CodeAt s (bs ++ cs))
    (hd : decode (bs ++ cs) ≠ .more) {n : Nat} (hn : cs.length ≤ n) :
    fetchFrom s (n + 1) bs = fetchFrom s 1 (bs ++ cs) := by
  induction cs generalizing bs n with
  | nil => exact fetchFrom_of_answer (List.append_nil bs ▸ hd) [] n
  | cons c t ih =>
    by_cases hmore : decode bs = .more
    · obtain ⟨m, rfl⟩ : ∃ m, n = m + 1 := ⟨n - 1, by simp at hn; omega⟩
      obtain ⟨hstop, hread⟩ := hcode bs.length (by simp)
      have hread : s.mem.read (byteAddr s.pc bs.length).toNat = c := by rw [hread]; simp
      have happ : bs ++ c :: t = (bs ++ [c]) ++ t := by simp
      rw [fetchFrom, hmore]
      simp only [hstop, hread]
      rw [happ] at hcode hd ⊢
      exact ih hcode hd (by simpa using hn)
    · exact fetchFrom_of_answer hmore (c :: t) n

/-- Bytes that can all be fetched are fewer than the addresses there are. -/
theorem codeAt_length_lt {s : State} {bs : List Byte} (h : CodeAt s bs) : bs.length < fetchLimit := by
  obtain ⟨k, hk, hstop⟩ := exists_fetchStop s
  by_contra hlt
  exact hstop (h k (by omega)).1

theorem fetchDecode_of_codeAt {s : State} {bs : List Byte} (hcode : CodeAt s bs) (hd : decode bs ≠ .more) :
    fetchDecode s = fetchFrom s 1 bs := by
  have hlt := codeAt_length_lt hcode
  obtain ⟨n, hn⟩ : ∃ n, fetchLimit = n + 1 := ⟨fetchLimit - 1, by omega⟩
  rw [fetchDecode, hn]
  exact fetchFrom_of_codeAt (bs := []) hcode hd (by omega)

section Answers

variable {s : State} {bs : List Byte}

/-- An answer of the decoder that is no instruction ends the step. -/
theorem step_of_fetch_error {st : Stop} (hrun : Running s) (hcode : CodeAt s bs) (hd : decode bs ≠ .more)
    (h : fetchFrom s 1 bs = .error st) : step s = st.outcome := by
  rw [step_of_running hrun, fetchDecode_of_codeAt hcode hd, h]

theorem step_of_tooLong (hrun : Running s) (hcode : CodeAt s bs) (hd : decode bs = .tooLong) :
    step s = .fault (.gp none s.pc) :=
  step_of_fetch_error (st := raise (.gp none) s) hrun hcode (by simp [hd]) (by rw [fetchFrom, hd])

theorem step_of_notThisSpec (hrun : Running s) (hcode : CodeAt s bs) (hd : decode bs = .notThisSpec) :
    step s = .refused .notThisSpec :=
  step_of_fetch_error (st := .refuse .notThisSpec) hrun hcode (by simp [hd]) (by rw [fetchFrom, hd])

theorem step_of_segOverrides (hrun : Running s) (hcode : CodeAt s bs) (hd : decode bs = .segOverrides) :
    step s = .refused .segOverrides :=
  step_of_fetch_error (st := .refuse .segOverrides) hrun hcode (by simp [hd]) (by rw [fetchFrom, hd])

end Answers

/-! ## A REX byte that ends the prefixes and is not ignored -/

theorem endsInRex_eq_true {pre : List Prefix} (h : endsInRex pre = true) : ∃ q w, pre = q ++ [.rexIgnored w] := by
  induction pre with
  | nil => cases h
  | cons p t ih =>
    cases t with
    | nil =>
      cases p with
      | rexIgnored w => exact ⟨[], w, rfl⟩
      | _ => cases h
    | cons p' t =>
      obtain ⟨q, w, hq⟩ := ih ((endsInRex_cons_cons p p' t).symm.trans h)
      exact ⟨p :: q, w, by rw [hq]; rfl⟩

/-- Where the bytes after the prefixes begin with no REX byte, a REX byte that ends the prefixes belongs to them. -/
theorem scanPrefixes_lastRex {q : List Prefix} {w : BitVec 4} {rest : List Byte} (hstop : ScanStops rest)
    (hno : startsRex rest = false) :
    scanPrefixes (preBytes (q ++ [.rexIgnored w]) ++ rest) = some (q, (Prefix.rexIgnored w).byte :: rest) := by
  have hbytes : preBytes (q ++ [.rexIgnored w]) ++ rest = preBytes q ++ (Prefix.rexIgnored w).byte :: rest := by
    simp [preBytes]
  rw [hbytes]
  refine scanPrefixes_preBytes ((scanStops_cons_iff _ _).mpr ⟨prefixOf_byte _, fun _ => ?_⟩)
    fun _ => isRex_rexIgnored w
  cases rest with
  | nil => exact absurd hstop not_scanStops_nil
  | cons c u => exact ⟨c, rfl, ((scanStops_cons_iff c u).mp hstop).1, hno⟩

/-! ## More than 15 bytes -/

theorem legacyHead_lastRex (q : List Prefix) (w : BitVec 4) :
    preBytes (q ++ [.rexIgnored w]) ++ legacyHead none =
      preBytes q ++ legacyHead (some (rexOf (Prefix.rexIgnored w).byte)) := by
  simp [preBytes, legacyHead, byte_rexOf (isRex_rexIgnored w)]

/-- The bytes of an instruction are those of one whose prefixes end in a REX byte only before another REX byte: the REX
byte at the end of a legacy form's prefixes is the form's own. -/
theorem exists_encode_eq {i : Instr} (hrex : i.form.layout ≠ .legacy → endsInRex i.pre = false) :
    ∃ j, encode j = encode i ∧ j.rm = i.rm ∧ (endsInRex j.pre = true → j.body.hasRex = true) := by
  by_cases hends : endsInRex i.pre = true → i.body.hasRex = true
  · exact ⟨i, rfl, rfl, hends⟩
  obtain ⟨hend, hno⟩ : endsInRex i.pre = true ∧ i.body.hasRex = false := by simpa using hends
  obtain ⟨q, w, hpre⟩ := endsInRex_eq_true hend
  cases i with
  | pxorMm pre rex reg rm =>
    obtain rfl : rex = none := Option.isNone_iff_eq_none.mp (by simpa [Instr.body, Body.hasRex] using hno)
    obtain rfl : pre = q ++ [Prefix.rexIgnored w] := hpre
    exact ⟨.pxorMm q (some (rexOf (Prefix.rexIgnored w).byte)) reg rm,
      by rw [encode, encode, legacyHead_lastRex], rfl, fun _ => rfl⟩
  | pxorXmm pre rex reg rm =>
    obtain rfl : rex = none := Option.isNone_iff_eq_none.mp (by simpa [Instr.body, Body.hasRex] using hno)
    obtain rfl : pre = q ++ [Prefix.rexIgnored w] := hpre
    exact ⟨.pxorXmm q (some (rexOf (Prefix.rexIgnored w).byte)) reg rm,
      by rw [encode, encode, legacyHead_lastRex], rfl, fun _ => rfl⟩
  | _ =>
    rw [hrex (by simp [Instr.form, Form.layout])] at hend
    cases hend

/-- An instruction of more than 15 bytes, whatever its prefixes but a REX byte directly before VEX or EVEX. -/
theorem decode_of_long {i : Instr} (hrm : i.rm.wf = true) (hlong : 15 < i.ilen)
    (hrex : i.form.layout ≠ .legacy → endsInRex i.pre = false) : decode (encode i) = .tooLong := by
  obtain ⟨j, henc, hjrm, hjrex⟩ := exists_encode_eq hrex
  rw [← encode_length, ← henc, encode_length, ilen_eq] at hlong
  rw [← henc, ← List.append_nil (encode j), decode_encode_append (hjrm ▸ hrm) hjrex]
  exact finish_of_long hlong

/-- An EVEX payload of the family pattern in more than 15 bytes, whatever its other bits. -/
theorem decode_of_long_payload {pre : List Prefix} {p0 p1 p2 : Byte} {reg : BitVec 3} {rm : Rm} (hrm : rm.wf = true)
    (hlong : 15 < evexLen pre rm) (hend : endsInRex pre = false) (hmm : p0.extractLsb' 0 2 = 1#2)
    (hpp : p1.extractLsb' 0 2 = 1#2) :
    decode (preBytes pre ++ [0x62#8, p0, p1, p2, 0xEF#8] ++ rmBytes reg rm) = .tooLong := by
  have hstop : ScanStops ([0x62#8, p0, p1, p2, 0xEF#8] ++ rmBytes reg rm) :=
    (scanStops_cons_iff _ _).mpr ⟨rfl, fun h => by cases h⟩
  have hparse := parseEvex_payload (p2 := p2) hmm hpp hrm (reg := reg) []
  rw [List.append_nil] at hparse
  rw [List.append_assoc, decode_of_body
    (scanPrefixes_preBytes hstop fun h => by rw [hend] at h; cases h) (congrArg _ hparse)]
  refine finish_of_long ?_
  simp only [Body.len, evexLen, List.length_nil] at hlong ⊢
  omega

/-- Settles O7: both kinds of bytes are too long for the decoder, which the fetch answers with #GP(0). -/
theorem tooLongRaisesGp : Obligations.TooLongRaisesGp := by
  constructor
  · intro s i hrun hrm _ hlong hrex hcode
    exact ⟨step_of_tooLong hrun hcode (decode_of_long hrm hlong hrex), rfl, rfl⟩
  · intro s pre p0 p1 p2 reg rm hrun hrm _ hlong hend hcode hmm hpp
    exact step_of_tooLong hrun hcode (decode_of_long_payload hrm hlong hend hmm hpp)

/-! ## Bytes of no row -/

theorem mask2_eq_one (p : Byte) : (p &&& 0x03#8 == 0x01#8) = (p.extractLsb' 0 2 == 1#2) := by
  revert p; decide

theorem mask5_eq_one (p : Byte) : (p &&& 0x1F#8 == 0x01#8) = (p.extractLsb' 0 5 == 1#5) := by
  revert p; decide

theorem parseLegacy_of_not_matchesRow {op : Byte} {t : List Byte} (h : matchesRow (0x0F#8 :: op :: t) = false)
    (rex : Option Rex) : parseLegacy rex (op :: t) = .other := by
  by_cases hop : op = 0xEF#8
  · subst hop; cases h
  · simp [parseLegacy, hop]

/-- Five bytes or more that match no row are no VEX and no EVEX form. -/
theorem parseVexStart_of_not_matchesRow {c : Byte} {t : List Byte} (hlen : 4 ≤ t.length)
    (h : matchesRow (c :: t) = false) : parseVexStart c t = .other := by
  obtain ⟨p0, p1, p2, op, u, rfl⟩ : ∃ p0 p1 p2 op u, t = p0 :: p1 :: p2 :: op :: u := by
    match t, hlen with
    | p0 :: p1 :: p2 :: op :: u, _ => exact ⟨p0, p1, p2, op, u, rfl⟩
  unfold parseVexStart
  split
  next hc =>
    subst hc
    refine if_neg fun ⟨hop, hpp⟩ => ?_
    subst hop
    have hrow : (p0 &&& 0x03#8 == 0x01#8) = false := h
    simp [mask2_eq_one, hpp] at hrow
  next =>
  split
  next hc =>
    subst hc
    refine if_neg fun ⟨hop, hmap, hpp⟩ => ?_
    subst hop
    have hrow : (p0 &&& 0x1F#8 == 0x01#8 && p1 &&& 0x03#8 == 0x01#8) = false := h
    simp [mask2_eq_one, mask5_eq_one, hmap, hpp] at hrow
  next =>
  split
  next hc =>
    subst hc
    refine if_neg fun ⟨hop, hmm, hpp⟩ => ?_
    subst hop
    have hrow : (p0 &&& 0x03#8 == 0x01#8 && p1 &&& 0x03#8 == 0x01#8) = false := h
    simp [mask2_eq_one, hmm, hpp] at hrow
  next => rfl

/-- With or without a REX byte first, five bytes or more that match no row are read as none. -/
theorem parseBody_of_not_matchesRow {bs : List Byte} (hlen : 5 ≤ (dropRex bs).length)
    (h : matchesRow (dropRex bs) = false) : ∃ rexBefore, parseBody bs = (rexBefore, .other) := by
  cases bs with
  | nil => simp [dropRex] at hlen
  | cons b t =>
    cases hrex : isRex b with
    | false =>
      simp only [dropRex, hrex, Bool.false_eq_true, if_false, List.length_cons] at hlen h
      by_cases h0 : b = 0x0F#8
      · subst h0
        cases t with
        | nil => simp at hlen
        | cons op u => exact ⟨false, congrArg _ (parseLegacy_of_not_matchesRow h none)⟩
      · exact ⟨false, (parseBody_vex h0 hrex t).trans
          (congrArg _ (parseVexStart_of_not_matchesRow (by omega) h))⟩
    | true =>
      simp only [dropRex, hrex, if_true] at hlen h
      cases t with
      | nil => simp at hlen
      | cons c u =>
        rw [List.length_cons] at hlen
        by_cases h0 : c = 0x0F#8
        · subst h0
          cases u with
          | nil => simp at hlen
          | cons op v =>
            exact ⟨false, (parseBody_rex_escape hrex _).trans (congrArg _ (parseLegacy_of_not_matchesRow h _))⟩
        · exact ⟨true, (parseBody_rex_vex hrex h0 u).trans
            (congrArg _ (parseVexStart_of_not_matchesRow (by omega) h))⟩

theorem scanStops_of_scanStopsAt {bs : List Byte} (h : scanStopsAt bs = true) : ScanStops bs := by
  unfold scanStopsAt at h
  split at h
  next b c t =>
    simp only [Bool.and_eq_true, Option.isNone_iff_eq_none, Bool.not_eq_true', Bool.and_eq_false_iff,
      Bool.or_eq_false_iff, Option.isSome_eq_false_iff] at h
    obtain ⟨hb, hc⟩ := h
    exact (scanStops_cons_iff b (c :: t)).mpr ⟨hb, fun hrex => ⟨c, rfl, by simpa [hrex] using hc⟩⟩
  next => cases h

theorem length_le_dropRex (bs : List Byte) : bs.length ≤ (dropRex bs).length + 1 := by
  cases bs with
  | nil => exact Nat.zero_le _
  | cons b t =>
    rw [dropRex]
    split
    · exact Nat.le_refl _
    · exact Nat.le_succ _

/-- Six bytes or more after the prefixes that match no row. -/
theorem decode_of_not_matchesRow {pre : List Prefix} {bs : List Byte} (hlen : 6 ≤ bs.length) (hstop : ScanStops bs)
    (h : matchesRow (dropRex bs) = false) : decode (preBytes pre ++ bs) = .notThisSpec := by
  by_cases hends : endsInRex pre = true → startsRex bs = true
  · have hdrop := length_le_dropRex bs
    obtain ⟨rexBefore, hparse⟩ := parseBody_of_not_matchesRow (by omega) h
    exact decode_of_other (scanPrefixes_preBytes hstop hends) hparse
  · obtain ⟨hend, hno⟩ : endsInRex pre = true ∧ startsRex bs = false := by simpa using hends
    obtain ⟨q, w, rfl⟩ := endsInRex_eq_true hend
    have hdrop : dropRex bs = bs := by
      cases bs with
      | nil => rfl
      | cons b t => exact if_neg (Bool.not_eq_true _ ▸ hno)
    have hrex : dropRex ((Prefix.rexIgnored w).byte :: bs) = bs := if_pos (isRex_rexIgnored w)
    obtain ⟨rexBefore, hparse⟩ := parseBody_of_not_matchesRow (bs := (Prefix.rexIgnored w).byte :: bs)
      (by rw [hrex]; omega) (by rw [hrex, ← hdrop]; exact h)
    exact decode_of_other (scanPrefixes_lastRex hstop hno) hparse

/-- Settles O9: the decoder answers that the bytes are none of the ten forms, which the fetch refuses. -/
theorem unmatchedBytesRefused : Obligations.UnmatchedBytesRefused :=
  fun _ _ _ hrun hlen hcode hstop h =>
    step_of_notThisSpec hrun hcode (decode_of_not_matchesRow hlen (scanStops_of_scanStopsAt hstop) h)

/-! ## One more byte among the prefixes -/

section AddPrefix

variable (p : Prefix) (i : Instr)

@[simp] theorem pre_addPrefix : (addPrefix p i).pre = p :: i.pre := by cases i <;> rfl
@[simp] theorem body_addPrefix : (addPrefix p i).body = i.body := by cases i <;> rfl
@[simp] theorem rm_addPrefix : (addPrefix p i).rm = i.rm := by cases i <;> rfl

theorem ilen_addPrefix : (addPrefix p i).ilen = i.ilen + 1 := by
  rw [ilen_eq, ilen_eq, pre_addPrefix, body_addPrefix, List.length_cons]
  omega

theorem encode_addPrefix : encode (addPrefix p i) = p.byte :: encode i := by
  rw [encode_eq, encode_eq, pre_addPrefix, body_addPrefix]
  rfl

end AddPrefix

theorem badPrefix_seg (g : Seg) (pre : List Prefix) (b : Body) :
    badPrefix (.seg g :: pre) false b = badPrefix pre false b := by
  cases b <;> simp [badPrefix, noLockRep]

theorem rowOk_addPrefix_seg (g : Seg) (i : Instr) : (addPrefix (.seg g) i).rowOk = i.rowOk := by
  cases i <;> simp [addPrefix, Instr.rowOk]

/-- Every check of the decoder before the segment overrides is as it was, but for one more byte. -/
theorem decode_addPrefix_seg {i : Instr} (hwf : i.wf = true) (hcount : segCount i.pre = 1) (hlen : i.ilen ≤ 14)
    (g : Seg) : decode (encode (addPrefix (.seg g) i)) = .segOverrides := by
  obtain ⟨hrm, hrow, hbad, _, hrex, _⟩ := (wf_iff i).mp hwf
  have hlen' : (addPrefix (.seg g) i).ilen ≤ 15 := by rw [ilen_addPrefix]; omega
  have htwo : 2 ≤ segCount (addPrefix (.seg g) i).pre := by rw [pre_addPrefix, segCount, hcount]
  calc decode (encode (addPrefix (.seg g) i))
      = finish (addPrefix (.seg g) i).pre false (addPrefix (.seg g) i).body := by
        rw [← List.append_nil (encode _)]
        exact decode_encode_append (by rwa [rm_addPrefix]) (by rwa [pre_addPrefix, body_addPrefix]) []
    _ = .segOverrides := by
        rw [finish_of_short (ilen_eq _ ▸ hlen') (by rw [pre_addPrefix, body_addPrefix, badPrefix_seg, hbad])
          (toInstr_eq_some_iff.mpr ⟨rfl, rfl, (rowOk_addPrefix_seg g i).trans hrow⟩), if_pos htwo]

/-- Settles O10: the bytes are those of the instruction with one more override, which the fetch refuses. -/
theorem twoSegmentOverridesRefused : Obligations.TwoSegmentOverridesRefused := by
  intro s i g hrun hwf hcount hlen hcode
  rw [← encode_addPrefix] at hcode
  exact step_of_segOverrides hrun hcode (decode_addPrefix_seg hwf hcount hlen g)

end Sys2Proof.Machine
end

section
/-! Encodings with the same effect (30_encoding.md R87, R102, R104; 20_memory.md R57): two instructions of one form that
read the same source and write the same have the same outcome, but for pc where their lengths differ. -/

namespace Sys2Proof.Machine

/-- The outcome with pc put back. -/
def withoutAdvance (s : State) : Host.Outcome State Fault Refusal → Host.Outcome State Fault Refusal :=
  mapNext fun t => { t with pc := s.pc }

theorem complete_withoutAdvance {s : State} {len len' : Nat} (h : NextPcOk s len) (h' : NextPcOk s len') (t : State) :
    withoutAdvance s (complete len s t) = withoutAdvance s (complete len' s t) := by
  rw [complete_eq, complete_eq, if_pos ((nextPcOk_iff s len).mpr h), if_pos ((nextPcOk_iff s len').mpr h')]
  rfl

/-- Where two instructions of one form differ in no more than their lengths, their outcomes differ in no more than the
advance of pc, faults and refusals included. -/
theorem exec_withoutAdvance {i j : Instr} {s : State} (hform : j.form = i.form)
    (hsrc : sourceOf j s = sourceOf i s) (hwrite : writeOf j = writeOf i) (hi : NextPcOk s i.ilen)
    (hj : NextPcOk s j.ilen) : withoutAdvance s (exec j s) = withoutAdvance s (exec i s) := by
  rw [exec_eq_execute, exec_eq_execute, hform, hwrite]
  unfold execute
  rw [hsrc]
  cases formStop i.form s with
  | some st => rfl
  | none =>
    cases sourceOf i s with
    | error st => rfl
    | ok v => exact complete_withoutAdvance hj hi _

/-! ## The linear address does not depend on the length -/

/-- Only an operand relative to pc depends on where the instruction ends (20_memory.md R54). -/
theorem linAddr_congr_len {m : Mem} (hrip : ∀ d, m ≠ .rip d) (s : State) (pre : List Prefix) (x b : Bool)
    (n len len' : Nat) : linAddr s pre x b n len m = linAddr s pre x b n len' m := by
  cases m with
  | rip d => exact absurd rfl (hrip d)
  | _ => rfl

/-! ## 3-byte VEX with X = B = 0 -/

section Vex

variable (ymm : Bool) (pre : List Prefix) (v2 : Vex2) (v3 : Vex3) (reg : BitVec 3) (rm : Rm)

theorem ilen_vex2Instr : (vex2Instr ymm pre v2 reg rm).ilen = vex2Len pre rm := by cases ymm <;> rfl
theorem ilen_vex3Instr : (vex3Instr ymm pre v3 reg rm).ilen = vex3Len pre rm := by cases ymm <;> rfl
theorem form_vex3Instr : (vex3Instr ymm pre v3 reg rm).form = (vex2Instr ymm pre v2 reg rm).form := by
  cases ymm <;> rfl

end Vex

/-- The second source of a VEX form sees of the payload X and B only, and the length only relative to pc. -/
theorem vexSource_congr {v w : Vex3} {rm : Rm} (hx : w.x = v.x) (hb : w.b = v.b) (hrip : ∀ d, rm ≠ .mem (.rip d))
    (f : Form) (vl : VLen) (pre : List Prefix) (len len' : Nat) (s : State) :
    vexSource f vl pre w rm len' s = vexSource f vl pre v rm len s := by
  unfold vexSource
  rw [hx, hb]
  cases rm with
  | reg r => rfl
  | mem m => simp only [linAddr_congr_len (m := m) (fun d h => hrip d (h ▸ rfl)) s pre v.x v.b 1 len' len]

/-- Settles O11: the two encodings are one form with the same source and the same write. -/
theorem vex3WithoutXBIsVex2 : Obligations.Vex3WithoutXBIsVex2 := by
  intro s ymm pre v w reg rm hrip h2 h3
  refine exec_withoutAdvance (form_vex3Instr ..) ?source ?write (ilen_vex2Instr .. ▸ h2) (ilen_vex3Instr .. ▸ h3)
  case source => cases ymm <;> exact vexSource_congr rfl rfl hrip ..
  case write => cases ymm <;> rfl

/-! ## Prefixes without effect -/

section AddPrefix

variable (p : Prefix) (i : Instr)

@[simp] theorem form_addPrefix : (addPrefix p i).form = i.form := by cases i <;> rfl
@[simp] theorem extX_addPrefix : extX (addPrefix p i) = extX i := by cases i <;> rfl
@[simp] theorem extB_addPrefix : extB (addPrefix p i) = extB i := by cases i <;> rfl
@[simp] theorem dispScale_addPrefix : dispScale (addPrefix p i) = dispScale i := by cases i <;> rfl
@[simp] theorem operandBytes_addPrefix : operandBytes (addPrefix p i) = operandBytes i := by cases i <;> rfl
@[simp] theorem writeOf_addPrefix : writeOf (addPrefix p i) = writeOf i := by cases i <;> rfl

@[simp] theorem operandActive_addPrefix (s : State) : operandActive s (addPrefix p i) = operandActive s i := by
  cases i <;> rfl

/-- A register source sees none of the prefixes. -/
theorem sourceOf_addPrefix_reg {r : BitVec 3} (h : i.rm = .reg r) (s : State) :
    sourceOf (addPrefix p i) s = sourceOf i s := by
  cases i <;> (simp only [Instr.rm] at h; subst h; rfl)

end AddPrefix

/-- The override bytes of the segments whose base is not added (20_memory.md R57). -/
def FlatOverride (p : Prefix) : Prop := p ∈ [Prefix.seg .cs, .seg .ds, .seg .es, .seg .ss]

theorem segOverride_eq_none {pre : List Prefix} (h : segCount pre = 0) : segOverride pre = none := by
  rw [Option.eq_none_iff_forall_ne_some]
  intro g hg
  have := segCount_pos (segOverride_mem hg)
  omega

section FlatOverride

variable {p : Prefix} {pre : List Prefix} (hp : FlatOverride p)
include hp

theorem addrSize32_flatOverride : addrSize32 (p :: pre) = addrSize32 pre := by
  simp only [FlatOverride, List.mem_cons, List.not_mem_nil, or_false] at hp
  rcases hp with rfl | rfl | rfl | rfl <;> rfl

theorem segBase_flatOverride (h : segCount pre = 0) (s : State) : segBase s (p :: pre) = segBase s pre := by
  simp only [FlatOverride, List.mem_cons, List.not_mem_nil, or_false] at hp
  rcases hp with rfl | rfl | rfl | rfl <;> simp [segBase, segOverride, segOverride_eq_none h]

theorem stackClass_flatOverride (h : segCount pre = 0) (b : Bool) (m : Mem) :
    stackClass (p :: pre) b m = stackClass pre b m := by
  simp only [FlatOverride, List.mem_cons, List.not_mem_nil, or_false] at hp
  rcases hp with rfl | rfl | rfl | rfl <;> simp [stackClass, segOverride, segOverride_eq_none h]

/-- An ignored override, the only one, is not seen by an operand that is not relative to pc. -/
theorem sourceOf_addPrefix_flatOverride {i : Instr} (h : segCount i.pre = 0) (hrip : ∀ d, i.rm ≠ .mem (.rip d))
    (s : State) : sourceOf (addPrefix p i) s = sourceOf i s := by
  cases hrm : i.rm with
  | reg r => exact sourceOf_addPrefix_reg p i hrm s
  | mem m =>
    have hm : ∀ d, m ≠ .rip d := fun d hd => hrip d (hd ▸ hrm)
    have haddr : operandAddr s (addPrefix p i) m = operandAddr s i m := by
      simp only [operandAddr, pre_addPrefix, extX_addPrefix, extB_addPrefix, dispScale_addPrefix,
        linAddr_congr_len hm s _ _ _ _ (addPrefix p i).ilen i.ilen]
      simp only [linAddr, segBase_flatOverride hp h, addrSize32_flatOverride hp]
    have hstack : operandStack (addPrefix p i) m = operandStack i m := by
      simp only [operandStack, pre_addPrefix, extB_addPrefix, stackClass_flatOverride hp h]
    rw [sourceOf_mem hrm, sourceOf_mem ((rm_addPrefix p i).trans hrm), haddr, hstack, form_addPrefix,
      operandBytes_addPrefix, operandActive_addPrefix]

end FlatOverride

/-- Settles O42: the source does not see the added byte, and the write sees none of the prefixes. -/
theorem prefixesWithoutEffect : Obligations.PrefixesWithoutEffect := by
  intro s i p hp hnext hnext'
  have hsrc : sourceOf (addPrefix p i) s = sourceOf i s := by
    obtain ⟨_, r, hr⟩ | ⟨hflat, hcount, hrip⟩ := hp
    · exact sourceOf_addPrefix_reg p i hr s
    · exact sourceOf_addPrefix_flatOverride hflat hcount hrip s
  exact ⟨exec_withoutAdvance (form_addPrefix p i) hsrc (writeOf_addPrefix p i) hnext (ilen_addPrefix p i ▸ hnext'),
    ilen_addPrefix p i⟩

end Sys2Proof.Machine
end

section
/-! The legacy forms F1 and F2 (40_pxor_legacy.md R130 to R133): their results from a register and from memory, and what
follows from the XOR of equal values: a register against itself gives zero, in every form, and the same XOR twice gives
the destination back. -/

namespace Sys2Proof.Machine

/-! ## A completed instruction, its second source known -/

theorem exec_eq_next_of_source {i : Instr} {s : State} {v : VecWord} (henabled : Enabled i.form s)
    (hnext : NextPcOk s i.ilen) (hsrc : sourceOf i s = .ok v) :
    exec i s = .next { writeOf i s v with pc := byteAddr s.pc i.ilen } :=
  exec_eq_next_iff.mpr ⟨henabled, hnext, v, hsrc, rfl⟩

/-- The second source that is read decides the next state. -/
theorem eq_of_exec_eq_next {i : Instr} {s t : State} {v : VecWord} (hsrc : sourceOf i s = .ok v)
    (h : exec i s = .next t) : t = { writeOf i s v with pc := byteAddr s.pc i.ilen } := by
  obtain ⟨_, _, w, hw, ht⟩ := exec_eq_next_iff.mp h
  obtain rfl : v = w := Except.ok.inj (hsrc.symm.trans hw)
  exact ht

/-! ## The second source of a register form -/

section RegisterSource

variable (ymm : Bool) (e : ElemSize) (vl : VLen) (pre : List Prefix) (rex : Option Rex) (v2 : Vex2) (v3 : Vex3)
  (ev : Evex) (reg r : BitVec 3) (s : State)

theorem sourceOf_pxorMm_reg : sourceOf (.pxorMm pre rex reg (.reg r)) s = .ok ((mmAt s r).setWidth 512) := rfl

theorem sourceOf_pxorXmm_reg :
    sourceOf (.pxorXmm pre rex reg (.reg r)) s = .ok (vecAt s (lowVec (regNum4 (rexB rex) r))) := rfl

theorem sourceOf_vex3Instr_reg :
    sourceOf (vex3Instr ymm pre v3 reg (.reg r)) s = .ok (vecAt s (lowVec (regNum4 v3.b r))) := by
  cases ymm <;> rfl

theorem sourceOf_vex2Instr_reg :
    sourceOf (vex2Instr ymm pre v2 reg (.reg r)) s = .ok (vecAt s (lowVec (regNum4 false r))) := by
  cases ymm <;> rfl

theorem sourceOf_evexInstr_reg :
    sourceOf (evexInstr e vl pre ev reg (.reg r)) s = .ok (vecAt s (regNum5 ev.x ev.b r)) := by
  cases e <;> cases vl <;> rfl

end RegisterSource

/-! ## The write of a VEX form -/

/-- VL of a VEX row. -/
def vexVLen (ymm : Bool) : VLen := if ymm then .v256 else .v128

section VexWrite

variable (ymm : Bool) (pre : List Prefix) (v2 : Vex2) (v3 : Vex3) (reg : BitVec 3) (rm : Rm)

theorem writeOf_vex3Instr : writeOf (vex3Instr ymm pre v3 reg rm) = vexWrite (vexVLen ymm) v3 reg := by
  cases ymm <;> rfl

theorem writeOf_vex2Instr : writeOf (vex2Instr ymm pre v2 reg rm) = vexWrite (vexVLen ymm) (vex2As3 v2) reg := by
  cases ymm <;> rfl

end VexWrite

/-! ## `replaceLow128` and `lowBits` -/

section Halves

variable (old new v : VecWord)

@[simp] theorem replaceLow128_low : (replaceLow128 old new).extractLsb' 0 128 = new.extractLsb' 0 128 :=
  BitVec.extractLsb'_append_eq_right

@[simp] theorem replaceLow128_high : (replaceLow128 old new).extractLsb' 128 384 = old.extractLsb' 128 384 :=
  BitVec.extractLsb'_append_eq_left

@[simp] theorem replaceLow128_self : replaceLow128 v v = v := by
  calc replaceLow128 v v
      = v.extractLsb' 0 (384 + 128) := BitVec.extractLsb'_append_extractLsb'_eq_extractLsb' rfl
    _ = v := BitVec.extractLsb'_eq_self

/-- Only the high part of the first vector and the low part of the second count. -/
theorem replaceLow128_congr {old old' new new' : VecWord}
    (hhigh : old.extractLsb' 128 384 = old'.extractLsb' 128 384)
    (hlow : new.extractLsb' 0 128 = new'.extractLsb' 0 128) : replaceLow128 old new = replaceLow128 old' new' := by
  simp only [replaceLow128, hhigh, hlow]

/-- XOR with the same value a second time gives the old vector back (R132). -/
theorem replaceLow128_xor_twice :
    replaceLow128 (replaceLow128 old (old ^^^ v)) (replaceLow128 old (old ^^^ v) ^^^ v) = old := by
  have hlow : (replaceLow128 old (old ^^^ v) ^^^ v).extractLsb' 0 128 = old.extractLsb' 0 128 := by
    rw [BitVec.extractLsb'_xor, replaceLow128_low, ← BitVec.extractLsb'_xor, BitVec.xor_assoc, BitVec.xor_self,
      BitVec.xor_zero]
  calc replaceLow128 (replaceLow128 old (old ^^^ v)) (replaceLow128 old (old ^^^ v) ^^^ v)
      = replaceLow128 old old := replaceLow128_congr (replaceLow128_high ..) hlow
    _ = old := replaceLow128_self old

@[simp] theorem lowBits_zero (vl : VLen) : lowBits vl 0#512 = 0#512 := by
  simp [lowBits]

end Halves

/-! ## Writing one register twice -/

theorem vec_set_set_vecAt (s : State) (d : BitVec 5) (v : VecWord) :
    (s.vec.set d.toFin v).set d.toFin (vecAt s d) = s.vec := by
  rw [Vector.set_set]
  exact Vector.set_getElem_self d.toFin.isLt

theorem mm_set_set_mmAt (s : State) (d : BitVec 3) (v : Quad) :
    (s.mm.set d.toFin v).set d.toFin (mmAt s d) = s.mm := by
  rw [Vector.set_set]
  exact Vector.set_getElem_self d.toFin.isLt

theorem lowVec_inj {a b : BitVec 4} : lowVec a = lowVec b ↔ a = b :=
  BitVec.append_right_inj 0#1

/-! ## F1 (R130) -/

theorem writeOf_pxorMm_setWidth {n : Nat} (v : BitVec n) (s : State) (pre : List Prefix) (rex : Option Rex)
    (d : BitVec 3) (rm : Rm) :
    writeOf (.pxorMm pre rex d rm) s (v.setWidth 512) = setMm s d (mmAt s d ^^^ v.setWidth 64) := by
  simp only [writeOf, BitVec.setWidth_setWidth_of_le v (show 64 ≤ 512 by decide)]

/-- F1 on a second source of any width that is read. -/
theorem exec_pxorMm_of_source {n : Nat} {s : State} {pre : List Prefix} {rex : Option Rex} {d : BitVec 3} {rm : Rm}
    {v : BitVec n} (henabled : Enabled .f1 s) (hnext : NextPcOk s (Instr.pxorMm pre rex d rm).ilen)
    (hsrc : sourceOf (.pxorMm pre rex d rm) s = .ok (v.setWidth 512)) :
    exec (.pxorMm pre rex d rm) s =
      .next { setMm s d (mmAt s d ^^^ v.setWidth 64) with
        pc := byteAddr s.pc (Instr.pxorMm pre rex d rm).ilen } := by
  rw [exec_eq_next_of_source (i := .pxorMm pre rex d rm) henabled hnext hsrc, writeOf_pxorMm_setWidth]

/-- All that F1 does with a register source. -/
theorem eq_of_exec_pxorMm_reg {s t : State} {pre : List Prefix} {rex : Option Rex} {d r : BitVec 3}
    (h : exec (.pxorMm pre rex d (.reg r)) s = .next t) :
    t = { setMm s d (mmAt s d ^^^ mmAt s r) with pc := byteAddr s.pc (legacyLen pre rex (.reg r)) } := by
  rw [eq_of_exec_eq_next (sourceOf_pxorMm_reg pre rex d r s) h, writeOf_pxorMm_setWidth, BitVec.setWidth_eq]
  rfl

/-- Settles O27: the source is an MMX register, read whole. -/
theorem pxorMmRegister : Obligations.PxorMmRegister := by
  intro s pre rex d r i _ henabled hnext
  have hexec := exec_pxorMm_of_source henabled hnext (sourceOf_pxorMm_reg pre rex d r s)
  rw [BitVec.setWidth_eq] at hexec
  exact hexec

/-- Settles O28: the source is the readable operand, and an operand of F1 need be aligned only under alignment
checking. -/
theorem pxorMmMemory : Obligations.PxorMmMemory := by
  intro s pre rex d m i la _ henabled hnext hread halign
  have hok : AlignOk s i m := by
    rintro (hcheck | hf2)
    · exact halign hcheck
    · cases hf2
  exact exec_pxorMm_of_source henabled hnext (sourceOf_mem_of_readable rfl hread hok)

/-! ## F2 (R131) -/

/-- F2 on a second source of at least 128 bits that is read. -/
theorem exec_pxorXmm_of_source {n : Nat} {s : State} {pre : List Prefix} {rex : Option Rex} {reg : BitVec 3} {rm : Rm}
    {v : BitVec n} (henabled : Enabled .f2 s) (hnext : NextPcOk s (Instr.pxorXmm pre rex reg rm).ilen)
    (hsrc : sourceOf (.pxorXmm pre rex reg rm) s = .ok (v.setWidth 512)) :
    let d := lowVec (regNum4 (rexR rex) reg)
    ∃ w : VecWord,
      exec (.pxorXmm pre rex reg rm) s =
        .next { setVec s d w with pc := byteAddr s.pc (Instr.pxorXmm pre rex reg rm).ilen } ∧
      w.extractLsb' 0 128 = (vecAt s d).extractLsb' 0 128 ^^^ v.setWidth 128 ∧
      w.extractLsb' 128 384 = (vecAt s d).extractLsb' 128 384 := by
  refine ⟨_, exec_eq_next_of_source henabled hnext hsrc, ?low, replaceLow128_high ..⟩
  rw [replaceLow128_low, BitVec.extractLsb'_xor, ← BitVec.setWidth_eq_extractLsb' (x := v.setWidth 512) (by decide),
    BitVec.setWidth_setWidth_of_le v (by decide)]

/-- All that F2 does with a register source. -/
theorem eq_of_exec_pxorXmm_reg {s t : State} {pre : List Prefix} {rex : Option Rex} {reg r : BitVec 3}
    (h : exec (.pxorXmm pre rex reg (.reg r)) s = .next t) :
    let d := lowVec (regNum4 (rexR rex) reg)
    t = { setVec s d (replaceLow128 (vecAt s d) (vecAt s d ^^^ vecAt s (lowVec (regNum4 (rexB rex) r)))) with
      pc := byteAddr s.pc (legacyLen pre rex (.reg r)) } :=
  eq_of_exec_eq_next (sourceOf_pxorXmm_reg pre rex reg r s) h

/-- Settles O29: the source is a vector register, of which the low 128 bits count. -/
theorem pxorXmmRegister : Obligations.PxorXmmRegister := by
  intro s pre rex reg r i d _ henabled hnext
  have hsrc := sourceOf_pxorXmm_reg pre rex reg r s
  rw [← BitVec.setWidth_eq (vecAt s (lowVec (regNum4 (rexB rex) r)))] at hsrc
  rw [← BitVec.setWidth_eq_extractLsb' (x := vecAt s (lowVec (regNum4 (rexB rex) r))) (by decide)]
  exact exec_pxorXmm_of_source henabled hnext hsrc

/-- Settles O30: the source is the readable operand, which is aligned to its 16 bytes. -/
theorem pxorXmmMemory : Obligations.PxorXmmMemory := by
  intro s pre rex reg m i d la _ henabled hnext hread halign
  exact exec_pxorXmm_of_source henabled hnext (sourceOf_mem_of_readable rfl hread fun _ => halign)

/-! ## One register as both sources (R133) -/

theorem vecAt_vexWrite_self (s : State) (vl : VLen) (v : Vex3) (reg : BitVec 3) :
    vecAt (vexWrite vl v reg s (vecAt s (lowVec v.vvvv))) (lowVec (regNum4 v.r reg)) = 0#512 := by
  rw [vexWrite, vecAt_setVec_same, BitVec.xor_self, lowBits_zero]

/-- An active element of a vector against itself is 0, and a masked-off one is zeroed or kept. -/
theorem elemAt_maskedXor_self (e : ElemSize) (vl : VLen) (active : Nat → Bool) (z : Bool) (old v : VecWord) {j : Nat}
    (hj : j < elemCount e vl) :
    elemAt e (maskedXor e vl active z old v (elemAt e v)) j =
      if active j = true ∨ z = true then 0 else elemAt e old j := by
  rw [elemAt_maskedXor e vl active z old v _ j hj, BitVec.xor_self]
  cases active j <;> cases z <;> rfl

/-- Settles O35: form by form, the write of a register against itself. -/
theorem sameRegisterGivesZero : Obligations.SameRegisterGivesZero := by
  refine ⟨fun s t pre rex d h => ?f1, fun s t pre rex reg r hr h => ?f2, fun s t ymm pre v reg r hr h => ?vex3,
    fun s t ymm pre v reg r hr h => ?vex2, fun s t e vl pre ev reg r hr h => ?evex⟩
  case f1 =>
    rw [eq_of_exec_pxorMm_reg h, mmAt_withPc, mmAt_setMm_same, BitVec.xor_self]
  case f2 =>
    rw [eq_of_exec_pxorXmm_reg h, vecAt_withPc, vecAt_setVec_same, ← hr, BitVec.xor_self, replaceLow128,
      BitVec.extractLsb'_zero]
  case vex3 =>
    rw [eq_of_exec_eq_next (sourceOf_vex3Instr_reg ..) h, vecAt_withPc, writeOf_vex3Instr, ← hr, vecAt_vexWrite_self]
  case vex2 =>
    rw [eq_of_exec_eq_next (sourceOf_vex2Instr_reg ..) h, vecAt_withPc, writeOf_vex2Instr, ← hr]
    exact vecAt_vexWrite_self s (vexVLen ymm) (vex2As3 v) reg
  case evex =>
    rw [eq_of_exec_eq_next (sourceOf_evexInstr_reg ..) h, vecAt_withPc, writeOf_evexInstr, evexWrite,
      vecAt_setVec_same, ← hr]
    refine ⟨fun j hj => ?_, maskedXor_shift ..⟩
    simp only [← elemActive_iff]
    exact elemAt_maskedXor_self e vl _ ev.z _ _ hj

/-! ## The same XOR twice (R132) -/

/-- Settles O40: the second run reads the source that the first one read, since the first wrote another register. -/
theorem xorTwiceRestores : Obligations.XorTwiceRestores := by
  refine ⟨fun s t u pre rex d r hr hst htu => ?mm, fun s t u pre rex reg r hr hst htu => ?xmm⟩
  case mm =>
    have ht := eq_of_exec_pxorMm_reg hst
    have hsrc : mmAt t r = mmAt s r := by rw [ht, mmAt_withPc, mmAt_setMm, if_neg hr]
    have hdst : mmAt t d = mmAt s d ^^^ mmAt s r := by rw [ht, mmAt_withPc, mmAt_setMm_same]
    calc u.mm
        = t.mm.set d.toFin (mmAt t d ^^^ mmAt t r) := congrArg State.mm (eq_of_exec_pxorMm_reg htu)
      _ = t.mm.set d.toFin (mmAt s d) := by rw [hdst, hsrc, BitVec.xor_assoc, BitVec.xor_self, BitVec.xor_zero]
      _ = (s.mm.set d.toFin (mmAt s d ^^^ mmAt s r)).set d.toFin (mmAt s d) := by rw [ht]; rfl
      _ = s.mm := mm_set_set_mmAt s d _
  case xmm =>
    have ht := eq_of_exec_pxorXmm_reg hst
    have hu := eq_of_exec_pxorXmm_reg htu
    have hne := mt lowVec_inj.mp hr
    generalize lowVec (regNum4 (rexR rex) reg) = d at ht hu hne
    generalize lowVec (regNum4 (rexB rex) r) = b at ht hu hne
    have hsrc : vecAt t b = vecAt s b := by rw [ht, vecAt_withPc, vecAt_setVec_ne _ _ hne]
    have hdst : vecAt t d = replaceLow128 (vecAt s d) (vecAt s d ^^^ vecAt s b) := by
      rw [ht, vecAt_withPc, vecAt_setVec_same]
    calc u.vec
        = t.vec.set d.toFin (replaceLow128 (vecAt t d) (vecAt t d ^^^ vecAt t b)) := congrArg State.vec hu
      _ = t.vec.set d.toFin (vecAt s d) := by rw [hdst, hsrc, replaceLow128_xor_twice]
      _ = (s.vec.set d.toFin (replaceLow128 (vecAt s d) (vecAt s d ^^^ vecAt s b))).set d.toFin (vecAt s d) := by
        rw [ht]; rfl
      _ = s.vec := vec_set_set_vecAt s d _

end Sys2Proof.Machine
end

section
/-! The VEX forms F3 and F4 (41_vpxor_vex.md R140 to R142): their results from a register and from memory, with a
2-byte and a 3-byte VEX payload, and what sets `VPXOR xmm` apart from `PXOR xmm`: the upper bits of the destination and
the alignment of the operand. -/

namespace Sys2Proof.Machine

/-! ## The four VEX rows as one, by vector length -/

/-- The instruction `i` is a VEX row of the form `vexForm ymm`, `v` the payload it amounts to: the 2-byte prefix has the
meaning of the 3-byte one with X = B = 0 (30_encoding.md R104). -/
structure VexRow (ymm : Bool) (v : Vex3) (reg : BitVec 3) (rm : Rm) (i : Instr) : Prop where
  form_eq : i.form = vexForm ymm
  rm_eq : i.rm = rm
  writeOf_eq : writeOf i = vexWrite (vexVLen ymm) v reg
  operandBytes_eq : operandBytes i = vexBits ymm / 8
  sourceOf_reg (s : State) (r : BitVec 3) : rm = .reg r → sourceOf i s = .ok (vecAt s (lowVec (regNum4 v.b r)))

theorem vexRow_vex3Instr (ymm : Bool) (pre : List Prefix) (v : Vex3) (reg : BitVec 3) (rm : Rm) :
    VexRow ymm v reg rm (vex3Instr ymm pre v reg rm) where
  form_eq := by cases ymm <;> rfl
  rm_eq := by cases ymm <;> rfl
  writeOf_eq := writeOf_vex3Instr ..
  operandBytes_eq := by cases ymm <;> rfl
  sourceOf_reg := by
    rintro s r rfl
    exact sourceOf_vex3Instr_reg ..

theorem vexRow_vex2Instr (ymm : Bool) (pre : List Prefix) (v : Vex2) (reg : BitVec 3) (rm : Rm) :
    VexRow ymm (vex2As3 v) reg rm (vex2Instr ymm pre v reg rm) where
  form_eq := by cases ymm <;> rfl
  rm_eq := by cases ymm <;> rfl
  writeOf_eq := writeOf_vex2Instr ..
  operandBytes_eq := by cases ymm <;> rfl
  sourceOf_reg := by
    rintro s r rfl
    exact sourceOf_vex2Instr_reg ..

/-! ## The low VL bits -/

theorem bits_vexVLen (ymm : Bool) : (vexVLen ymm).bits = vexBits ymm := by cases ymm <;> rfl

theorem vexBits_le (ymm : Bool) : vexBits ymm ≤ 512 := by cases ymm <;> decide

theorem lowBits_vexVLen (ymm : Bool) (v : VecWord) :
    lowBits (vexVLen ymm) v = (v.setWidth (vexBits ymm)).setWidth 512 := by
  rw [lowBits, bits_vexVLen, BitVec.setWidth_eq_extractLsb' (vexBits_le ymm)]

theorem lowBits_v128_low (v : VecWord) : (lowBits .v128 v).extractLsb' 0 128 = v.extractLsb' 0 128 := by
  rw [lowBits, ← BitVec.setWidth_eq_extractLsb' (x := BitVec.setWidth 512 _) (by decide)]
  exact BitVec.setWidth_setWidth_of_le _ (by decide)

theorem lowBits_v128_high (v : VecWord) : (lowBits .v128 v).extractLsb' 128 384 = 0#384 := by
  ext j hj
  simp [lowBits, VLen.bits]

/-! ## F3 and F4 (R140, R141) -/

section VexForms

variable {ymm : Bool} {v : Vex3} {reg : BitVec 3} {rm : Rm} {i : Instr} {s : State}

/-- An enabled VEX row whose second source is read. -/
theorem VexRow.exec_of_source (hrow : VexRow ymm v reg rm i) (henabled : Enabled (vexForm ymm) s)
    (hnext : NextPcOk s i.ilen) {src2 : VecWord} (hsrc : sourceOf i s = .ok src2) :
    exec i s = .next { setVec s (lowVec (regNum4 v.r reg))
        (((vecAt s (lowVec v.vvvv) ^^^ src2).setWidth (vexBits ymm)).setWidth 512) with
      pc := byteAddr s.pc i.ilen } := by
  rw [exec_eq_next_of_source (hrow.form_eq ▸ henabled) hnext hsrc, hrow.writeOf_eq, vexWrite, lowBits_vexVLen]

/-- The memory operand of a VEX row that is readable, and aligned where alignment checking asks for it. -/
theorem VexRow.sourceOf_mem {m : Mem} (hrow : VexRow ymm v reg (.mem m) i)
    (hread : Readable s (operandAddr s i m) (vexBits ymm / 8))
    (halign : alignCheck s = true → (operandAddr s i m).toNat % (vexBits ymm / 8) = 0) :
    sourceOf i s = .ok ((readLE s.mem (operandAddr s i m) (vexBits ymm / 8)).setWidth 512) := by
  have hnotF2 : i.form ≠ .f2 := by
    rw [hrow.form_eq]
    cases ymm <;> decide
  rw [← hrow.operandBytes_eq] at hread halign ⊢
  exact sourceOf_mem_of_readable hrow.rm_eq hread fun h => halign (h.resolve_right hnotF2)

/-- An enabled VEX row with a register source. -/
theorem VexRow.exec_reg {r : BitVec 3} (hrow : VexRow ymm v reg (.reg r) i) (henabled : Enabled (vexForm ymm) s)
    (hnext : NextPcOk s i.ilen) :
    exec i s = .next { setVec s (lowVec (regNum4 v.r reg))
        (((vecAt s (lowVec v.vvvv) ^^^ vecAt s (lowVec (regNum4 v.b r))).setWidth (vexBits ymm)).setWidth 512) with
      pc := byteAddr s.pc i.ilen } :=
  hrow.exec_of_source henabled hnext (hrow.sourceOf_reg s r rfl)

/-- An enabled VEX row with a memory source: of the operand, zero-extended as it is read, the low VL bits are all. -/
theorem VexRow.exec_mem {m : Mem} (hrow : VexRow ymm v reg (.mem m) i) (henabled : Enabled (vexForm ymm) s)
    (hnext : NextPcOk s i.ilen) (hread : Readable s (operandAddr s i m) (vexBits ymm / 8))
    (halign : alignCheck s = true → (operandAddr s i m).toNat % (vexBits ymm / 8) = 0) :
    exec i s = .next { setVec s (lowVec (regNum4 v.r reg))
        (((vecAt s (lowVec v.vvvv)).setWidth (vexBits ymm) ^^^
          (readLE s.mem (operandAddr s i m) (vexBits ymm / 8)).setWidth (vexBits ymm)).setWidth 512) with
      pc := byteAddr s.pc i.ilen } := by
  rw [hrow.exec_of_source henabled hnext (hrow.sourceOf_mem hread halign), BitVec.setWidth_xor,
    BitVec.setWidth_setWidth_of_le _ (vexBits_le ymm)]

end VexForms

/-- Settles O31: the source is a vector register, of which the low VL bits count. -/
theorem vpxorRegister : Obligations.VpxorRegister := by
  intro s ymm pre reg r henabled
  constructor
  · intro v i _ hnext
    exact (vexRow_vex3Instr ymm pre v reg (.reg r)).exec_reg henabled hnext
  · intro v i _ hnext
    exact (vexRow_vex2Instr ymm pre v reg (.reg r)).exec_reg henabled hnext

/-- Settles O32: the source is the readable operand, and an operand of F3 or F4 need be aligned only under alignment
checking. -/
theorem vpxorMemory : Obligations.VpxorMemory := by
  intro s ymm pre reg m henabled
  constructor
  · intro v i n la _ hnext hread halign
    exact (vexRow_vex3Instr ymm pre v reg (.mem m)).exec_mem henabled hnext hread halign
  · intro v i n la _ hnext hread halign
    exact (vexRow_vex2Instr ymm pre v reg (.mem m)).exec_mem henabled hnext hread halign

/-! ## F2 against F3 (R142) -/

theorem operandStop_of_misalignedStop {f : Form} {s : State} {la : Quad} {n : Nat} {ss : Bool} {act : Nat → Bool}
    {st : Stop} (hc : canonicalStop s la n ss act = none) (hm : misalignedStop f s la = some st) :
    operandStop f s la n ss act = some st := by
  simp only [operandStop, hc, hm]

/-- An operand of F2 that is canonical and not aligned to 16 bytes gives #GP(0) (20_memory.md R59). -/
theorem exec_pxorXmm_of_misaligned {s : State} {pre : List Prefix} {rex : Option Rex} {reg : BitVec 3} {m : Mem}
    (henabled : Enabled .f2 s)
    (hcanonical : ∀ j, j < 16 → byteCanonical s (operandAddr s (.pxorXmm pre rex reg (.mem m)) m) j = true)
    (hmis : (operandAddr s (.pxorXmm pre rex reg (.mem m)) m).toNat % 16 ≠ 0) :
    exec (.pxorXmm pre rex reg (.mem m)) s =
      .fault (.gp (some (operandAddr s (.pxorXmm pre rex reg (.mem m)) m)) s.pc) := by
  refine exec_of_operandStop (i := .pxorXmm pre rex reg (.mem m)) (st := .fault _) rfl henabled
    (operandStop_of_misalignedStop ?canonical ?misaligned)
  case canonical => exact canonicalStop_eq_none_iff.mpr fun j hj _ => hcanonical j hj
  case misaligned => exact if_pos ⟨rfl, hmis⟩

/-- All that F3 with the 3-byte prefix does with a register source. -/
theorem eq_of_exec_vpxorXmmVex3_reg {s t : State} {pre : List Prefix} {v : Vex3} {reg r : BitVec 3}
    (h : exec (.vpxorXmmVex3 pre v reg (.reg r)) s = .next t) :
    t = { setVec s (lowVec (regNum4 v.r reg))
        (lowBits .v128 (vecAt s (lowVec v.vvvv) ^^^ vecAt s (lowVec (regNum4 v.b r)))) with
      pc := byteAddr s.pc (vex3Len pre (.reg r)) } :=
  eq_of_exec_eq_next (sourceOf_vex3Instr_reg false pre v reg r s) h

/-- Settles O39: both write the same XOR into the same register, the first by `replaceLow128` and the second by
`lowBits`, and only F2 checks the alignment of its operand at every time. -/
theorem legacyAgainstVex : Obligations.LegacyAgainstVex := by
  refine ⟨?results, ?misaligned, ?completes⟩
  case results =>
    intro s t u pre rex pre' v reg r reg' r' hdst hsrc1 hsrc2 ht hu
    rw [eq_of_exec_pxorXmm_reg ht, eq_of_exec_vpxorXmmVex3_reg hu, hdst, hsrc1, hsrc2]
    simp only [vecAt_withPc, vecAt_setVec_same]
    exact ⟨(replaceLow128_low ..).trans (lowBits_v128_low _).symm, replaceLow128_high .., lowBits_v128_high _⟩
  case misaligned =>
    intro s pre rex reg m i henabled hcanonical hmis
    exact ⟨_, exec_pxorXmm_of_misaligned henabled hcanonical hmis⟩
  case completes =>
    intro s pre v reg m i henabled hnext halign hread
    have hoff : alignCheck s = true → (operandAddr s i m).toNat % 16 = 0 := by
      simp only [halign, Bool.false_eq_true, false_implies]
    exact ⟨_, (vexRow_vex3Instr false pre v reg (.mem m)).exec_mem henabled hnext hread hoff⟩

end Sys2Proof.Machine
end

section
/-! The EVEX forms F5 to F10 (42_vpxord_vpxorq_evex.md R150, R151, R158, R159): the element loop on a register, a full
and a broadcast operand, and its two extremes, in which every element or no element is computed. -/

namespace Sys2Proof.Machine

/-! ## The element loop (R150, R151) -/

/-- An enabled EVEX instruction whose second source is read, element by element. -/
theorem exec_evexInstr_elements {e : ElemSize} {vl : VLen} {pre : List Prefix} {ev : Evex} {reg : BitVec 3} {rm : Rm}
    {s : State} {v : VecWord} (henabled : Enabled (evexForm e vl) s)
    (hnext : NextPcOk s (evexInstr e vl pre ev reg rm).ilen)
    (hsrc : sourceOf (evexInstr e vl pre ev reg rm) s = .ok v) :
    ∃ w : VecWord,
      exec (evexInstr e vl pre ev reg rm) s =
        .next { setVec s (regNum5 ev.rHi ev.r reg) w with
          pc := byteAddr s.pc (evexInstr e vl pre ev reg rm).ilen } ∧
      (∀ j, j < elemCount e vl →
        elemAt e w j =
          if ev.aaa = 0#3 ∨ (kAt s ev.aaa).getLsbD j = true then
            elemAt e (vecAt s (BitVec.ofBool ev.vHi ++ ev.vvvv)) j ^^^ srcElem e ev rm v j
          else if ev.z then 0
          else elemAt e (vecAt s (regNum5 ev.rHi ev.r reg)) j) ∧
      w >>> vl.bits = 0#512 := by
  refine ⟨_, exec_evexInstr_eq_next henabled hnext hsrc, fun j hj => ?_, maskedXor_shift ..⟩
  simp only [evexResult, elemAt_maskedXor _ _ _ _ _ _ _ j hj, elemActive_iff]

/-- The memory operand of an EVEX row that is readable, and aligned where alignment checking asks for it. -/
theorem sourceOf_evexInstr_mem {e : ElemSize} {vl : VLen} {pre : List Prefix} {ev : Evex} {reg : BitVec 3} {m : Mem}
    {s : State} (hread : Readable s (operandAddr s (evexInstr e vl pre ev reg (.mem m)) m)
      (operandBytes (evexInstr e vl pre ev reg (.mem m))))
    (halign : alignCheck s = true → (operandAddr s (evexInstr e vl pre ev reg (.mem m)) m).toNat %
      operandBytes (evexInstr e vl pre ev reg (.mem m)) = 0) :
    sourceOf (evexInstr e vl pre ev reg (.mem m)) s =
      .ok ((readLE s.mem (operandAddr s (evexInstr e vl pre ev reg (.mem m)) m) (evexBytes e vl ev.bcast)).setWidth
        512) := by
  have hf2 : (evexInstr e vl pre ev reg (.mem m)).form ≠ .f2 := form_evexInstr .. ▸ evexForm_ne_f2 e vl
  rw [← operandBytes_evexInstr e vl pre ev reg (.mem m)]
  exact sourceOf_mem_of_readable (rm_evexInstr ..) hread fun h => halign (h.resolve_right hf2)

/-- Settles O33: the source is a vector register or the readable operand, and the element loop runs on its elements. -/
theorem evexElementLoop : Obligations.EvexElementLoop := by
  intro s e vl pre ev reg rm i d s1 e2 _ henabled hnext hmem
  cases rm with
  | reg r => exact exec_evexInstr_elements henabled hnext (sourceOf_evexInstr_reg ..)
  | mem m =>
    obtain ⟨hread, halign⟩ := hmem m rfl
    obtain ⟨w, hexec, helems, hshift⟩ :=
      exec_evexInstr_elements henabled hnext (sourceOf_evexInstr_mem hread halign)
    refine ⟨w, hexec, fun j hj => ?_, hshift⟩
    rw [helems j hj, srcElem_mem_readLE _ _ _ _ _ _ hj]

/-! ## The element loop where every element, or no element, is computed -/

section ElementLoop

variable {e : ElemSize} {vl : VLen} {active : Nat → Bool}

theorem vlenBits_le (vl : VLen) : vl.bits ≤ 512 := by cases vl <;> decide

theorem elemCount_pos (e : ElemSize) (vl : VLen) : 0 < elemCount e vl := by cases e <;> cases vl <;> decide

theorem lowBits_eq_setWidth (vl : VLen) (v : VecWord) : lowBits vl v = (v.setWidth vl.bits).setWidth 512 := by
  rw [lowBits, BitVec.setWidth_eq_extractLsb' (vlenBits_le vl)]

/-- The elements of a vector, put together again. -/
theorem buildElems_elemAt (e : ElemSize) (vl : VLen) (v : VecWord) :
    buildElems e (elemAt e v) (elemCount e vl) = lowBits vl v := by
  have hcount := elemCount_mul e vl
  have hle := vlenBits_le vl
  apply BitVec.eq_of_getLsbD_eq
  intro b hb
  have hmod : b % e.bits < e.bits := Nat.mod_lt b (elemBits_pos e)
  have hpos : b / e.bits * e.bits + b % e.bits = b := Nat.div_add_mod' b e.bits
  rw [buildElems_getLsbD e _ _ _ (hcount ▸ hle), hcount]
  simp only [elemAt, lowBits, BitVec.getLsbD_extractLsb', BitVec.getLsbD_setWidth, hmod, hpos, hb, decide_true,
    Bool.true_and, Nat.zero_add]

/-- Where every element is computed, what was in the destination and how it would be masked do not count. -/
theorem maskedXor_of_active (hactive : ∀ j, j < elemCount e vl → active j = true) (z : Bool) (old src1 : VecWord)
    (e2 : Nat → BitVec e.bits) :
    maskedXor e vl active z old src1 e2 = buildElems e (fun j => elemAt e src1 j ^^^ e2 j) (elemCount e vl) :=
  buildElems_congr e _ _ _ fun j hj => if_pos (hactive j hj)

/-- The XOR of all elements is that of the vectors, whatever the element size (R159). -/
theorem buildElems_xor (e : ElemSize) (vl : VLen) (v w : VecWord) :
    buildElems e (fun j => elemAt e v j ^^^ elemAt e w j) (elemCount e vl) = lowBits vl (v ^^^ w) := by
  rw [← buildElems_elemAt e vl]
  exact buildElems_congr e _ _ _ fun j _ => BitVec.extractLsb'_xor.symm

/-- Where no element is computed, the low VL bits are zeroed or kept (R158). -/
theorem maskedXor_of_inactive (hinactive : ∀ j, j < elemCount e vl → active j = false) (z : Bool)
    (old src1 : VecWord) (e2 : Nat → BitVec e.bits) :
    maskedXor e vl active z old src1 e2 = lowBits vl (if z then 0#512 else old) := by
  rw [← buildElems_elemAt e vl]
  refine buildElems_congr e _ _ _ fun j hj => ?_
  rw [hinactive j hj]
  cases z with
  | true => exact BitVec.extractLsb'_zero.symm
  | false => rfl

end ElementLoop

/-- Settles O38: no element is computed, since there is a writemask and its bits are zeros. -/
theorem allZeroMask : Obligations.AllZeroMask := by
  intro s t e vl pre ev reg rm haaa hzeros hexec
  have hinactive : ∀ j, j < elemCount e vl → elemActive s ev.aaa j = false := by
    intro j hj
    simp only [elemActive, hzeros j hj, beq_false_of_ne haaa, Bool.or_self]
  obtain ⟨_, _, v, _, rfl⟩ := exec_eq_next_iff.mp hexec
  rw [vecAt_withPc, writeOf_evexInstr, evexWrite, vecAt_setVec_same, maskedXor_of_inactive hinactive]
  cases ev.z with
  | true => exact lowBits_zero vl
  | false => exact lowBits_eq_setWidth vl _

/-! ## Instructions with equal outcomes -/

/-- Two instructions of one length, of which in this state the same checks, source and write are asked, have one
outcome. -/
theorem exec_congr {i j : Instr} {s : State} (hform : formStop i.form s = formStop j.form s)
    (hlen : i.ilen = j.ilen) (hsrc : sourceOf i s = sourceOf j s) (hwrite : ∀ v, writeOf i s v = writeOf j s v) :
    exec i s = exec j s := by
  rw [exec_eq_execute, exec_eq_execute]
  simp only [execute, hform, hlen, hsrc, hwrite]

section EvexInstr

variable (e : ElemSize) (vl : VLen) (pre : List Prefix) (ev : Evex) (reg : BitVec 3) (rm : Rm)

@[simp] theorem ilen_evexInstr : (evexInstr e vl pre ev reg rm).ilen = evexLen pre rm := by
  cases e <;> cases vl <;> rfl

@[simp] theorem sourceOf_evexInstr :
    sourceOf (evexInstr e vl pre ev reg rm) = evexSource (evexForm e vl) e vl pre ev rm := by
  cases e <;> cases vl <;> rfl

end EvexInstr

/-! ## Which bytes of an operand are accessed -/

section Active

variable {n : Nat} {act act' : Nat → Bool}

theorem firstByte_congr {p q : Nat → Bool} (h : ∀ b, b < n → p b = q b) : firstByte n p = firstByte n q :=
  List.find?_congr fun b hb => h b (List.mem_range.mp hb)

/-- Of the accessed bytes, those of the operand count. -/
theorem loadOperand_congr_active (h : ∀ b, b < n → act b = act' b) (f : Form) (s : State) (la : Quad) (ss : Bool) :
    loadOperand f s la n ss act = loadOperand f s la n ss act' := by
  have hcanonical : canonicalStop s la n ss act = canonicalStop s la n ss act' := by
    simp only [canonicalStop, firstByte_congr fun b hb => congrArg (· && !byteCanonical s la b) (h b hb)]
  have hadmitted : notAdmittedStop s la n act = notAdmittedStop s la n act' := by
    simp only [notAdmittedStop,
      firstByte_congr fun b hb => congrArg (· && (admissionStop s .read (byteAddr la b)).isSome) (h b hb)]
  have hmasked : maskedStop s la n act = maskedStop s la n act' := by
    simp only [maskedStop, firstByte_congr fun b hb => congrArg (!· && !byteReadable s la b) (h b hb)]
  simp only [loadOperand, operandStop, hcanonical, hadmitted, hmasked]

end Active

/-! ## Every element computed -/

/-- Every element is computed: there is no writemask, or its bits KL-1:0 are ones. -/
def AllActive (s : State) (e : ElemSize) (vl : VLen) (ev : Evex) : Prop :=
  ∀ j, j < elemCount e vl → elemActive s ev.aaa j = true

theorem allActive_of_no_mask {s : State} {e : ElemSize} {vl : VLen} {ev : Evex} (haaa : ev.aaa = 0#3) :
    AllActive s e vl ev :=
  fun _ _ => (elemActive_iff ..).mpr (.inl haaa)

section AllActive

variable {s : State} {e : ElemSize} {vl : VLen} {ev : Evex} (hall : AllActive s e vl ev)
include hall

/-- Then every byte of the operand belongs to an element that is computed. -/
theorem AllActive.byteActive {b : Nat} (hb : b < evexBytes e vl ev.bcast) : byteActive s e vl ev b = true := by
  rw [byteActive_iff]
  cases hbcast : ev.bcast with
  | true => exact ⟨0, elemCount_pos e vl, hall 0 (elemCount_pos e vl)⟩
  | false =>
    refine hall _ (Nat.div_lt_of_lt_mul ?_)
    rw [hbcast] at hb
    calc b < vl.bits / 8 := hb
      _ = e.bits / 8 * elemCount e vl := by rw [Nat.mul_comm, elemCount_mul_bytes]

theorem AllActive.evexSource_mem (f : Form) (pre : List Prefix) (m : Mem) :
    evexSource f e vl pre ev (.mem m) s =
      loadOperand f s (linAddr s pre ev.x ev.b (tupleN e vl ev.bcast) (evexLen pre (.mem m)) m)
        (evexBytes e vl ev.bcast) (stackClass pre ev.b m) (fun _ => true) :=
  loadOperand_congr_active (fun _ hb => hall.byteActive hb) ..

theorem AllActive.evexWrite_eq (reg : BitVec 3) (rm : Rm) (v : VecWord) :
    evexWrite e vl ev reg rm s v =
      setVec s (regNum5 ev.rHi ev.r reg)
        (buildElems e (fun j => elemAt e (vecAt s (BitVec.ofBool ev.vHi ++ ev.vvvv)) j ^^^ srcElem e ev rm v j)
          (elemCount e vl)) := by
  rw [evexWrite, maskedXor_of_active hall]

/-- Without broadcast the write is that of VPXOR: the XOR of the vectors, cut to VL. -/
theorem AllActive.evexWrite_eq_lowBits (hbcast : ev.bcast = false) (reg : BitVec 3) (rm : Rm) (v : VecWord) :
    evexWrite e vl ev reg rm s v =
      setVec s (regNum5 ev.rHi ev.r reg) (lowBits vl (vecAt s (BitVec.ofBool ev.vHi ++ ev.vvvv) ^^^ v)) := by
  have hsrc : srcElem e ev rm v = elemAt e v := by
    funext j
    cases rm with
    | reg r => rfl
    | mem m => simp only [srcElem, hbcast, Bool.false_eq_true, if_false]
  rw [hall.evexWrite_eq, hsrc, buildElems_xor]

end AllActive

/-- Settles O37: under both masks every element is computed, and the payloads differ in the masks alone. -/
theorem allOnesMaskIsNoMask : Obligations.AllOnesMaskIsNoMask := by
  intro s e vl pre ev reg rm hones
  have hmask : AllActive s e vl ev := fun j hj => (elemActive_iff ..).mpr (.inr (hones j hj))
  have hnone : AllActive s e vl { ev with aaa := 0#3, z := false } := allActive_of_no_mask rfl
  refine exec_congr ?form ?len ?source fun v => ?write
  case form => rw [form_evexInstr, form_evexInstr]
  case len => rw [ilen_evexInstr, ilen_evexInstr]
  case source =>
    rw [sourceOf_evexInstr, sourceOf_evexInstr]
    cases rm with
    | reg r => rfl
    | mem m => rw [hmask.evexSource_mem, hnone.evexSource_mem]
  case write =>
    rw [writeOf_evexInstr, writeOf_evexInstr, hmask.evexWrite_eq, hnone.evexWrite_eq]
    rfl

/-! ## VPXORD against VPXORQ (R159) -/

section ElemSize

variable (s : State) (e e' : ElemSize) (vl : VLen)

theorem formStop_evexForm : formStop (evexForm e vl) s = formStop (evexForm e' vl) s := by
  cases e <;> cases e' <;> cases vl <;> rfl

theorem loadOperand_evexForm (la : Quad) (n : Nat) (ss : Bool) (act : Nat → Bool) :
    loadOperand (evexForm e vl) s la n ss act = loadOperand (evexForm e' vl) s la n ss act := by
  cases e <;> cases e' <;> cases vl <;> rfl

end ElemSize

/-- Settles O36: all the elements of one vector length are read and computed, in whatever size. -/
theorem dwordIsQwordUnmasked : Obligations.DwordIsQwordUnmasked := by
  intro s vl pre ev reg rm haaa hbcast
  have hall (e : ElemSize) : AllActive s e vl ev := allActive_of_no_mask haaa
  refine exec_congr ?form ?len ?source fun v => ?write
  case form =>
    rw [form_evexInstr, form_evexInstr]
    exact formStop_evexForm ..
  case len => rw [ilen_evexInstr, ilen_evexInstr]
  case source =>
    rw [sourceOf_evexInstr, sourceOf_evexInstr]
    cases rm with
    | reg r => rfl
    | mem m =>
      rw [(hall .dword).evexSource_mem, (hall .qword).evexSource_mem, hbcast]
      exact loadOperand_evexForm ..
  case write =>
    rw [writeOf_evexInstr, writeOf_evexInstr, (hall .dword).evexWrite_eq_lowBits hbcast,
      (hall .qword).evexWrite_eq_lowBits hbcast]

end Sys2Proof.Machine
end

section
/-! What a step does with the bytes at pc: it runs the instruction they decode to (60_exceptions.md R190), it ends at the
first byte that the decoder needs and that cannot be fetched (R185 (1)). -/

namespace Sys2Proof.Machine

/-! ## Bytes that are an instruction -/

theorem step_of_instr {s : State} {bs : List Byte} {i : Instr} (hrun : Running s) (hcode : CodeAt s bs)
    (hd : decode bs = .instr i) : step s = exec i s := by
  rw [step_of_running hrun, fetchDecode_of_codeAt hcode (by simp [hd]), fetchFrom, hd]

/-- Settles O12. -/
theorem stepRunsDecoded : Obligations.StepRunsDecoded :=
  fun _ _ _ => step_of_instr

/-- Settles O13: the bytes of a well-formed instruction decode to it. -/
theorem stepRunsEncoded : Obligations.StepRunsEncoded := by
  intro s i hrun hwf hcode
  exact step_of_instr hrun hcode (List.append_nil (encode i) ▸ decodeEncode i [] hwf)

/-! ## A byte that cannot be fetched -/

/-- Where the decoder asks for more bytes, it has asked for each of those it was given. -/
theorem decode_take_of_more {bs : List Byte} (h : decode bs = .more) (k : Nat) : decode (bs.take k) = .more := by
  by_contra hne
  have happ := decodeNeedsNoMore (bs.take k) (bs.drop k) hne
  rw [List.take_append_drop, h] at happ
  exact hne happ.symm

/-- The byte after those that the decoder has, where it needs one more, ends the step by what stops its fetch. -/
theorem step_of_fetchStop {s : State} {bs : List Byte} {st : Stop} (hrun : Running s) (hcode : CodeAt s bs)
    (hd : decode bs = .more) (hstop : fetchStop s bs.length = some st) : step s = st.outcome := by
  have hlt := codeAt_length_lt hcode
  obtain ⟨n, hn⟩ : ∃ n, fetchLimit - bs.length = n + 1 := ⟨fetchLimit - bs.length - 1, by omega⟩
  have hfetch : fetchDecode s = .error st := by
    rw [fetchDecode_codeAt hcode hlt.le fun k _ => decode_take_of_more hd k, hn, fetchFrom, hd]
    simp only [hstop]
  rw [step_of_running hrun, hfetch]

theorem fetchStop_of_not_canonical {s : State} {k : Nat} (h : canonical s.cfg.vaBits (byteAddr s.pc k) = false) :
    fetchStop s k = some (.fault (.gp (some (byteAddr s.pc k)) s.pc)) :=
  if_neg (Bool.not_eq_true _ ▸ h)

theorem fetchStop_of_canonical {s : State} {k : Nat} (h : canonical s.cfg.vaBits (byteAddr s.pc k) = true) :
    fetchStop s k = admissionStop s .fetch (byteAddr s.pc k) :=
  if_pos h

/-- Settles O15: what stops the fetch of that byte, by its address and the four answers of `admissionStop`. -/
theorem fetchFault : Obligations.FetchFault := by
  intro s bs hrun hcode hd a
  refine ⟨fun hcanonical => ?notCanonical, fun hcanonical => ?admission⟩
  case notCanonical => exact step_of_fetchStop hrun hcode hd (fetchStop_of_not_canonical hcanonical)
  case admission =>
    have hstep : ∀ st, admissionStop s .fetch a = some st → step s = st.outcome := fun st hst =>
      step_of_fetchStop hrun hcode hd ((fetchStop_of_canonical hcanonical).trans hst)
    refine ⟨fun code hanswer => ⟨?pageFault, fun hlegal => ?code⟩, fun hanswer => ?generalProtection,
      fun hanswer => ?stackFault, fun hanswer => ?device⟩
    case pageFault => exact hstep (raise (.pf code a) s) (by simp only [admissionStop, hanswer])
    case code =>
      have hcode : (!code.getLsbD 1 && code.getLsbD 4 == true) = true := admissionOf_pageFault hanswer hlegal
      simpa only [Bool.and_eq_true, Bool.not_eq_true', beq_iff_eq] using hcode
    case generalProtection => exact hstep (raise (.gp (some a)) s) (by simp only [admissionStop, hanswer])
    case stackFault => exact hstep (raise (.ss a) s) (by simp only [admissionStop, hanswer])
    case device => exact hstep (.refuse (.deviceMemory a)) (by simp only [admissionStop, hanswer])

end Sys2Proof.Machine
end

section
/-! The encoding conditions of 60_exceptions.md R177 (rows 1 to 7 of 30_encoding.md R121) in the decoder: bytes of at most
15 that say prefixes and a body, and that meet one of them, are invalid, whatever their segment overrides. -/

namespace Sys2Proof

/-! ## The conditions -/

/-- The body of a legacy form. -/
def Body.isLegacy : Body → Bool
  | .legacy _ _ _ => true
  | _ => false

/-- Rows 4 to 7 of R121 on a body: a reserved bit of EVEX, `z = 1` without a writemask, `b = 1` with a register, and
`L'L = 11b`. -/
def Body.badPayload : Body → Bool
  | .evex reservedOk _ ll e _ rm => !reservedOk || !e.wf rm || ll == 3#2
  | _ => false

/-- Rows 1 to 7 of R121 on prefixes and the body after them, where a REX byte that ends the prefixes of a VEX or EVEX
form stands directly before it. -/
def EncodingBad (pre : List Prefix) (b : Body) : Prop :=
  noLockRep pre = false ∨ (b.isLegacy = false ∧ (Prefix.opSize ∈ pre ∨ endsInRex pre = true)) ∨ b.badPayload = true

theorem noLockRep_eq_false_iff (pre : List Prefix) :
    noLockRep pre = false ↔ Prefix.lock ∈ pre ∨ Prefix.repne ∈ pre ∨ Prefix.rep ∈ pre := by
  simp [noLockRep, imp_iff_not_or, or_assoc]

theorem badPrefix_iff (pre : List Prefix) (rexBefore : Bool) (b : Body) :
    badPrefix pre rexBefore b = true ↔
      noLockRep pre = false ∨ (b.isLegacy = false ∧ (Prefix.opSize ∈ pre ∨ rexBefore = true)) := by
  cases b <;> simp [badPrefix, Body.isLegacy, or_assoc]

theorem toInstr_of_badPayload {b : Body} (h : b.badPayload = true) (pre : List Prefix) : b.toInstr pre = none := by
  cases b with
  | evex ok w ll e reg rm =>
    simp only [Body.badPayload, Bool.or_eq_true, Bool.not_eq_true', beq_iff_eq] at h
    obtain (rfl | hwf) | rfl := h
    · rfl
    · simp [Body.toInstr, hwf]
    · simp [Body.toInstr]
  | _ => cases h

/-- The length check passed, bad prefixes or a bad payload make the instruction invalid. -/
theorem finish_eq_invalid {pre : List Prefix} {rexBefore : Bool} {b : Body}
    (hlen : pre.length + (if rexBefore then 1 else 0) + b.len ≤ 15)
    (h : badPrefix pre rexBefore b = true ∨ b.badPayload = true) : finish pre rexBefore b = .invalid := by
  rw [finish, if_neg (Nat.not_lt.mpr hlen)]
  split
  next => rfl
  next hgood => rw [toInstr_of_badPayload (h.resolve_left hgood)]

/-! ## Where a REX byte that ends the prefixes belongs -/

/-- A body that begins with a REX byte, none standing before it, is that of a legacy form. -/
theorem isLegacy_of_startsRex {rest t : List Byte} {b : Body} (hparse : parseBody rest = (false, .body b t))
    (hrex : startsRex rest = true) : b.isLegacy = true := by
  cases rest with
  | nil => cases hrex
  | cons c u =>
    have hc : isRex c = true := by simpa [startsRex] using hrex
    cases u with
    | nil => simp [parseBody, ne_escape_of_isRex hc, hc] at hparse
    | cons d v =>
      by_cases hd : d = 0x0F#8
      · subst hd
        rw [parseBody_rex_escape hc] at hparse
        obtain ⟨reg, rm, _, rfl, _⟩ := parseLegacy_eq_body_iff.mp (Prod.mk.inj hparse).2
        rfl
      · rw [parseBody_rex_vex hc hd] at hparse
        cases hparse

/-- After one more REX byte the same body is read: in a legacy form that byte is its own, and it stands directly before a
VEX or EVEX form. -/
theorem parseBody_rex_cons {r : Byte} {rest t : List Byte} {b : Body} (hr : isRex r = true)
    (hparse : parseBody rest = (false, .body b t)) (hno : startsRex rest = false) :
    (∃ reg rm, b = .legacy none reg rm ∧ parseBody (r :: rest) = (false, .body (.legacy (some (rexOf r)) reg rm) t)) ∨
      (b.isLegacy = false ∧ parseBody (r :: rest) = (true, .body b t)) := by
  cases rest with
  | nil => cases hparse
  | cons c u =>
    by_cases hc : c = 0x0F#8
    · subst hc
      obtain ⟨reg, rm, hwf, rfl, rfl⟩ := parseLegacy_eq_body_iff.mp (Prod.mk.inj hparse).2
      refine .inl ⟨reg, rm, rfl, ?_⟩
      rw [parseBody_rex_escape hr, parseLegacy_eq_body_iff.mpr ⟨reg, rm, hwf, rfl, rfl⟩]
    · rw [parseBody_vex hc hno] at hparse
      have hstart := (Prod.mk.inj hparse).2
      refine .inr ⟨?_, by rw [parseBody_rex_vex hr hc, hstart]⟩
      cases b with
      | legacy rex reg rm => exact absurd hstart parseVexStart_ne_legacy
      | _ => rfl

theorem noLockRep_concat_rex (q : List Prefix) (w : BitVec 4) : noLockRep (q ++ [.rexIgnored w]) = noLockRep q := by
  simp [noLockRep]

/-- Bytes that meet an encoding condition in at most 15 bytes are invalid: the prefixes are as they stand, or the last of
them is a REX byte that belongs to what follows. -/
theorem decode_of_encodingBad {pre : List Prefix} {rest t : List Byte} {b : Body} (hstop : ScanStops rest)
    (hparse : parseBody rest = (false, .body b t)) (hlen : pre.length + b.len ≤ 15) (hbad : EncodingBad pre b) :
    decode (preBytes pre ++ rest) = .invalid := by
  by_cases hends : endsInRex pre = true → startsRex rest = true
  · rw [decode_of_body (scanPrefixes_preBytes hstop hends) hparse]
    refine finish_eq_invalid hlen ?_
    rw [badPrefix_iff]
    obtain hlock | ⟨hvex, hop | hend⟩ | hpayload := hbad
    · exact .inl (.inl hlock)
    · exact .inl (.inr ⟨hvex, .inl hop⟩)
    · rw [isLegacy_of_startsRex hparse (hends hend)] at hvex
      cases hvex
    · exact .inr hpayload
  · obtain ⟨hend, hno⟩ : endsInRex pre = true ∧ startsRex rest = false := by simpa using hends
    obtain ⟨q, w, rfl⟩ := Machine.endsInRex_eq_true hend
    rw [List.length_append, List.length_singleton] at hlen
    have hscan := Machine.scanPrefixes_lastRex (q := q) (w := w) hstop hno
    obtain ⟨reg, rm, rfl, hrex⟩ | ⟨_, hrex⟩ := parseBody_rex_cons (isRex_rexIgnored w) hparse hno
    · rw [decode_of_body hscan hrex]
      refine finish_eq_invalid (by simp [Body.len, legacyLen] at hlen ⊢; omega) (.inl ?_)
      simpa [EncodingBad, badPrefix_iff, Body.isLegacy, Body.badPayload, noLockRep_concat_rex] using hbad
    · rw [decode_of_body hscan hrex]
      exact finish_eq_invalid (by simp; omega) (.inl (badPrefix_of_rexBefore hrex q))

/-! ## The bytes of an instruction, and an EVEX payload -/

theorem isLegacy_body {i : Instr} (h : i.form.layout ≠ .legacy) : i.body.isLegacy = false := by
  cases i with
  | pxorMm | pxorXmm => exact absurd rfl h
  | _ => rfl

theorem decode_encode_of_encodingBad {i : Instr} (hrm : i.rm.wf = true) (hlen : i.ilen ≤ 15)
    (hbad : EncodingBad i.pre i.body) : decode (encode i) = .invalid := by
  have hparse : parseBody (i.body.bytes ++ []) = (false, .body i.body []) :=
    (parseBody_eq_body_iff (reservedOk_body i)).mpr ⟨(rm_body i).symm ▸ hrm, rfl⟩
  have hstop := scanStops_body i.body []
  rw [List.append_nil] at hparse hstop
  rw [encode_eq]
  exact decode_of_encodingBad hstop hparse (ilen_eq i ▸ hlen) hbad

/-- The body of an EVEX payload of the family pattern, as `parseEvex` reads it. -/
def evexBody (p0 p1 p2 : Byte) (reg : BitVec 3) (rm : Rm) : Body :=
  .evex (evexReservedOk p0 p1) (p1.getLsbD 7) (p2.extractLsb' 5 2) (evexOf p0 p1 p2) reg rm

/-- The conditions of R177 on the bits of an EVEX payload. -/
theorem badPayload_evex {p0 p1 p2 : Byte} {reg : BitVec 3} {rm : Rm}
    (h : p0.extractLsb' 2 2 ≠ 0#2 ∨ p1.getLsbD 2 = false ∨ p2.extractLsb' 5 2 = 3#2 ∨
      (p2.getLsbD 7 = true ∧ p2.extractLsb' 0 3 = 0#3) ∨ (p2.getLsbD 4 = true ∧ ∃ r, rm = .reg r)) :
    (evexBody p0 p1 p2 reg rm).badPayload = true := by
  obtain hmm | h2 | hll | ⟨hz, haaa⟩ | ⟨hbcast, r, rfl⟩ := h
  · simp [evexBody, Body.badPayload, evexReservedOk, hmm]
  · simp [evexBody, Body.badPayload, evexReservedOk, -BitVec.getLsbD_eq_getElem, h2]
  · simp [evexBody, Body.badPayload, hll]
  · simp [evexBody, Body.badPayload, Evex.wf, evexOf, -BitVec.getLsbD_eq_getElem, hz, haaa]
  · simp [evexBody, Body.badPayload, Evex.wf, evexOf, -BitVec.getLsbD_eq_getElem, hbcast]

/-- An EVEX payload of the family pattern in at most 15 bytes that meets an encoding condition. -/
theorem decode_of_badPayload {pre : List Prefix} {p0 p1 p2 : Byte} {reg : BitVec 3} {rm : Rm} (hrm : rm.wf = true)
    (hlen : evexLen pre rm ≤ 15) (hmm : p0.extractLsb' 0 2 = 1#2) (hpp : p1.extractLsb' 0 2 = 1#2)
    (hbad : (evexBody p0 p1 p2 reg rm).badPayload = true) :
    decode (preBytes pre ++ [0x62#8, p0, p1, p2, 0xEF#8] ++ rmBytes reg rm) = .invalid := by
  have hstop : ScanStops ([0x62#8, p0, p1, p2, 0xEF#8] ++ rmBytes reg rm) :=
    (scanStops_cons_iff _ _).mpr ⟨rfl, fun h => by cases h⟩
  have hparse : parseEvex (p0 :: p1 :: p2 :: 0xEF#8 :: rmBytes reg rm) = .body (evexBody p0 p1 p2 reg rm) [] := by
    rw [← List.append_nil (rmBytes reg rm)]
    exact parseEvex_payload hmm hpp hrm []
  rw [List.append_assoc]
  refine decode_of_encodingBad hstop (congrArg _ hparse) ?_ (.inr (.inr hbad))
  simp only [evexBody, Body.len, evexLen, List.length_nil] at hlen ⊢
  omega

end Sys2Proof

namespace Sys2Proof.Machine

theorem step_of_invalid {s : State} {bs : List Byte} (hrun : Running s) (hcode : CodeAt s bs)
    (hd : decode bs = .invalid) : step s = .fault (.ud s.pc) :=
  step_of_fetch_error (st := raise .ud s) hrun hcode (by simp [hd]) (by rw [fetchFrom, hd])

/-- Settles O8: in both clauses the bytes are invalid, which the fetch answers with #UD. -/
theorem encodingConditionsRaiseUd : Obligations.EncodingConditionsRaiseUd := by
  constructor
  · intro s i hrun hrm _ hlen hcode hbad
    refine step_of_invalid hrun hcode (decode_encode_of_encodingBad hrm hlen ?_)
    obtain hlock | hrepne | hrep | ⟨hvex, hpre⟩ := hbad
    · exact .inl ((noLockRep_eq_false_iff _).mpr (.inl hlock))
    · exact .inl ((noLockRep_eq_false_iff _).mpr (.inr (.inl hrepne)))
    · exact .inl ((noLockRep_eq_false_iff _).mpr (.inr (.inr hrep)))
    · exact .inr (.inl ⟨isLegacy_body hvex, hpre⟩)
  · intro s pre p0 p1 p2 reg rm hrun hrm _ hlen hcode hmm hpp hbad
    exact step_of_invalid hrun hcode (decode_of_badPayload hrm hlen hmm hpp (badPayload_evex hbad))

end Sys2Proof.Machine
end

section
/-! The conditions on an instruction before its operand (60_exceptions.md R172 to R176, R181): #UD for an absent feature
or an enable that is off, #NM and #MF; and the control bits that a VEX form does not consult. -/

namespace Sys2Proof.Machine

/-! ## The conditions before the operand -/

section FormStop

variable {i : Instr} {s : State}

theorem exec_of_formStop {st : Stop} (h : formStop i.form s = some st) : exec i s = st.outcome := by
  rw [exec_eq_execute, execute_of_formStop h]

/-- An instruction that is not enabled ends before its operand. -/
theorem exists_formStop (h : ¬ Enabled i.form s) : ∃ st, formStop i.form s = some st :=
  Option.ne_none_iff_exists'.mp fun hnone => h ((formStop_eq_none_iff _ _).mp hnone)

theorem exec_of_not_present_or_not_osEnabled (h : ¬ FeaturePresent i.form s.cfg.cpuid ∨ ¬ OsEnabled i.form s) :
    exec i s = .fault (.ud s.pc) := by
  rw [← not_and_or] at h
  obtain ⟨st, hst⟩ := exists_formStop (i := i) (s := s) fun ⟨hfeature, hos, _⟩ => h ⟨hfeature, hos⟩
  rw [exec_of_formStop hst]
  obtain ⟨rfl, _⟩ | ⟨_, hfeature, hos, _⟩ | ⟨_, hfeature, hos, _⟩ := formStop_eq_some hst
  · rfl
  · exact absurd ⟨hfeature, hos⟩ h
  · exact absurd ⟨hfeature, hos⟩ h

theorem exec_of_taskSwitched (hfeature : FeaturePresent i.form s.cfg.cpuid) (hos : OsEnabled i.form s)
    (hts : s.cr0.getLsbD 3 = true) : exec i s = .fault (.nm s.pc) := by
  obtain ⟨st, hst⟩ := exists_formStop (i := i) (s := s) fun ⟨_, _, hoff, _⟩ => by
    rw [hts] at hoff
    cases hoff
  rw [exec_of_formStop hst]
  obtain ⟨_, hno⟩ | ⟨rfl, _⟩ | ⟨_, _, _, hoff, _⟩ := formStop_eq_some hst
  · exact absurd ⟨hfeature, hos⟩ (not_and_or.mpr hno)
  · rfl
  · rw [hts] at hoff
    cases hoff

theorem exec_of_x87Pending (hform : i.form = .f1) (hfeature : FeaturePresent i.form s.cfg.cpuid)
    (hos : OsEnabled i.form s) (hts : s.cr0.getLsbD 3 = false) (hpending : s.x87.pending = true) :
    exec i s = .fault (.mf s.pc) := by
  obtain ⟨st, hst⟩ := exists_formStop (i := i) (s := s) fun ⟨_, _, _, hoff⟩ => by
    rw [hoff hform] at hpending
    cases hpending
  rw [exec_of_formStop hst]
  obtain ⟨_, hno⟩ | ⟨_, _, _, hon⟩ | ⟨rfl, _⟩ := formStop_eq_some hst
  · exact absurd ⟨hfeature, hos⟩ (not_and_or.mpr hno)
  · rw [hts] at hon
    cases hon
  · rfl

end FormStop

/-- Settles O43. -/
theorem featureAbsentRaisesUd : Obligations.FeatureAbsentRaisesUd :=
  fun _ _ h => exec_of_not_present_or_not_osEnabled (.inl h)

/-- Settles O45. -/
theorem taskSwitchedRaisesNm : Obligations.TaskSwitchedRaisesNm :=
  fun _ _ => exec_of_taskSwitched

/-! ## The control bits that a VEX form does not consult -/

/-- Reading an operand sees of the state its memory, its configuration, its pc and alignment checking. -/
theorem loadOperand_congr_state {s t : State} (hcfg : t.cfg = s.cfg) (hpc : t.pc = s.pc) (hmem : t.mem = s.mem)
    (halign : alignCheck t = alignCheck s) (f : Form) (la : Quad) (n : Nat) (ss : Bool) (act : Nat → Bool) :
    loadOperand f t la n ss act = loadOperand f s la n ss act := by
  have hadmission (k : AccessKind) (a : Quad) : admissionStop t k a = admissionStop s k a := by
    simp only [admissionStop, raise, hcfg, hpc]
  have hcanonical (j : Nat) : byteCanonical t la j = byteCanonical s la j := by
    simp only [byteCanonical, hcfg]
  simp only [loadOperand, operandStop, canonicalStop, misalignedStop, notAdmittedStop, maskedStop, byteReadable,
    alignCheckStop, raise, hadmission, hcanonical, hcfg, hpc, hmem, halign] <;> rfl

/-- The state with other control registers. -/
def setControl (c0 c4 : BitVec 64) (s : State) : State := { s with cr0 := c0, cr4 := c4 }

section SetControl

variable (c0 c4 : BitVec 64) (s : State)

@[simp] theorem operandActive_setControl (i : Instr) :
    operandActive (setControl c0 c4 s) i = operandActive s i := by
  cases i <;> rfl

@[simp] theorem operandAddr_setControl (i : Instr) (m : Mem) :
    operandAddr (setControl c0 c4 s) i m = operandAddr s i m := rfl

theorem writeOf_setControl (i : Instr) (v : VecWord) :
    writeOf i (setControl c0 c4 s) v = setControl c0 c4 (writeOf i s v) := by
  cases i <;> rfl

theorem complete_setControl (len : Nat) (t : State) :
    complete len (setControl c0 c4 s) (setControl c0 c4 t) = mapNext (setControl c0 c4) (complete len s t) := by
  have hok : nextPcOk (setControl c0 c4 s) len = nextPcOk s len := rfl
  rw [complete_eq, complete_eq, hok]
  split <;> rfl

variable {c0 c4 s} {i : Instr}

/-- A source is read alike where alignment checking is the same. -/
theorem sourceOf_setControl (halign : alignCheck (setControl c0 c4 s) = alignCheck s) :
    sourceOf i (setControl c0 c4 s) = sourceOf i s := by
  cases hrm : i.rm with
  | reg r => cases i <;> (simp only [Instr.rm] at hrm; subst hrm; rfl)
  | mem m =>
    rw [sourceOf_mem hrm, sourceOf_mem hrm, operandAddr_setControl, operandActive_setControl,
      loadOperand_congr_state (s := s) (t := setControl c0 c4 s) rfl rfl rfl halign]

/-- Where the conditions before the operand and alignment checking are the same, an instruction carries the other values
through and does nothing else with them. -/
theorem exec_setControl (hform : formStop i.form (setControl c0 c4 s) = formStop i.form s)
    (halign : alignCheck (setControl c0 c4 s) = alignCheck s) :
    exec i (setControl c0 c4 s) = mapNext (setControl c0 c4) (exec i s) := by
  rw [exec_eq_execute, exec_eq_execute]
  unfold execute
  rw [hform, sourceOf_setControl halign]
  cases formStop i.form s with
  | some st => exact (mapNext_stop _ st).symm
  | none =>
    cases sourceOf i s with
    | error st => exact (mapNext_stop _ st).symm
    | ok v => simp only [writeOf_setControl, complete_setControl]

/-- A VEX form looks at CR0.TS and CR4.OSXSAVE alone. -/
theorem formStop_setControl {f : Form} (hvex : f.layout = .vex) (hts : c0.getLsbD 3 = s.cr0.getLsbD 3)
    (hxsave : c4.getLsbD 18 = s.cr4.getLsbD 18) : formStop f (setControl c0 c4 s) = formStop f s := by
  have hos : osOk f (setControl c0 c4 s) = osOk f s := by
    cases f with
    | f3 | f4 => simp only [osOk, cr4OSXSAVE, setControl, hxsave, xcr0Avx]
    | _ => cases hvex
  have hnm : cr0TS (setControl c0 c4 s) = cr0TS s := hts
  simp only [formStop, hos, hnm]
  rfl

end SetControl

/-- Settles O44: the clause on VEX forms leaves out of CR0 and CR4 only bits that these do not look at. -/
theorem notEnabledRaisesUd : Obligations.NotEnabledRaisesUd := by
  refine ⟨fun _ _ h => exec_of_not_present_or_not_osEnabled (.inr h), fun i s c0 c4 hvex h0 h4 => ?_⟩
  have halign : alignCheck (setControl c0 c4 s) = alignCheck s := by
    simp only [alignCheck, cr0AM, rflagsAC, setControl, h0 18 (by decide)]
  exact exec_setControl (formStop_setControl hvex (h0 3 (by decide)) (h4 18 (by decide))) halign

end Sys2Proof.Machine
end

section
/-! Where the fault of an instruction comes from (60_exceptions.md R178, R185): the conditions before its operand, or its
memory operand, with alignment checking last (R182); and the pc that every fault carries (R191). -/

namespace Sys2Proof.Machine

/-! ## Before the operand, or at it -/

theorem Stop.outcome_eq_fault_iff {st : Stop} {f : Fault} : st.outcome = .fault f ↔ st = .fault f := by
  cases st <;> simp [Stop.outcome]

/-- An instruction faults before its operand, or by the read of its memory operand. -/
theorem exec_eq_fault {i : Instr} {s : State} {f : Fault} (h : exec i s = .fault f) :
    formStop i.form s = some (.fault f) ∨ ∃ m, i.rm = .mem m ∧
      operandStop i.form s (operandAddr s i m) (operandBytes i) (operandStack i m) (operandActive s i) =
        some (.fault f) := by
  cases hform : formStop i.form s with
  | some st =>
    rw [exec_of_formStop hform, Stop.outcome_eq_fault_iff] at h
    exact .inl (congrArg some h)
  | none =>
    rw [exec_of_enabled ((formStop_eq_none_iff _ _).mp hform)] at h
    cases hsrc : sourceOf i s with
    | ok v =>
      simp only [hsrc, complete_eq] at h
      split at h <;> cases h
    | error st =>
      simp only [hsrc] at h
      rw [Stop.outcome_eq_fault_iff] at h
      subst h
      cases hrm : i.rm with
      | reg r =>
        obtain ⟨v, hv⟩ := sourceOf_reg hrm s
        simp [hv] at hsrc
      | mem m =>
        rw [sourceOf_mem hrm] at hsrc
        exact .inr ⟨m, rfl, loadOperand_eq_error_iff.mp hsrc⟩

/-- The faults before the operand. -/
theorem formStop_eq_fault {form : Form} {s : State} {f : Fault} (h : formStop form s = some (.fault f)) :
    f = .ud s.pc ∨ f = .nm s.pc ∨ (f = .mf s.pc ∧ form = .f1) := by
  obtain ⟨hf, _⟩ | ⟨hf, _⟩ | ⟨hf, _, _, _, hform, _⟩ := formStop_eq_some h
  · exact .inl (Stop.fault.inj hf)
  · exact .inr (.inl (Stop.fault.inj hf))
  · exact .inr (.inr ⟨Stop.fault.inj hf, hform⟩)

/-- Settles O51: a register form has no operand that faults or is refused. -/
theorem registerFormFaults : Obligations.RegisterFormFaults := by
  intro i s r hrm
  refine ⟨fun f h => ?fault, fun e h => ?refused⟩
  case fault =>
    obtain hform | ⟨m, hmem, _⟩ := exec_eq_fault h
    · exact (formStop_eq_fault hform).imp_right (Or.imp_right And.left)
    · cases hrm.symm.trans hmem
  case refused =>
    obtain hpc | ⟨m, hmem, _⟩ := exec_eq_refused h
    · exact hpc
    · cases hrm.symm.trans hmem

/-! ## What stops an operand -/

/-- What stops a memory operand before alignment checking: #SS(0), #GP(0) and #PF with an address and the pc, and two
refusals. -/
inductive MemoryStop (pc : Quad) : Stop → Prop where
  | ss (a : Quad) : MemoryStop pc (.fault (.ss a pc))
  | gp (a : Quad) : MemoryStop pc (.fault (.gp (some a) pc))
  | pf (code : BitVec 32) (a : Quad) : MemoryStop pc (.fault (.pf code a pc))
  | device (a : Quad) : MemoryStop pc (.refuse (.deviceMemory a))
  | masked : MemoryStop pc (.refuse .maskedInadmissible)

theorem admissionStop_eq_some {s : State} {k : AccessKind} {a : Quad} {st : Stop}
    (h : admissionStop s k a = some st) : MemoryStop s.pc st := by
  unfold admissionStop at h
  cases hanswer : admissionOf s.cfg a k <;> rw [hanswer] at h <;> cases h
  case pageFault code => exact .pf code a
  case generalProtection => exact .gp a
  case stackFault => exact .ss a
  case device => exact .device a

section OperandStop

variable {form : Form} {s : State} {la : Quad} {n : Nat} {ss : Bool} {act : Nat → Bool} {st : Stop}

theorem operandStop_eq_memory_or_alignment (h : operandStop form s la n ss act = some st) :
    MemoryStop s.pc st ∨ alignCheckStop form s la n = some st := by
  obtain hc | hm | hn | hk | ha := operandStop_eq_some h
  · obtain ⟨j, _, _, _, _, rfl⟩ := canonicalStop_eq_some hc
    cases ss
    · exact .inl (.gp _)
    · exact .inl (.ss _)
  · obtain ⟨_, _, rfl⟩ := misalignedStop_eq_some hm
    exact .inl (.gp _)
  · obtain ⟨j, _, _, hadmission, _⟩ := notAdmittedStop_eq_some hn
    exact .inl (admissionStop_eq_some hadmission)
  · obtain ⟨rfl, _⟩ := maskedStop_eq_some hk
    exact .inl .masked
  · exact .inr ha

theorem operandStop_pc {f : Fault} (h : operandStop form s la n ss act = some (.fault f)) : faultPc f = s.pc := by
  obtain hmemory | halign := operandStop_eq_memory_or_alignment h
  · cases hmemory <;> rfl
  · obtain ⟨_, ⟨_, _, hf⟩ | ⟨_, _, _, hf⟩⟩ := alignCheckStop_eq_some halign <;> cases hf
    rfl

theorem operandStop_ne_mf (p : Quad) : operandStop form s la n ss act ≠ some (.fault (.mf p)) := by
  intro h
  obtain hmemory | halign := operandStop_eq_memory_or_alignment h
  · cases hmemory
  · obtain ⟨_, ⟨_, _, hf⟩ | ⟨_, _, _, hf⟩⟩ := alignCheckStop_eq_some halign <;> cases hf

/-- #AC(0) and the refusal of R182 are alignment checking's alone. -/
theorem operandStop_eq_alignment (h : operandStop form s la n ss act = some st)
    (hst : (∃ a p, st = .fault (.ac a p)) ∨ st = .refuse .alignCheckOpen) : alignCheckStop form s la n = some st := by
  obtain hmemory | halign := operandStop_eq_memory_or_alignment h
  · obtain ⟨a, p, rfl⟩ | rfl := hst <;> cases hmemory
  · exact halign

theorem operandStop_of_alignCheckStop (hc : canonicalStop s la n ss act = none) (hm : misalignedStop form s la = none)
    (hn : notAdmittedStop s la n act = none) (hk : maskedStop s la n act = none) :
    operandStop form s la n ss act = alignCheckStop form s la n := by
  simp only [operandStop, hc, hm, hn, hk]

end OperandStop

/-! ## The pc that a fault carries (R191) -/

theorem formStop_pc {form : Form} {s : State} {f : Fault} (h : formStop form s = some (.fault f)) :
    faultPc f = s.pc := by
  obtain rfl | rfl | ⟨rfl, _⟩ := formStop_eq_fault h <;> rfl

theorem exec_fault_pc {i : Instr} {s : State} {f : Fault} (h : exec i s = .fault f) : faultPc f = s.pc := by
  obtain hform | ⟨_, _, hoperand⟩ := exec_eq_fault h
  · exact formStop_pc hform
  · exact operandStop_pc hoperand

theorem fetchFrom_pc {s : State} {n : Nat} {bs : List Byte} {f : Fault} (h : fetchFrom s n bs = .error (.fault f)) :
    faultPc f = s.pc := by
  induction n generalizing bs with
  | zero => cases h; rfl
  | succ n ih =>
    rw [fetchFrom] at h
    cases hd : decode bs with
    | more =>
      simp only [hd] at h
      cases hstop : fetchStop s bs.length with
      | none => exact ih (by simpa only [hstop] using h)
      | some st =>
        simp only [hstop, Except.error.injEq] at h
        exact fetchStop_pc (h ▸ hstop)
    | tooLong | invalid => simp only [hd] at h; cases h; rfl
    | instr i | notThisSpec | segOverrides => simp only [hd] at h; cases h

theorem step_fault_pc {s : State} {f : Fault} (h : step s = .fault f) : faultPc f = s.pc := by
  unfold step at h
  split at h
  next => cases h
  next =>
  split at h
  next st hfetch => exact fetchFrom_pc ((Stop.outcome_eq_fault_iff.mp h) ▸ hfetch)
  next => exact exec_fault_pc h

theorem faultVector_mem (f : Fault) : faultVector f ∈ [6, 7, 12, 13, 14, 16, 17] := by
  cases f <;> simp [faultVector]

/-- Settles O50: a fault of the fetch, of the conditions before an operand and of an operand carries the pc, and there
are no faults but the seven. -/
theorem faultCarriesPc : Obligations.FaultCarriesPc :=
  fun _ f h => ⟨step_fault_pc h, faultVector_mem f⟩

/-! ## #MF (R181) -/

/-- Settles O46: the last of the conditions before the operand, which only F1 meets. -/
theorem pendingX87RaisesMf : Obligations.PendingX87RaisesMf := by
  refine ⟨fun s pre rex reg rm => exec_of_x87Pending (i := .pxorMm pre rex reg rm) rfl, fun i s p h => ?_⟩
  obtain hform | ⟨_, _, hoperand⟩ := exec_eq_fault h
  · obtain hf | hf | ⟨_, hf1⟩ := formStop_eq_fault hform
    · cases hf
    · cases hf
    · exact hf1
  · exact absurd hoperand (operandStop_ne_mf p)

/-! ## Alignment checking (R182) -/

theorem alignCheck_iff (s : State) :
    alignCheck s = true ↔ s.cr0.getLsbD 18 = true ∧ s.rflags.getLsbD 18 = true ∧ s.cpl = 3#2 := by
  simp only [alignCheck, cr0AM, rflagsAC, Bool.and_eq_true, beq_iff_eq, and_assoc]

theorem operandBytes_of_f1 {i : Instr} (h : i.form = .f1) : operandBytes i = 8 := by
  cases i <;> cases h
  rfl

theorem operandBytes_of_f2 {i : Instr} (h : i.form = .f2) : operandBytes i = 16 := by
  cases i <;> cases h
  rfl

section Readable

variable {s : State} {i : Instr} {m : Mem}

/-- A readable operand of F2 that is not aligned ends in the #GP(0) of 20_memory.md R59. -/
theorem exec_of_readable_f2 (hrm : i.rm = .mem m) (henabled : Enabled i.form s) (hform : i.form = .f2)
    (hread : Readable s (operandAddr s i m) (operandBytes i)) (hmis : (operandAddr s i m).toNat % operandBytes i ≠ 0) :
    exec i s = .fault (.gp (some (operandAddr s i m)) s.pc) := by
  refine exec_of_operandStop (st := .fault _) hrm henabled (operandStop_of_misalignedStop ?canonical ?misaligned)
  case canonical => exact canonicalStop_eq_none_iff.mpr fun j hj _ => ((byteReadable_iff ..).mp (hread j hj)).1
  case misaligned => exact if_pos ⟨hform, operandBytes_of_f2 hform ▸ hmis⟩

/-- A readable operand of another form is stopped by alignment checking alone. -/
theorem exec_of_readable_alignCheckStop {st : Stop} (hrm : i.rm = .mem m) (henabled : Enabled i.form s)
    (hform : i.form ≠ .f2) (hread : Readable s (operandAddr s i m) (operandBytes i))
    (hst : alignCheckStop i.form s (operandAddr s i m) (operandBytes i) = some st) : exec i s = st.outcome := by
  refine exec_of_operandStop hrm henabled
    ((operandStop_of_alignCheckStop ?canonical ?misaligned ?notAdmitted ?masked).trans hst)
  case canonical => exact canonicalStop_eq_none_iff.mpr fun j hj _ => ((byteReadable_iff ..).mp (hread j hj)).1
  case misaligned => exact misalignedStop_eq_none_iff.mpr fun hf2 => absurd hf2 hform
  case notAdmitted => exact notAdmittedStop_eq_none_iff.mpr fun j hj _ => ((byteReadable_iff ..).mp (hread j hj)).2
  case masked => exact maskedStop_eq_none_iff.mpr (.inr fun j hj _ => hread j hj)

theorem alignCheckStop_f1 {la : Quad} {n : Nat} (harmed : alignCheck s = true) (hmis : la.toNat % 8 ≠ 0) :
    alignCheckStop .f1 s la n = some (.fault (.ac la s.pc)) := by
  simp [alignCheckStop, harmed, hmis, raise]

theorem alignCheckStop_of_ne {form : Form} {la : Quad} {n : Nat} (harmed : alignCheck s = true) (h1 : form ≠ .f1)
    (h2 : form ≠ .f2) (hmis : la.toNat % n ≠ 0) : alignCheckStop form s la n = some (.refuse .alignCheckOpen) := by
  cases form with
  | f1 => exact absurd rfl h1
  | f2 => exact absurd rfl h2
  | _ => simp [alignCheckStop, harmed, hmis]

/-- What follows where an instruction is stopped by alignment checking. -/
theorem alignCheckStop_operand {st : Stop}
    (h : alignCheckStop i.form s (operandAddr s i m) (operandBytes i) = some st) :
    alignCheck s = true ∧ i.form ≠ .f2 ∧ (operandAddr s i m).toNat % operandBytes i ≠ 0 := by
  obtain ⟨harmed, ⟨hf1, hmis, _⟩ | ⟨_, hf2, hmis, _⟩⟩ := alignCheckStop_eq_some h
  · exact ⟨harmed, by simp [hf1], operandBytes_of_f1 hf1 ▸ hmis⟩
  · exact ⟨harmed, hf2, hmis⟩

end Readable

/-- #AC(0) of an instruction comes from alignment checking of its memory operand. -/
theorem exec_eq_ac {i : Instr} {s : State} {a p : Quad} (h : exec i s = .fault (.ac a p)) :
    ∃ m, i.rm = .mem m ∧
      alignCheckStop i.form s (operandAddr s i m) (operandBytes i) = some (.fault (.ac a p)) := by
  obtain hform | ⟨m, hrm, hoperand⟩ := exec_eq_fault h
  · obtain hf | hf | ⟨hf, _⟩ := formStop_eq_fault hform <;> cases hf
  · exact ⟨m, hrm, operandStop_eq_alignment hoperand (.inl ⟨a, p, rfl⟩)⟩

theorem exec_eq_alignCheckOpen {i : Instr} {s : State} (h : exec i s = .refused .alignCheckOpen) :
    ∃ m, i.rm = .mem m ∧
      alignCheckStop i.form s (operandAddr s i m) (operandBytes i) = some (.refuse .alignCheckOpen) := by
  obtain hpc | ⟨m, hrm, hoperand⟩ := exec_eq_refused h
  · cases hpc
  · exact ⟨m, hrm, operandStop_eq_alignment hoperand (.inr rfl)⟩

/-- Settles O47: on a readable operand nothing but alignment stops the read, and no other check gives these two
outcomes. -/
theorem alignmentChecking : Obligations.AlignmentChecking := by
  refine ⟨alignCheck_iff, fun s i m hrm henabled harmed hread hmis => ⟨fun hf1 => ?f1, fun hf2 => ?f2,
    fun hne1 hne2 => ?others⟩, fun s i h => ?onlySo, fun s i a p h => ?onlyF1⟩
  case f1 =>
    have hstop : alignCheckStop i.form s (operandAddr s i m) (operandBytes i) =
        some (.fault (.ac (operandAddr s i m) s.pc)) :=
      hf1 ▸ alignCheckStop_f1 harmed (operandBytes_of_f1 hf1 ▸ hmis)
    exact ⟨_, exec_of_readable_alignCheckStop hrm henabled (by simp [hf1]) hread hstop⟩
  case f2 => exact ⟨_, exec_of_readable_f2 hrm henabled hf2 hread hmis⟩
  case others =>
    exact exec_of_readable_alignCheckStop hrm henabled hne2 hread (alignCheckStop_of_ne harmed hne1 hne2 hmis)
  case onlySo =>
    obtain ⟨st, m, hrm, hstop⟩ : ∃ st m, i.rm = .mem m ∧
        alignCheckStop i.form s (operandAddr s i m) (operandBytes i) = some st := by
      obtain ⟨a, p, hac⟩ | hopen := h
      · exact ⟨_, exec_eq_ac hac⟩
      · exact ⟨_, exec_eq_alignCheckOpen hopen⟩
    obtain ⟨harmed, hf2, hmis⟩ := alignCheckStop_operand hstop
    exact ⟨harmed, hf2, m, hrm, hmis⟩
  case onlyF1 =>
    obtain ⟨m, _, hstop⟩ := exec_eq_ac h
    obtain ⟨_, ⟨hf1, _⟩ | ⟨_, _, _, hf⟩⟩ := alignCheckStop_eq_some hstop
    · exact hf1
    · cases hf

end Sys2Proof.Machine
end

section
/-! A launched program (70_reset_and_hazards.md R211, R213): under the launch premises an enabled instruction faults by
its memory operand alone, and the step from a launch state runs the first instruction of the program. -/

namespace Sys2Proof.Machine

/-! ## The outcomes left to an enabled instruction without alignment checking -/

/-- An enabled instruction without alignment checking faults by what stops its memory operand. -/
theorem exec_fault_of_enabled {i : Instr} {s : State} {f : Fault} (henabled : Enabled i.form s)
    (halign : alignCheck s = false) (h : exec i s = .fault f) :
    MemoryStop s.pc (.fault f) ∧ ∃ m, i.rm = .mem m := by
  obtain hform | ⟨m, hrm, hoperand⟩ := exec_eq_fault h
  · rw [(formStop_eq_none_iff _ _).mpr henabled] at hform
    cases hform
  · obtain hmemory | hstop := operandStop_eq_memory_or_alignment hoperand
    · exact ⟨hmemory, m, hrm⟩
    · obtain ⟨harmed, _⟩ := alignCheckStop_operand hstop
      exact absurd harmed (by simp [halign])

theorem faultVector_of_memoryStop {pc : Quad} {f : Fault} (h : MemoryStop pc (.fault f)) :
    faultVector f ∈ [12, 13, 14] := by
  cases h <;> simp [faultVector]

/-- An enabled register form with a legal next pc completes: its second source is never stopped. -/
theorem exec_reg_completes {i : Instr} {s : State} {r : BitVec 3} (hrm : i.rm = .reg r) (henabled : Enabled i.form s)
    (hnext : NextPcOk s i.ilen) : ∃ t, exec i s = .next t := by
  obtain ⟨v, hv⟩ := sourceOf_reg hrm s
  exact ⟨_, exec_eq_next_iff.mpr ⟨henabled, hnext, v, hv, rfl⟩⟩

/-- Settles O52: the premises leave what stops a memory operand, and a register form has none. -/
theorem launchedInstructionFaults : Obligations.LaunchedInstructionFaults := by
  intro i s henabled halign
  refine ⟨fun f h => ?fault, fun r hrm => exec_reg_completes hrm henabled⟩
  case fault =>
    obtain ⟨hmemory, hrm⟩ := exec_fault_of_enabled henabled halign h
    exact ⟨faultVector_of_memoryStop hmemory, hrm⟩

/-! ## The bytes of a program -/

@[simp] theorem programBytes_nil : programBytes [] = [] := rfl

@[simp] theorem programBytes_cons (i : Instr) (prog : List Instr) :
    programBytes (i :: prog) = encode i ++ programBytes prog := List.flatMap_cons

theorem ilen_pos (i : Instr) : 0 < i.ilen := by
  rw [ilen_eq_sum]
  omega

theorem programBytes_length_cons (i : Instr) (prog : List Instr) :
    (programBytes (i :: prog)).length = i.ilen + (programBytes prog).length := by
  rw [programBytes_cons, List.length_append, encode_length]

theorem ilen_le_programBytes_length (i : Instr) (prog : List Instr) : i.ilen ≤ (programBytes (i :: prog)).length := by
  rw [programBytes_length_cons]
  omega

/-- No instruction is encoded by no bytes. -/
theorem programBytes_length_eq_zero_iff {prog : List Instr} : (programBytes prog).length = 0 ↔ prog = [] := by
  cases prog with
  | nil => simp
  | cons i rest =>
    have hpos := ilen_pos i
    rw [programBytes_length_cons]
    simp only [reduceCtorEq, iff_false]
    omega

/-! ## The launch premises, at pc -/

section Launched

variable {s : State} {prog : List Instr} (h : Launched s prog)
include h

/-- The addresses from pc up to the end of the program do not wrap (L6). -/
theorem Launched.toNat_byteAddr {k : Nat} (hk : k ≤ (programBytes prog).length) :
    (byteAddr s.pc k).toNat = s.cfg.codeBase.toNat + k := by
  have hend := h.codeRange
  have hlt := s.cfg.codeEnd.isLt
  rw [h.atCodeBase, byteAddr, BitVec.toNat_add, BitVec.toNat_ofNat]
  omega

theorem Launched.byteAddr_codeEnd : byteAddr s.pc (programBytes prog).length = s.cfg.codeEnd :=
  BitVec.eq_of_toNat_eq ((h.toNat_byteAddr le_rfl).trans h.codeRange.symm)

theorem Launched.byteAddr_admitted {k : Nat} (hk : k < (programBytes prog).length) :
    canonical s.cfg.vaBits (byteAddr s.pc k) = true ∧ admissionOf s.cfg (byteAddr s.pc k) .fetch = .ok := by
  have hend := h.codeRange
  have haddr := h.toNat_byteAddr hk.le
  exact h.codeAdmitted _ (BitVec.le_def.mpr (by omega)) (BitVec.lt_def.mpr (by omega))

/-- The program's bytes stand at pc, and each of them can be fetched (L6). -/
theorem Launched.codeAt : CodeAt s (programBytes prog) := by
  intro k hk
  obtain ⟨hcanonical, hadmitted⟩ := h.byteAddr_admitted hk
  refine ⟨?fetch, ?byte⟩
  case fetch => rw [fetchStop_of_canonical hcanonical, admissionStop_eq_none_iff, hadmitted]
  case byte => rw [h.toNat_byteAddr hk.le, h.codeBytes k hk]

/-- pc may stand at every byte of the program, and at its end: codeEnd is canonical by R7. -/
theorem Launched.nextPcOk {k : Nat} (hk : k ≤ (programBytes prog).length) : NextPcOk s k := by
  refine ⟨?wrap, ?canonical⟩
  case wrap =>
    have hend := h.codeRange
    have hlt := s.cfg.codeEnd.isLt
    rw [h.atCodeBase]
    omega
  case canonical =>
    rcases hk.lt_or_eq with hlt | rfl
    · exact (h.byteAddr_admitted hlt).1
    · have hlegal := h.codeLegal
      simp only [codeRangeLegal, Bool.and_eq_true] at hlegal
      obtain ⟨⟨_, hcodeEnd⟩, _⟩ := hlegal
      rw [← h.byteAddr_codeEnd] at hcodeEnd
      exact hcodeEnd

/-- L2, L3 and L5 for one instruction of the program. -/
theorem Launched.enabled {i : Instr} (hi : i ∈ prog) : Enabled i.form s := by
  obtain ⟨_, hts, hos⟩ := h.osEnabled
  exact ⟨h.features i hi, hos i hi, hts, fun hf1 => h.noX87Pending ⟨i, hi, hf1⟩⟩

/-- A step happens where the program has an instruction (L1, L9, R213). -/
theorem Launched.running (hprog : prog ≠ []) : Running s := by
  have hne : (programBytes prog).length ≠ 0 := mt programBytes_length_eq_zero_iff.mp hprog
  have hend := h.codeRange
  refine ⟨h.mode64, by rw [h.singleAgent], by rw [h.singleAgent], by rw [h.singleAgent], fun hpc => ?_⟩
  rw [← hpc, h.atCodeBase] at hend
  omega

end Launched

/-! ## The first step -/

section FirstStep

variable {s t : State} {i : Instr} {rest : List Instr} (h : Launched s (i :: rest))
include h

theorem Launched.step_eq_exec (hwf : i.wf = true) : step s = exec i s :=
  step_of_instr (h.running (List.cons_ne_nil i rest)) h.codeAt
    (programBytes_cons i rest ▸ decodeEncode i (programBytes rest) hwf)

/-- The first instruction leaves pc past its own bytes. -/
theorem Launched.exec_pc (hexec : exec i s = .next t) : t.pc.toNat = s.cfg.codeBase.toNat + i.ilen := by
  rw [(exec_next_pc hexec).1, h.toNat_byteAddr (ilen_le_programBytes_length i rest)]

/-- The first instruction leaves pc at codeEnd exactly if no byte of the program follows (R213). -/
theorem Launched.exec_pc_eq_codeEnd_iff (hexec : exec i s = .next t) : t.pc = t.cfg.codeEnd ↔ rest = [] := by
  have hend := h.codeRange
  rw [programBytes_length_cons] at hend
  rw [← programBytes_length_eq_zero_iff, (exec_sameFrame hexec).cfg, ← BitVec.toNat_inj, h.exec_pc hexec]
  omega

end FirstStep

/-- Settles O53: the step is the first instruction, which the premises enable, so O52 says its outcomes. -/
theorem launchedStep : Obligations.LaunchedStep := by
  intro s i rest h hwf
  obtain ⟨hfaults, hcompletes⟩ :=
    launchedInstructionFaults i s (h.enabled List.mem_cons_self) h.noAlignCheck
  rw [h.step_eq_exec hwf]
  exact ⟨rfl, hfaults, fun r hrm => hcompletes r hrm (h.nextPcOk (ilen_le_programBytes_length i rest)),
    fun t hexec => ⟨h.exec_pc hexec, h.exec_pc_eq_codeEnd_iff hexec⟩⟩

end Sys2Proof.Machine
end

section
/-! Placing a table word (70_reset_and_hazards.md R211, R212; log 1): the launch sets the enables of every form, the
load puts the word's bytes where the step fetches, and both keep the invariant. -/

namespace Sys2Proof.Machine

/-! ## Canonical addresses between two others -/

/-- The canonical addresses are two blocks, at the bottom and at the top (20_memory.md R58). -/
theorem canonical_iff_toNat (v : VaBits) (a : Quad) :
    canonical v a = true ↔ a.toNat < 2 ^ (v.bits - 1) ∨ 2 ^ 64 - 2 ^ (v.bits - 1) ≤ a.toNat := by
  have hlt := a.isLt
  cases v <;>
    simp only [canonical, VaBits.bits, Bool.or_eq_true, beq_iff_eq, ← BitVec.toNat_inj, BitVec.toNat_ushiftRight,
      BitVec.toNat_ofNat, BitVec.toNat_allOnes, Nat.shiftRight_eq_div_pow] <;>
    omega

/-- An address between two canonical ones at most 15 bytes apart is canonical: the two blocks lie further apart. -/
theorem canonical_of_between {v : VaBits} {a b c : Quad} (ha : canonical v a = true) (hc : canonical v c = true)
    (hab : a.toNat ≤ b.toNat) (hbc : b.toNat ≤ c.toNat) (hnear : c.toNat ≤ a.toNat + 15) : canonical v b = true := by
  rw [canonical_iff_toNat] at ha hc ⊢
  cases v <;> simp only [VaBits.bits] at ha hc ⊢ <;> omega

/-! ## The bytes that a load writes -/

section WriteAll

variable {m : Memory} {la : Quad} {bs : List Byte}

/-- Bytes written from `la` on leave what lies below. -/
theorem Memory.read_writeAll_below {a : Nat} (hm : m.wf = true) (hwrap : la.toNat + bs.length < 2 ^ 64)
    (ha : a < la.toNat) : (m.writeAll la bs).read a = m.read a := by
  induction bs generalizing m la with
  | nil => rfl
  | cons b t ih =>
    rw [List.length_cons] at hwrap
    have hnext : (la + 1#64).toNat = la.toNat + 1 := BitVec.toNat_add_of_lt (by simp; omega)
    rw [Memory.writeAll, ih (Memory.write_wf la.isLt hm) (by omega) (by omega), Memory.read_write a b hm,
      if_neg ha.ne]

/-- Bytes written from `la` on stand there. -/
theorem Memory.read_writeAll {k : Nat} (hm : m.wf = true) (hwrap : la.toNat + bs.length < 2 ^ 64)
    (hk : k < bs.length) : (m.writeAll la bs).read (la.toNat + k) = bs[k] := by
  induction bs generalizing m la k with
  | nil => cases hk
  | cons b t ih =>
    rw [List.length_cons] at hwrap hk
    have hnext : (la + 1#64).toNat = la.toNat + 1 := BitVec.toNat_add_of_lt (by simp; omega)
    have hwrite : (m.write la.toNat b).wf = true := Memory.write_wf la.isLt hm
    rw [Memory.writeAll]
    cases k with
    | zero =>
      rw [Nat.add_zero, Memory.read_writeAll_below hwrite (by omega) (by omega), Memory.read_write _ b hm, if_pos rfl,
        List.getElem_cons_zero]
    | succ k =>
      have hrest := ih (la := la + 1#64) (k := k) hwrite (by omega) (by omega)
      rwa [hnext, Nat.add_assoc, Nat.add_comm 1 k] at hrest

end WriteAll

/-! ## The bytes of a table word -/

@[simp] theorem bytesMsb_length (w n : Nat) : (bytesMsb w n).length = n := by
  induction n with
  | zero => rfl
  | succ n ih => rw [bytesMsb, List.length_cons, ih]

@[simp] theorem bytesLsb_length (w n : Nat) : (bytesLsb w n).length = n := by
  induction n generalizing w with
  | zero => rfl
  | succ n ih => rw [bytesLsb, List.length_cons, ih]

theorem padBytes_length {bs : List Byte} (h : bs.length ≤ maxLen) : (padBytes bs).length = maxLen := by
  rw [padBytes, List.length_append, List.length_replicate, Nat.add_sub_cancel' h]

theorem tableBytes_length {nbits w : Nat} (h : nbits ≤ 120) : (tableBytes nbits w).length = 15 := by
  have hbytes : nbits / 8 ≤ maxLen := by unfold maxLen; omega
  unfold tableBytes
  dsimp only
  split <;> exact padBytes_length (by simpa using hbytes)

theorem decode_of_decodeTableWord {nbits w : Nat} {i : Instr} (h : decodeTableWord nbits w = some i) :
    decode (tableBytes nbits w) = .instr i := by
  unfold decodeTableWord at h
  cases hd : decode (tableBytes nbits w) <;> rw [hd] at h <;> cases h
  rfl

theorem programLen_of_instr {bs : List Byte} {i : Instr} (h : decode bs = .instr i) : programLen bs = i.ilen := by
  rw [programLen, h]

/-! ## The launch (R212) -/

section Launch

variable (s : State)

theorem alignCheck_launch : alignCheck (launch s) = false := by
  simp [alignCheck, cr0AM, launch]

theorem launch_em_ts : (launch s).cr0.getLsbD 2 = false ∧ (launch s).cr0.getLsbD 3 = false := by
  simp [launch]

/-- The launch enables every form. -/
theorem osEnabled_launch (f : Form) : OsEnabled f (launch s) := by
  cases f <;> simp [OsEnabled, Form.layout, launch]

end Launch

/-! ## The load (R211 L6, R213) -/

section Load

variable {s : State} {bs : List Byte} {n : Nat}

/-- The load admits the addresses of the program for fetch, ahead of what the regions said of them. -/
theorem admissionOf_loadProgram {a : Quad} (hlo : s.pc ≤ a) (hhi : a ≤ byteAddr s.pc (n - 1)) :
    admissionOf (loadProgram s bs n).cfg a .fetch = .ok := by
  simp [admissionOf, loadProgram, hlo, hhi]

theorem admissionLegal_loadProgram : admissionLegal (loadProgram s bs n).cfg = admissionLegal s.cfg := rfl

theorem toNat_byteAddr_of_le {k : Nat} (hnext : NextPcOk s 15) (hk : k ≤ 15) :
    (byteAddr s.pc k).toNat = s.pc.toNat + k := by
  obtain ⟨hwrap, _⟩ := hnext
  rw [byteAddr, BitVec.toNat_add, BitVec.toNat_ofNat]
  omega

/-- The 15 bytes from a canonical pc are canonical if pc may stand at their end. -/
theorem canonical_of_nextPcOk {a : Quad} (hpc : canonical s.cfg.vaBits s.pc = true) (hnext : NextPcOk s 15)
    (hlo : s.pc.toNat ≤ a.toNat) (hhi : a.toNat ≤ s.pc.toNat + 15) : canonical s.cfg.vaBits a = true := by
  have hend := byteAddr_toNat_of_nextPcOk hnext
  exact canonical_of_between hpc (byteAddr_canonical hnext) hlo (by omega) (by omega)

theorem codeRangeLegal_loadProgram (hpc : canonical s.cfg.vaBits s.pc = true) (hnext : NextPcOk s 15) (hn : n ≤ 15) :
    codeRangeLegal (loadProgram s bs n).cfg = true := by
  have hend := toNat_byteAddr_of_le hnext hn
  have hcanonical : canonical s.cfg.vaBits (byteAddr s.pc n) = true :=
    canonical_of_nextPcOk hpc hnext (by omega) (by omega)
  have hle : s.pc ≤ byteAddr s.pc n := BitVec.le_def.mpr (by omega)
  simp [codeRangeLegal, hpc, hcanonical, hle]

/-- Every byte of the range of the program can be fetched. -/
theorem codeAdmitted_loadProgram {a : Quad} (hpc : canonical s.cfg.vaBits s.pc = true) (hnext : NextPcOk s 15)
    (hn : n ≤ 15) (hlo : s.pc ≤ a) (hhi : a < byteAddr s.pc n) :
    canonical s.cfg.vaBits a = true ∧ admissionOf (loadProgram s bs n).cfg a .fetch = .ok := by
  have hend := toNat_byteAddr_of_le hnext hn
  have hlast := toNat_byteAddr_of_le hnext (k := n - 1) (by omega)
  have hge := BitVec.le_def.mp hlo
  have hlt := BitVec.lt_def.mp hhi
  exact ⟨canonical_of_nextPcOk hpc hnext hge (by omega), admissionOf_loadProgram hlo (BitVec.le_def.mpr (by omega))⟩

theorem read_loadProgram {k : Nat} (hmem : s.mem.wf = true) (hnext : NextPcOk s 15) (hlen : bs.length ≤ 15)
    (hk : k < bs.length) : (loadProgram s bs n).mem.read (s.pc.toNat + k) = bs[k] := by
  obtain ⟨hwrap, _⟩ := hnext
  exact Memory.read_writeAll hmem (by omega) hk

end Load

/-! ## The launch and the load of one instruction -/

theorem ilen_le_of_wf {i : Instr} (hwf : i.wf = true) : i.ilen ≤ 15 := by
  obtain ⟨_, _, _, _, _, hlen⟩ := (wf_iff i).mp hwf
  exact hlen

section Placed

variable {s : State} {bs : List Byte} {i : Instr} (hinv : Inv s) (hnext : NextPcOk s 15)
include hinv hnext

/-- A launch and a load of at most 15 bytes keep the invariant: the registers, their widths and the regions' page-fault
codes are those of `s`. -/
theorem inv_loadProgram_launch {n : Nat} (hn : n ≤ 15) : Inv (loadProgram (launch s) bs n) := by
  obtain ⟨hmem, hconsistent, _, hadmission, hwidth, hcount, hk, hpc⟩ := hinv
  exact ⟨Memory.writeAll_wf s.pc bs hmem, hconsistent, codeRangeLegal_loadProgram (s := launch s) hpc hnext hn,
    admissionLegal_loadProgram.trans hadmission, hwidth, hcount, hk, hpc⟩

/-- The load of bytes that begin with an instruction is the launch state of the program of that instruction. -/
theorem launched_loadProgram_launch (hd : decode bs = .instr i) (hlen : bs.length ≤ 15)
    (hfeature : FeaturePresent i.form s.cfg.cpuid) : Launched (loadProgram (launch s) bs i.ilen) [i] := by
  obtain ⟨hmem, hconsistent, _, _, _, _, _, hpc⟩ := hinv
  obtain ⟨hwf, t, rfl⟩ := decode_eq_instr_iff.mp hd
  obtain ⟨hem, hts⟩ := launch_em_ts s
  have hshort := ilen_le_of_wf hwf
  have hbytes : programBytes [i] = encode i := by simp
  exact
    { mode64 := rfl
      features := fun j hj => List.mem_singleton.mp hj ▸ hfeature
      consistent := hconsistent
      osEnabled := ⟨hem, hts, fun j _ => osEnabled_launch s j.form⟩
      noAlignCheck := alignCheck_launch s
      noX87Pending := fun _ => rfl
      codeLegal := codeRangeLegal_loadProgram (s := launch s) hpc hnext hshort
      codeRange := by
        rw [hbytes, encode_length]
        exact toNat_byteAddr_of_le hnext hshort
      codeBytes := fun k hk => by
        simp only [hbytes] at hk ⊢
        have hk' : k < (encode i ++ t).length := by rw [List.length_append]; omega
        exact (read_loadProgram (s := launch s) hmem hnext hlen hk').trans (List.getElem_append_left hk)
      codeAdmitted := fun a hlo hhi => codeAdmitted_loadProgram (s := launch s) hpc hnext hshort hlo hhi
      atCodeBase := rfl
      singleAgent := rfl }

end Placed

/-- Settles O54: the bytes of the word begin with the instruction, and the load is as long as it is. -/
theorem placedWordIsLaunched : Obligations.PlacedWordIsLaunched := by
  intro s nbits w i hinv hnbits hword hfeature hnext
  have hd := decode_of_decodeTableWord hword
  have hlen : (tableBytes nbits w).length ≤ 15 := (tableBytes_length hnbits).le
  have hshort : i.ilen ≤ 15 := ilen_le_of_wf (decodedWellFormed _ _ hd)
  rw [State.withFetchWord, programLen_of_instr hd]
  exact ⟨launched_loadProgram_launch hinv hnext hd hlen hfeature, inv_loadProgram_launch hinv hnext hshort⟩

end Sys2Proof.Machine
end

section
/-! A REX byte directly before a VEX or EVEX prefix counts toward the 15 bytes (log 16): it ends the prefixes as they
stand, the scan leaves it to the body, and the sum that `finish` checks is the same. -/

namespace Sys2Proof

/-- The body after the prefixes is that of a VEX or EVEX form, so the REX byte that ends them stands directly before it;
with more than 15 bytes the length check comes before row 3 of R121. -/
theorem decode_of_long_rexBefore {pre : List Prefix} {rest t : List Byte} {b : Body} (hstop : ScanStops rest)
    (hparse : parseBody rest = (false, .body b t)) (hvex : b.isLegacy = false) (hend : endsInRex pre = true)
    (hlong : 15 < pre.length + b.len) : decode (preBytes pre ++ rest) = .tooLong := by
  have hno : startsRex rest = false := by
    rw [← Bool.not_eq_true]
    intro hrex
    rw [isLegacy_of_startsRex hparse hrex] at hvex
    cases hvex
  obtain ⟨q, w, rfl⟩ := Machine.endsInRex_eq_true hend
  obtain ⟨_, _, rfl, _⟩ | ⟨_, hrex⟩ := parseBody_rex_cons (isRex_rexIgnored w) hparse hno
  · cases hvex
  · rw [decode_of_body (Machine.scanPrefixes_lastRex hstop hno) hrex]
    rw [List.length_append, List.length_singleton] at hlong
    exact if_pos hlong

theorem decode_encode_of_long_rexBefore {i : Instr} (hrm : i.rm.wf = true) (hlong : 15 < i.ilen)
    (hvex : i.form.layout ≠ .legacy) (hend : endsInRex i.pre = true) : decode (encode i) = .tooLong := by
  have hparse : parseBody (i.body.bytes ++ []) = (false, .body i.body []) :=
    (parseBody_eq_body_iff (reservedOk_body i)).mpr ⟨(rm_body i).symm ▸ hrm, rfl⟩
  have hstop := scanStops_body i.body []
  rw [List.append_nil] at hparse hstop
  rw [encode_eq]
  exact decode_of_long_rexBefore hstop hparse (isLegacy_body hvex) hend (ilen_eq i ▸ hlong)

/-- An EVEX payload of the family pattern, whatever its other bits. -/
theorem decode_payload_of_long_rexBefore {pre : List Prefix} {p0 p1 p2 : Byte} {reg : BitVec 3} {rm : Rm}
    (hrm : rm.wf = true) (hlong : 15 < evexLen pre rm) (hend : endsInRex pre = true)
    (hmm : p0.extractLsb' 0 2 = 1#2) (hpp : p1.extractLsb' 0 2 = 1#2) :
    decode (preBytes pre ++ [0x62#8, p0, p1, p2, 0xEF#8] ++ rmBytes reg rm) = .tooLong := by
  have hstop : ScanStops ([0x62#8, p0, p1, p2, 0xEF#8] ++ rmBytes reg rm) :=
    (scanStops_cons_iff _ _).mpr ⟨rfl, fun h => by cases h⟩
  have hparse := parseEvex_payload (p2 := p2) hmm hpp hrm (reg := reg) []
  rw [List.append_nil] at hparse
  rw [List.append_assoc]
  refine decode_of_long_rexBefore hstop (congrArg _ hparse) rfl hend ?_
  simp only [Body.len, evexLen, List.length_nil] at hlong ⊢
  omega

end Sys2Proof

namespace Sys2Proof.Machine

/-- Settles O56: both kinds of bytes are too long for the decoder, which the fetch answers with #GP(0). -/
theorem rexBeforeVexCountsTowardLength : Obligations.RexBeforeVexCountsTowardLength := by
  constructor
  · intro s i hrun hrm _ hlong hvex hend hcode
    exact step_of_tooLong hrun hcode (decode_encode_of_long_rexBefore hrm hlong hvex hend)
  · intro s pre p0 p1 p2 reg rm hrun hrm _ hlong hend hcode hmm hpp
    exact step_of_tooLong hrun hcode (decode_payload_of_long_rexBefore hrm hlong hend hmm hpp)

end Sys2Proof.Machine
end
